-- ==== Sys2Proof/Word.lean ====
section
/-! DEFINITION. Words of the KFM core: bytes of the streams, 32-bit element words, and samples
(00_scope.md R11, R14; 10_state.md R28). -/

namespace Sys2Proof

/-- A byte of a stream (R11). -/
abbrev Byte := BitVec 8

/-- A 32-bit element word after `le32` assembly (R94), and the width of the 32-bit CFG fields (R21). -/
abbrev Word := BitVec 32

/-- One sample of `SAMP` (R28): a binary32 datum kept as its 32 bits (Variants B and C, R153), or a
signed integer (Variant A, R155). -/
inductive Sample where
  | f32 (bits : Word)
  | i32 (value : Int)
deriving DecidableEq, Repr

end Sys2Proof
end

