-- ==== Sys2Proof/Machine/Cyclotomic.lean ====
section
/-! DEFINITION. Exact magnitudes. The reference semantics of the analyzer is over the reals
(42_spectral_analyzer.md R176, 92_eei_decisions.md D18). Every number it produces is a sum of cosines of
rational multiples of the full turn with rational coefficients, or the square root of one, so it is held
here as plain integers and compared exactly. A magnitude carries its square (R179 allows that); Safety.lean
says which real number it stands for, and Laws/Exact.lean proves the comparison right. -/

namespace Sys2Proof

/-- A magnitude of the exact instance (`MagT = Real`, R176): the non-negative real number whose square is
`(sum over j of coeffs[j] * cos (2*pi*j/order)) / den`. -/
structure ExactMag where
  order : Nat
  coeffs : List Int
  den : Nat
deriving DecidableEq, Repr

namespace Cyclotomic

/-- Whether `m` successive terms of the recurrence `v' = 2*X*v - q*u` are all positive. With
`X = x * 2^i` and `q = 4^i` the terms are `sin (j*t) / sin t` up to positive powers of 2, `x = cos t`. -/
def chainPositive (X q : Int) : Nat → Int → Int → Bool
  | 0, _, _ => true
  | m + 1, u, v => decide (0 < v) && chainPositive X q m v (2 * X * v - q * u)

/-- Whether `X / 2^i` is above `cos (2*pi/L)` (`L` even): the angle of `X / 2^i`, taken `L/2` times,
stays below half a turn. -/
def aboveCos (L i : Nat) (X : Int) : Bool :=
  chainPositive X (4 ^ i : Nat) (L / 2) 0 1

/-- Bisection: `cosBelow L i / 2^i` is at most `cos (2*pi/L)` and less than `2/2^i` below it. -/
def cosBelow (L : Nat) : Nat → Int
  | 0 => -1
  | i + 1 =>
    let a := cosBelow L i
    if aboveCos L i (a + 1) then 2 * a else 2 * (a + 1)

/-- `acc * p^len + sum over j of cs[j] * T_j(x) * p^(len-1)` for the Chebyshev polynomials `T_j`, where
`p = 2^n`, `q = 4^n`, `X = x * 2^n` and `t`, `u` are the first two of the scaled `T_j(x)`. -/
def chebyshevSum (X p q : Int) : Int → Int → Int → List Int → Int
  | acc, _, _, [] => acc
  | acc, t, u, c :: cs => chebyshevSum X p q (acc * p + c * t) u (2 * X * u - q * t) cs

/-- `sum over j of |cs[j]| * j^2`: how fast the Chebyshev sum can change with its argument. -/
def slope : Nat → List Int → Nat
  | _, [] => 0
  | j, c :: cs => c.natAbs * (j * j) + slope (j + 1) cs

/-- The sign of `sum of cs[j] * cos (2*pi*j/L)` where `n` bits of `cos (2*pi/L)` settle it, else 0. -/
def signAt (L : Nat) (cs : List Int) (n : Nat) : Int :=
  let X := cosBelow L n
  let v := chebyshevSum X (2 ^ n : Nat) (4 ^ n : Nat) 0 1 X cs * (2 ^ n : Nat)
  let e : Nat := 2 * slope 0 cs * 2 ^ (n * (cs.length - 1))
  if (e : Int) < v then 1 else if v < -(e : Int) then -1 else 0

/-- `signAt` at `n`, `2n`, `4n`, ... bits until one settles it. -/
def refine (L : Nat) (cs : List Int) : Nat → Nat → Int
  | 0, _ => 0
  | fuel + 1, n =>
    let s := signAt L cs n
    if s = 0 then refine L cs fuel (2 * n) else s

/-- Sum of the absolute values of the coefficients. -/
def size (cs : List Int) : Nat :=
  cs.foldr (fun c a => c.natAbs + a) 0

/-- How many doublings are enough: a non-zero value is at least `1 / (2 * (2*size)^L)` in absolute value
(its norm is a non-zero integer), so this many bits always settle its sign. -/
def doublings (L : Nat) (cs : List Int) : Nat :=
  Nat.log2 (L * (Nat.log2 (size cs) + 2) + 2 * L + Nat.log2 (size cs) + 8) + 1

/-- The coefficients moved up by `r` places, cyclically: multiplication by the `r`-th power of the root
of unity. -/
def rotate (r : Nat) (cs : List Int) : List Int :=
  cs.drop (cs.length - r) ++ cs.take (cs.length - r)

/-- Twice the real part: coefficients of `j` and `-j` added. -/
def symmetrize : List Int → List Int
  | [] => []
  | c :: cs => List.zipWith (· + ·) (c :: cs) (c :: cs.reverse)

/-- Multiplication by `z^(L/d) - 1` for every divisor `d >= 2` of `L` up to the bound: none of these is
zero at a primitive `L`-th root of unity `z`, and every other `L`-th root of unity is a root of one. -/
def clearImprimitive (L : Nat) : Nat → List Int → List Int
  | 0, cs => cs
  | d + 1, cs =>
    clearImprimitive L d
      (if 2 ≤ d + 1 ∧ L % (d + 1) = 0 then List.zipWith (· - ·) (rotate (L / (d + 1)) cs) cs else cs)

/-- Whether `sum of cs[j] * cos (2*pi*j/L)` is zero, decided without approximation. -/
def isZero (L : Nat) (cs : List Int) : Bool :=
  (clearImprimitive L L (symmetrize cs)).all (fun c => c == 0)

/-- The sign (-1, 0 or 1) of `sum of cs[j] * cos (2*pi*j/L)`. -/
def sign (L : Nat) (cs : List Int) : Int :=
  bif isZero L cs then 0 else refine L cs (doublings L cs) 32

/-- Add `a` to the coefficient at index `e`. -/
def addAt (a : Int) : Nat → List Int → List Int
  | _, [] => []
  | 0, c :: cs => (c + a) :: cs
  | e + 1, c :: cs => c :: addAt a e cs

/-- A sum of integer multiples of powers of the `L`-th root of unity `z = exp (2*pi*j/L)`: pairs of a
coefficient and an exponent. -/
abbrev Terms := List (Int × Nat)

/-- Row `a * z^i * conj(ts)` added to dense coefficients. -/
def addRow (L : Nat) (a : Int) (i : Nat) (ts : Terms) (acc : List Int) : List Int :=
  ts.foldl (fun acc t => addAt (a * t.1) ((i + (L - t.2)) % L) acc) acc

/-- `|X|^2 = X * conj(X)` as dense coefficients of length `L` (exponents of `ts` below `L`). -/
def normSq (L : Nat) (ts : Terms) : List Int :=
  ts.foldl (fun acc t => addRow L t.1 t.2 ts acc) (List.replicate L 0)

/-- Coefficients at order `L` rewritten at order `L * m`: the coefficient of `j` moves to `j * m`. -/
def lift (m : Nat) : List Int → List Int
  | [] => []
  | c :: cs => (c :: List.replicate (m - 1) 0) ++ lift m cs

/-- `a * cs - b * ds`, term by term. -/
def combine (a : Int) (cs : List Int) (b : Int) (ds : List Int) : List Int :=
  List.zipWith (fun c d => a * c - b * d) cs ds

end Cyclotomic

namespace ExactMag

/-- The sign of `(a * m^2) - (b * m'^2)` for natural numbers `a`, `b`: both squares are brought to the
least common order and over a common denominator. -/
def compareScaled (a : Nat) (m : ExactMag) (b : Nat) (m' : ExactMag) : Int :=
  let L := Nat.lcm m.order m'.order
  Cyclotomic.sign L
    (Cyclotomic.combine ((a * m'.den : Nat) : Int) (Cyclotomic.lift (L / m.order) m.coeffs)
      ((b * m.den : Nat) : Int) (Cyclotomic.lift (L / m'.order) m'.coeffs))

/-- The order of exact magnitudes: `m < m'` as real numbers (R176). -/
def lt (m m' : ExactMag) : Bool :=
  decide (compareScaled 1 m 1 m' < 0)

/-- The magnitude `|r|` of a rational number. -/
def ofRat (r : Rat) : ExactMag :=
  { order := 2, coeffs := [r.num * r.num, 0], den := r.den * r.den }

end ExactMag

end Sys2Proof
end

