-- ==== Sys2Proof/Config.lean ====
section
/-! DEFINITION. What an implementation fixes (00_scope.md R8), the carriers of its `NUM` record, and the free
values: functions without a body, of which nothing is known but what their users add. -/

namespace Sys2Proof

/-- An element of `MagT` (R176). An implementation's `MagT` is any totally ordered type: its elements are named by
their places in its order, rationals of which only the order means anything. `NUM` has countably many arguments, so
countably many values, and every countable total order has such places (log entry 9). -/
inductive Mag where
  /-- A magnitude of the exact instance, `MagT = Real`. -/
  | exact (m : ExactMag)
  /-- The element of an implementation's `MagT` at a place of its order; its zero is at place 0. -/
  | impl (place : Rat)
deriving DecidableEq, Repr

/-- An element of `FreqT` (R176). An implementation's `FreqT` is any type: its elements are named by numbers that
mean nothing (log entry 9). -/
inductive Freq where
  /-- A frequency of the exact instance, a rational number (R172). -/
  | exact (f : Rat)
  /-- An element of an implementation's `FreqT`. -/
  | impl (name : Nat)
deriving DecidableEq, Repr

namespace Config

/-- Which instance of the `NUM` record the machine is built with (R176): the exact one, or some
implementation's own arithmetic, of which only P1 to P3 are known. -/
inductive NumInstance where
  | exact
  | implementation
deriving DecidableEq, Repr

/-- The implementation parameters of R8, so stored that every value is legal: `N` is even and at least 2,
`SAMP_CAP` is at least `N`, `BAUD` and `UDP_RCVBUF` are positive. The last four belong to the external transports (R243,
R256): no rule reads them.
R8 leaves `READ_TIMEOUT` ("a numeric read timeout") and `UDP_PORT` ("a configured local port") OPEN, value and kind:
that each is a natural number without a unit is DESIGN CHOICE, log entry 27. -/
structure Params where
  /-- `N/2 - 1`. -/
  halfPred : Nat
  /-- `SAMP_CAP - N`. -/
  capSlack : Nat
  reqTerminator : List Byte
  dgramMax : Nat
  hammingPresent : Bool
  num : NumInstance
  /-- `BAUD - 1`. -/
  baudPred : Nat
  /-- `READ_TIMEOUT`; a natural number without a unit, DESIGN CHOICE, log entry 27. -/
  readTimeout : Nat
  /-- `UDP_PORT`; a natural number, DESIGN CHOICE, log entry 27. -/
  udpPort : Nat
  /-- `UDP_RCVBUF - 1`. -/
  udpRcvbufPred : Nat
deriving DecidableEq, Repr

/-- `K = N/2`, the index of the last bin (43_peak_extractor.md). -/
def Params.K (p : Params) : Nat := p.halfPred + 1

/-- Samples per frame and transform length `N` (R8). -/
def Params.N (p : Params) : Nat := 2 * p.K

/-- `FrameByteSize = N * 4` (R8). -/
def Params.frameBytes (p : Params) : Nat := p.N * 4

/-- `SAMP_CAP` (R22). -/
def Params.sampCap (p : Params) : Nat := p.N + p.capSlack

/-- `BAUD`, a positive integer (R8). -/
def Params.baud (p : Params) : Nat := p.baudPred + 1

/-- `UDP_RCVBUF`, a positive integer (R8). -/
def Params.udpRcvbuf (p : Params) : Nat := p.udpRcvbufPred + 1

/-- `PEAK_MAX = floor(N/4)` (R34, R193). -/
def Params.peakMax (p : Params) : Nat := p.N / 4

/-- The source's reference values where R8 gives one (for `BAUD` the first of its two); the other fields are this model's
choice for `State.reset` alone. DESIGN CHOICE, log entry 5. -/
def reference : Params :=
  { halfPred := 2047, capSlack := 0, reqTerminator := [], dgramMax := 65536, hammingPresent := true,
    num := .exact, baudPred := 115199, readTimeout := 1, udpPort := 0, udpRcvbufPred := 65535 }

/-- `draw(non-negative magnitude)` of R175, the `i`-th draw: under the exact `NUM` the number `|drawMagnitude i|`, under
an implementation's the element of its `MagT` at that place. Free value, log entry 10. -/
opaque drawMagnitude : Nat → Rat

/-- `NUM.spectrum(SAMP, WINDOW_SEL)[k]` of an implementation, by its place in `MagT` (R176). Free value, log entry 9. -/
opaque implSpectrum : List Sample → BitVec 1 → Nat → Rat

/-- `NUM.threshold(frac, mx)` of an implementation, argument and value by their places in `MagT` (R176). Free value,
log entry 9. -/
opaque implThreshold : Word → Rat → Rat

/-- `NUM.bin(k, fs)` of an implementation with transform length `N` (R176), by its name in `FreqT`: arguments `N`,
`k`, `fs`. Free value, log entry 9. -/
opaque implBin : Nat → Nat → Rat → Nat

/-- `toReal` of an implementation's `MagT`, by places (R176), where it is order-preserving, non-negative and 0 at zero
(`Mag.implToReal` of Safety.lean). No step reads it. Free value, log entry 9. -/
opaque implReal : Rat → ℝ

end Config

end Sys2Proof
end

