-- ==== Sys2Proof/Syntax.lean ====
section
/-! DEFINITION. The operations, reserved codes, micro-operation and wire tokens of the KFM core: one
constructor per row of spec/opcode_table.json (30_encoding.md R97, R100, R102). -/

namespace Sys2Proof

/-- One row of the opcode table. A command carries no operand (R96); a wire token carries the bytes, or the
assembled element word, that the transport read returned (R97). -/
inductive Instr where
  | nop
  | openTransport
  | closeTransport
  | acquireA
  | nextframeB
  | nextframeC
  | decodeF32
  | analyze
  | extract
  | handoff
  | run
  | reservedB
  | reservedC
  | reservedD
  | reservedE
  | reservedF
  | decI32 (u : Word)
  | bMarker (b : Byte)
  | bNoise (b : Byte)
  | bEmpty
  | bPayload (p : List Byte)
  | bShort (p : List Byte)
  | cDgram (d : List Byte)
  | aElem (u : Word)
  | aShort (bs : List Byte)
  | elemF32 (u : Word)
  | elemI32 (u : Word)
deriving DecidableEq, Repr

/-- Where bits are read from. The command port takes command words (R100). On the wire the variant and the
cursor mode decide which tokens can be seen (R97, column "variant and state"); an element word inside a
payload or response is read as the element format says (R9, R94). -/
inductive Context where
  | command
  | searching (marker : Byte)
  | collecting
  | response
  | datagram
  | payloadElement
  | responseElement
  | micro
deriving DecidableEq, Repr

end Sys2Proof
end

