-- ==== Sys2Proof/WellFormed.lean ====
section
/-! DEFINITION. Which instructions can occur: the length and value conditions of 30_encoding.md R97 and of
the `length` and `constraint` entries of spec/opcode_table.json. -/

namespace Sys2Proof

/-- Whether a token can be seen by a machine with parameters `p` and header marker `marker`. -/
def Instr.wellFormed (p : Config.Params) (marker : Byte) : Instr → Bool
  | .bMarker b => b == marker
  | .bNoise b => b != marker
  | .bPayload bs => bs.length == p.frameBytes
  | .bShort bs => decide (bs.length < p.frameBytes)
  | .cDgram d => decide (d.length ≤ p.dgramMax)
  | .aShort bs => decide (bs.length < 4)
  | .nop | .openTransport | .closeTransport | .acquireA | .nextframeB | .nextframeC | .decodeF32
  | .analyze | .extract | .handoff | .run
  | .reservedB | .reservedC | .reservedD | .reservedE | .reservedF
  | .decI32 _ | .bEmpty | .aElem _ | .elemF32 _ | .elemI32 _ => true

/-- The context in which an instruction is read (R97, R100, R155). -/
def Instr.context (marker : Byte) : Instr → Context
  | .nop | .openTransport | .closeTransport | .acquireA | .nextframeB | .nextframeC | .decodeF32
  | .analyze | .extract | .handoff | .run
  | .reservedB | .reservedC | .reservedD | .reservedE | .reservedF => .command
  | .decI32 _ => .micro
  | .bMarker _ | .bNoise _ | .bEmpty => .searching marker
  | .bPayload _ | .bShort _ => .collecting
  | .cDgram _ => .datagram
  | .aElem _ | .aShort _ => .response
  | .elemF32 _ => .payloadElement
  | .elemI32 _ => .responseElement

end Sys2Proof
end

