-- ==== Sys2Proof/Decode.lean ====
section
/-! DEFINITION. Element assembly, the decoder of command words and wire tokens, and the encoder
(30_encoding.md R94, R97, R100, R102). -/

namespace Sys2Proof

/-- `le32(b)`: the first byte received is the least significant (R94). -/
def le32 (b0 b1 b2 b3 : Byte) : Word :=
  b3 ++ b2 ++ b1 ++ b0

/-- The bytes of a word in stream order (R69): the inverse of `le32`. -/
def wordBytes (u : Word) : List Byte :=
  [u.extractLsb' 0 8, u.extractLsb' 8 8, u.extractLsb' 16 8, u.extractLsb' 24 8]

/-- `sext_32`: two's complement (R13, R94). -/
def sext32 (u : Word) : Int :=
  if u.toNat < 2 ^ 31 then (u.toNat : Int) else (u.toNat : Int) - 2 ^ 32

/-- The element words of a byte string: element `k` is at bytes `4k .. 4k+3` (R69); fewer than four bytes
at the end make no element. -/
def elementWords : List Byte → List Word
  | b0 :: b1 :: b2 :: b3 :: rest => le32 b0 b1 b2 b3 :: elementWords rest
  | _ => []

/-- One element word from exactly four bytes. -/
def oneWord : List Byte → Option Word
  | [b0, b1, b2, b3] => some (le32 b0 b1 b2 b3)
  | _ => none

/-- The command codes of R100 and the reserved rows of R102. A word with `cmd[7:4] /= 0` is reserved and
has no row: it decodes to nothing, and fetching it raises `ILLEGAL_CMD` (Machine/Schedule.lean). -/
def decodeCommand (w : Byte) : Option Instr :=
  match w.toNat with
  | 0x00 => some .nop
  | 0x01 => some .openTransport
  | 0x02 => some .closeTransport
  | 0x03 => some .acquireA
  | 0x04 => some .nextframeB
  | 0x05 => some .nextframeC
  | 0x06 => some .decodeF32
  | 0x07 => some .analyze
  | 0x08 => some .extract
  | 0x09 => some .handoff
  | 0x0A => some .run
  | 0x0B => some .reservedB
  | 0x0C => some .reservedC
  | 0x0D => some .reservedD
  | 0x0E => some .reservedE
  | 0x0F => some .reservedF
  | _ => none

/-- The decoder: the instruction that the bytes `bs`, all that one read returned, stand for in context `c`.
Total; bytes that no row of the table describes in that context give nothing. -/
def decode (p : Config.Params) (c : Context) (bs : List Byte) : Option Instr :=
  match c with
  | .command =>
    match bs with
    | [w] => decodeCommand w
    | _ => none
  | .searching marker =>
    match bs with
    | [] => some .bEmpty
    | [b] => if b = marker then some (.bMarker b) else some (.bNoise b)
    | _ => none
  | .collecting =>
    if bs.length = p.frameBytes then some (.bPayload bs)
    else if bs.length < p.frameBytes then some (.bShort bs)
    else none
  | .response =>
    match oneWord bs with
    | some u => some (.aElem u)
    | none => if bs.length < 4 then some (.aShort bs) else none
  | .datagram => if bs.length ≤ p.dgramMax then some (.cDgram bs) else none
  | .payloadElement => (oneWord bs).map .elemF32
  | .responseElement => (oneWord bs).map .elemI32
  | .micro => (oneWord bs).map .decI32

/-- The encoder: the command word of a command, the bytes of a token in stream order. -/
def encode : Instr → List Byte
  | .nop => [0x00]
  | .openTransport => [0x01]
  | .closeTransport => [0x02]
  | .acquireA => [0x03]
  | .nextframeB => [0x04]
  | .nextframeC => [0x05]
  | .decodeF32 => [0x06]
  | .analyze => [0x07]
  | .extract => [0x08]
  | .handoff => [0x09]
  | .run => [0x0A]
  | .reservedB => [0x0B]
  | .reservedC => [0x0C]
  | .reservedD => [0x0D]
  | .reservedE => [0x0E]
  | .reservedF => [0x0F]
  | .decI32 u => wordBytes u
  | .bMarker b => [b]
  | .bNoise b => [b]
  | .bEmpty => []
  | .bPayload p => p
  | .bShort p => p
  | .cDgram d => d
  | .aElem u => wordBytes u
  | .aShort bs => bs
  | .elemF32 u => wordBytes u
  | .elemI32 u => wordBytes u

/-- The context that `decodeTableWord` reads a table word in: an 8-bit row is a command word, a 32-bit row
an element read of Variant A (the four 32-bit rows share one pattern, log entry 25). -/
def tableContext (nbits : Nat) : Context :=
  if nbits = 32 then .response else .command

/-- The bytes of a table word of `nbits` bits, lowest bits first. -/
def tableBytes (nbits w : Nat) : List Byte :=
  (List.range (nbits / 8)).map (fun i => BitVec.ofNat 8 (w / 2 ^ (8 * i)))

/-- The instruction the decoder reads from a word numbered as spec/opcode_table.json numbers it. -/
def decodeTableWord (nbits w : Nat) : Option Instr :=
  decode Config.reference (tableContext nbits) (tableBytes nbits w)

end Sys2Proof
end

