-- ==== Sys2Proof/Machine/State.lean ====
section
/-! DEFINITION. The state of the KFM core (10_state.md R20 to R41), of the external collaborators it acts on
(20_memory.md R60 to R66), and of the model itself (log entries 1, 3, 4, 10). -/

namespace Sys2Proof.Machine

/-- The stage register (R30). -/
inductive Stage where
  | idle
  | acquire
  | decode
  | analyze
  | extract
  | handoff
  | stopped
  | faulted
deriving DecidableEq, Repr

/-- `cur.mode` (R24). -/
inductive CursorMode where
  | searchingHeader
  | collectingPayload
deriving DecidableEq, Repr

/-- `STATUS.FAULT` (R35, R223); the codes 8 to 15 are never recorded. -/
inductive FaultCode where
  | none
  | transportUnavailable
  | insufficientData
  | lengthMismatch
  | bufferNotValid
  | illegalCmd
  | configRange
  | transportClosed
deriving DecidableEq, Repr

/-- The position inside the operation in progress (model field, log entry 3): not begun; before `SerWrite`;
blocked in a transport primitive or in `SinkHandoff`. -/
inductive Phase where
  | start
  | write
  | wait
deriving DecidableEq, Repr

/-- The configuration registers (R21). `none` is the spec's own state "never written since reset", the read
of which raises `CONFIG_RANGE` (R230, R253; log entry 6). -/
structure Cfg where
  variant : Option (BitVec 2)
  headerMarker : Option Byte
  count : Option Word
  sampleRate : Option Rat
  minHeightFraction : Option Word
  minBinDistance : Option Word
  windowSel : Option (BitVec 1)
deriving DecidableEq, Repr

/-- One host write of a configuration register (R21). -/
inductive CfgWrite where
  | variant (v : BitVec 2)
  | headerMarker (b : Byte)
  | count (c : Word)
  | sampleRate (fs : Rat)
  | minHeightFraction (f : Word)
  | minBinDistance (d : Word)
  | windowSel (w : BitVec 1)
deriving DecidableEq, Repr

/-- An entry of the peak list (R34). -/
structure Peak where
  idx : Nat
  freq : Freq
  mag : Mag
deriving DecidableEq, Repr

/-- What `SinkHandoff` carries (R206). -/
structure Bundle where
  samples : List Sample
  bins : List Freq
  mags : List Mag
  peaks : List Peak
deriving DecidableEq, Repr

/-- One move of an agent outside the core, or of the core itself (log entry 1). -/
inductive Move where
  /-- Nobody outside moves: the core takes its own next transition, or waits. -/
  | core
  /-- The host presents a command word (R100, R101). -/
  | command (w : Byte)
  /-- The host writes a configuration register (R21). -/
  | writeCfg (c : CfgWrite)
  /-- The host asserts the external interrupt (R232). -/
  | interrupt
  /-- Reset is asserted (R250). -/
  | reset
  /-- The `SerRead` the core is blocked on returns `len` bytes (R63). -/
  | serialReturns (len : Nat)
  /-- The `DgramRecv` the core is blocked on returns the next datagram (R66). -/
  | dgramReturns
  /-- The sink has consumed the bundle: `SinkHandoff` returns (R206). -/
  | sinkReturns
  /-- The serial line has further bytes to deliver: they are the next of `ser_in` (R61). -/
  | serialDelivers (bs : List Byte)
  /-- `k` further bytes of `ser_in` reach the serial receive buffer (R40). -/
  | serialBuffers (k : Nat)
  /-- A further datagram is the next of `dgram_in` (R66). -/
  | dgramArrives (d : List Byte)
  /-- Whether an `OPEN` would succeed from now on (R201). -/
  | portAvailable (ok : Bool)
deriving DecidableEq, Repr

/-- The external collaborators: transports, sink, and what they and the host are about to do. Reset leaves
them alone (R251). -/
structure Env where
  /-- `ser_in`, as far as it is placed (R61, log entry 17). -/
  serIn : List Byte
  /-- `ser_pos` (R61). -/
  serPos : Nat
  /-- How many bytes at `ser_pos` are already in the serial receive buffer, which `SerFlush` discards (R40, R64). -/
  serBuffered : Nat
  /-- `ser_out` (R65). -/
  serOut : List Byte
  /-- `dgram_in`, as far as it is placed (R66). -/
  dgramIn : List (List Byte)
  /-- How many datagrams were received (R66, R80). -/
  dgramPos : Nat
  /-- The bundles the sink has consumed, oldest first (R206). -/
  sink : List Bundle
  /-- Whether the oracle answers an `OPEN` with success (R201). -/
  canOpen : Bool
  /-- The moves to come, oldest first (log entry 1). -/
  script : List Move
deriving DecidableEq, Repr

/-- Why a step stops the model. No state of the hardware corresponds to a stop: the spec's faults are next
states in stage `faulted` (R222). -/
inductive Fault where
  /-- Raised by a step whose move has the oracle return more bytes than were asked for or than are left, or a
  datagram longer than `DGRAM_MAX`: R63 and R66 say no oracle does that. Safe: such a run is no run of the
  hardware (log entry 15). -/
  | oracleContract
deriving DecidableEq, Repr

/-- Why a step has no meaning. -/
inductive Refusal where
  /-- Raised by an arm of `exec` for an instruction that has no meaning yet. Safe. No arm raises it. -/
  | notModelled (mnemonic : String)
  /-- Raised by a step whose move writes `CFG` while `stage` is not `IDLE`: "refused by the model" (R21).
  Safe: the spec gives the host no such step (log entry 20). -/
  | cfgWriteOutsideIdle
  /-- Raised by a step whose move writes `CFG.VARIANT` while the transport is held: "refused by the model"
  (R258). Safe, as above (log entry 20). -/
  | variantWriteWhileOpen
deriving DecidableEq, Repr

structure State where
  /-- The implementation parameters (R8). No step changes them (log entry 5). -/
  par : Config.Params
  cfg : Cfg
  /-- `cur.mode` (R24). -/
  mode : CursorMode
  /-- `cur.consumed` (R25). -/
  consumed : Nat
  /-- The Variant C accumulator (R26). -/
  acc : List Byte
  /-- `RAW` (R27). -/
  raw : List Byte
  rawValid : Bool
  /-- `SAMP` (R28): the samples written since the operation that fills it began (log entry 8). -/
  samp : List Sample
  sampLen : Nat
  sampValid : Bool
  /-- `TRAILING` (R29). -/
  trailing : Int
  trailingValid : Bool
  stage : Stage
  /-- `loop` (R31). -/
  loop : Bool
  /-- `SPEC.MAG` (R33). -/
  mag : List Mag
  /-- `SPEC.BIN` (R33). -/
  bin : List Freq
  specValid : Bool
  peaks : List Peak
  peakCount : Nat
  peakValid : Bool
  /-- `STATUS.FAULT` (R35). -/
  fault : FaultCode
  /-- `STATUS.NONFINITE` (R35). -/
  nonfinite : Bool
  /-- `cancel_pending` (R37). -/
  cancelPending : Bool
  /-- `transport_open` (R38). -/
  transportOpen : Bool
  /-- Model field: where in its pseudocode the operation in progress stands (log entry 3). -/
  phase : Phase
  /-- Model field: the last examination point of R233 was passed with no interrupt latched, or it is of kind (b), where
  a latched interrupt need not be taken at once (log entry 4). -/
  examined : Bool
  /-- Model field: how many free values were drawn (log entry 10). -/
  draws : Nat
  env : Env
deriving DecidableEq, Repr

/-- Every configuration register never written (R41, R253). -/
def Cfg.unwritten : Cfg :=
  { variant := none, headerMarker := none, count := none, sampleRate := none, minHeightFraction := none,
    minBinDistance := none, windowSel := none }

/-- Collaborators with nothing placed: no byte, no datagram, no bundle, no move (log entries 17, 18). -/
def Env.empty : Env :=
  { serIn := [], serPos := 0, serBuffered := 0, serOut := [], dgramIn := [], dgramPos := 0, sink := [],
    canOpen := true, script := [] }

/-- The core right after reset (R41) in a machine with parameters `p` and collaborators `e`. The contents of
the buffers are unspecified and unreadable (R39): nothing is kept in them (log entry 7). -/
def State.resetIn (p : Config.Params) (e : Env) : State :=
  { par := p, cfg := .unwritten, mode := .searchingHeader, consumed := 0, acc := [],
    raw := [], rawValid := false, samp := [], sampLen := 0, sampValid := false,
    trailing := 0, trailingValid := false, stage := .idle, loop := false,
    mag := [], bin := [], specValid := false, peaks := [], peakCount := 0, peakValid := false,
    fault := .none, nonfinite := false, cancelPending := false, transportOpen := false,
    phase := .start, examined := false, draws := 0, env := e }

/-- The machine right after reset (R41, R250), with the reference parameters (log entry 5). -/
def State.reset : State :=
  State.resetIn Config.reference Env.empty

end Sys2Proof.Machine
end

