-- ==== Sys2Proof/Machine/Ops.lean ====
section
/-! DEFINITION. The named operations the meanings share: stage sequencing and examination points, fault
entry, cancellation entry, reset, the validity lifecycle, and access to the transports and buffers. -/

namespace Sys2Proof.Machine

abbrev Result := Host.Outcome State Fault Refusal

/-- An examination point of R233: passed when no interrupt is latched. -/
def State.examine (s : State) : State :=
  { s with examined := !s.cancelPending }

/-- The operation in progress blocks in its first primitive. Blocked is a point of kind (b) of R233: with an interrupt
latched, the primitive may still return, or `waitMove` takes the interrupt (log entry 4). -/
def State.block (s : State) : State :=
  { s with phase := .wait, examined := true }

/-- `stage <- st`, at the start of that stage's operation (R203, R212), and the examination point there (R233 (a)). -/
def State.enterStage (st : Stage) (s : State) : State :=
  State.examine { s with stage := st, phase := .start }

/-- The operation in progress completes: on to `st` inside a RUN loop, back to `IDLE` otherwise (R203, R212). -/
def State.finishStage (st : Stage) (s : State) : State :=
  s.enterStage (if s.loop then st else .idle)

/-- What fault entry and cancellation entry have in common (R222 (3) to (5), R234): the loop ends, the transport
is released, the cursor and the accumulator are as after reset. -/
def State.abandon (s : State) : State :=
  { s with
    loop := false, transportOpen := false, mode := .searchingHeader, consumed := 0, acc := [],
    phase := .start, examined := false }

/-- Fault entry (R222). Valid bits stay as they are; only the first code is kept. The buffers are as the pseudocode left
them, and unreadable where their valid bit is 0 (93_implementation_defined.md U18; log entry 7). -/
def State.enterFault (c : FaultCode) (s : State) : State :=
  { s.abandon with fault := if s.fault = .none then c else s.fault, stage := .faulted }

/-- `raise` of a fault (R221, R222): a next state, in stage `FAULTED`. There is no return from it (R239). -/
def raiseFault (c : FaultCode) (s : State) : Result :=
  .next (s.enterFault c)

/-- Cancellation entry (R234): every valid bit but `TRAILING_VALID` is cleared, `STATUS.FAULT` is unchanged.
There is no return from it (R239). That `RAW`, `SAMP`, `SPEC`, `PEAKS` and an invalid `TRAILING` keep their contents,
which nothing can read, is DESIGN CHOICE (93_implementation_defined.md U18), log entry 7. -/
def State.enterCancel (s : State) : State :=
  { s.abandon with
    rawValid := false, sampValid := false, specValid := false, peakValid := false, stage := .stopped }

/-- The reset input (R250, R251): the only way out of `FAULTED` and `STOPPED`. The collaborators are left alone;
the draw counter goes on, so that a value drawn after reset is a fresh one (log entry 10). -/
def State.resetCore (s : State) : State :=
  { State.resetIn s.par s.env with draws := s.draws }

/-- What every acquisition operation does first (R119). -/
def State.clearForAcquire (s : State) : State :=
  { s with
    rawValid := false, sampValid := false, trailingValid := false, specValid := false, peakValid := false,
    nonfinite := false }

/-- `SerFlush()` (R64): the bytes in the serial receive buffer are skipped. -/
def State.serFlush (s : State) : State :=
  { s with env := { s.env with
      serPos := s.env.serPos + min s.env.serBuffered (s.env.serIn.length - s.env.serPos), serBuffered := 0 } }

/-- `SerWrite(bs)` (R65). -/
def State.serWrite (bs : List Byte) (s : State) : State :=
  { s with env := { s.env with serOut := s.env.serOut ++ bs } }

/-- The bytes a `SerRead` that returns `len` bytes returns (R63). -/
def State.serBytes (len : Nat) (s : State) : List Byte :=
  (s.env.serIn.drop s.env.serPos).take len

/-- Whether a `SerRead(n)` may return `len` bytes (R63). -/
def State.serMayReturn (n len : Nat) (s : State) : Bool :=
  decide (len ≤ n) && decide (s.env.serPos + len ≤ s.env.serIn.length)

/-- `ser_pos` moves past the bytes returned (R63, R67). -/
def State.serAdvance (len : Nat) (s : State) : State :=
  { s with env := { s.env with serPos := s.env.serPos + len, serBuffered := s.env.serBuffered - len } }

/-- The next datagram of `dgram_in` (R66). -/
def State.nextDgram (s : State) : Option (List Byte) :=
  s.env.dgramIn[s.env.dgramPos]?

/-- One datagram is consumed (R66, R67). -/
def State.dgramAdvance (s : State) : State :=
  { s with env := { s.env with dgramPos := s.env.dgramPos + 1 } }

/-- `SAMP[k] <- v` for the next `k` (R123, R151). -/
def State.pushSample (v : Sample) (s : State) : State :=
  { s with samp := s.samp ++ [v] }

/-- `RAW <- p; RAW_VALID <- 1`, the cursor back to searching (R130, R134), and the acquisition completes. -/
def State.emitFrame (p : List Byte) (s : State) : State :=
  State.finishStage .decode
    { s with raw := p, rawValid := true, mode := .searchingHeader, consumed := 0 }

/-- The bundle of the hand-off (R206). -/
def State.bundle (s : State) : Bundle :=
  { samples := s.samp.take s.sampLen, bins := s.bin, mags := s.mag, peaks := s.peaks }

/-- `SinkHandoff` returns: the bundle is delivered and the three valid bits are cleared (R206). -/
def State.deliver (s : State) : State :=
  { s with
    sampValid := false, specValid := false, peakValid := false,
    env := { s.env with sink := s.env.sink ++ [s.bundle] } }

/-- A command word that raises `ILLEGAL_CMD` (R102, R229); outside `IDLE` it has no effect (R101). -/
def illegalCommand (s : State) : Result :=
  match s.stage with
  | .idle => raiseFault .illegalCmd s
  | .acquire | .decode | .analyze | .extract | .handoff | .stopped | .faulted => .next s

/-- Acceptance of an acquisition operation of variant `v` in `IDLE`: the two checks of command decode in the
order of R237 (1), after the read of `CFG.VARIANT` that the first one makes (R255). -/
def acceptAcquisition (v : BitVec 2) (s : State) : Result :=
  match s.cfg.variant with
  | none => raiseFault .configRange s
  | some w =>
    if w ≠ v then raiseFault .illegalCmd s
    else if s.transportOpen then .next (s.enterStage .acquire)
    else raiseFault .transportClosed s

/-- `CFG` with one register written (R21). -/
def Cfg.write (c : Cfg) : CfgWrite → Cfg
  | .variant v => { c with variant := some v }
  | .headerMarker b => { c with headerMarker := some b }
  | .count n => { c with count := some n }
  | .sampleRate fs => { c with sampleRate := some fs }
  | .minHeightFraction f => { c with minHeightFraction := some f }
  | .minBinDistance d => { c with minBinDistance := some d }
  | .windowSel w => { c with windowSel := some w }

/-- A host write of `CFG`: in `IDLE` only (R21), and of `VARIANT` only while the transport is not held (R258). -/
def writeCfg (c : CfgWrite) (s : State) : Result :=
  if s.stage ≠ .idle then .refused .cfgWriteOutsideIdle
  else
    match c with
    | .variant _ =>
      if s.transportOpen then .refused .variantWriteWhileOpen else .next { s with cfg := s.cfg.write c }
    | .headerMarker _ | .count _ | .sampleRate _ | .minHeightFraction _ | .minBinDistance _ | .windowSel _ =>
      .next { s with cfg := s.cfg.write c }

end Sys2Proof.Machine
end

