-- ==== Sys2Proof/Machine/Operands.lean ====
section
/-! DEFINITION. Operands: binary32 data and their values, the numeric value of a sample, the Variant A
request string, and the values of CFG fields (30_encoding.md R95, R96; 41_sample_decoder.md R152, R156). -/

namespace Sys2Proof.Machine

/-- Sign bit `u[31]` (R152). -/
def f32Sign (u : Word) : Bool := u.getLsbD 31

/-- Exponent field `u[30:23]` (R152). -/
def f32Exponent (u : Word) : Nat := (u.extractLsb' 23 8).toNat

/-- Fraction field `u[22:0]` (R152). -/
def f32Fraction (u : Word) : Nat := (u.extractLsb' 0 23).toNat

/-- NaN or an infinity: exponent field 255 (R152). -/
def f32NonFinite (u : Word) : Bool := f32Exponent u == 255

/-- NaN: exponent field 255 and a non-zero fraction (R152). -/
def f32IsNaN (u : Word) : Bool := f32NonFinite u && f32Fraction u != 0

/-- The value of a finite binary32 datum in units of `2^-149`, the smallest positive one (R152). -/
def f32Units (u : Word) : Int :=
  let e := f32Exponent u
  let m : Nat := if e = 0 then f32Fraction u else (2 ^ 23 + f32Fraction u) * 2 ^ (e - 1)
  if f32Sign u then -(m : Int) else (m : Int)

/-- Whether `val` is undefined for a sample (R156). -/
def sampleNonFinite : Sample → Bool
  | .f32 u => f32NonFinite u
  | .i32 _ => false

/-- `val(s)` of a sample in units of `2^-149` (R156): exact for both element types. -/
def sampleUnits : Sample → Int
  | .f32 u => f32Units u
  | .i32 v => v * 2 ^ 149

/-- The decimal digits of `n`, most significant first, no leading zero (R95); `fuel` above the number of
digits suffices. -/
def decimalDigits : Nat → Nat → List Nat
  | 0, _ => []
  | fuel + 1, n => if n < 10 then [n] else decimalDigits fuel (n / 10) ++ [n % 10]

/-- `req(C)`: digit `d` is sent as the byte `0x30 + d` (R95). -/
def request (c : Nat) : List Byte :=
  (decimalDigits (c + 1) c).map (fun d => BitVec.ofNat 8 (0x30 + d))

/-- `C`, the value of `CFG.COUNT`. The operations that use it check first that it was written (R230), so the 0
for a field never written is not read (log entry 28). -/
def State.requestedCount (s : State) : Nat :=
  (s.cfg.count.getD 0).toNat

/-- The index of the element read in progress in Variant A: `cur.consumed` counts the response bytes (R25), four
for each element. -/
def State.elementIndex (s : State) : Nat :=
  s.consumed / 4

end Sys2Proof.Machine
end

