-- ==== Sys2Proof/Machine/Acquire.lean ====
section
/-! DEFINITION. The acquisition operations ACQUIRE_A, NEXTFRAME_B and NEXTFRAME_C up to the point where they
block on the transport (40_frame_synchronizer.md). What a transport read then returns is a wire token
(Machine/Tokens.lean). -/

namespace Sys2Proof.Machine

/-- ACQUIRE_A (R120 to R122): accepted in `IDLE`; in stage ACQUIRE first the range check (R121), the clearing
(R119) and `SerFlush`, then `SerWrite`; then it is blocked in `SerRead(4)` and moves by the tokens. -/
def execAcquireA (s : State) : Result :=
  match s.stage with
  | .idle => acceptAcquisition 0 s
  | .acquire =>
    match s.phase with
    | .start =>
      match s.cfg.count with
      | none => raiseFault .configRange s
      | some c =>
        if s.par.sampCap < c.toNat then raiseFault .configRange s
        else .next (State.examine { s.clearForAcquire.serFlush with samp := [], consumed := 0, phase := .write })
    | .write =>
      .next (State.examine { s.serWrite (request s.requestedCount ++ s.par.reqTerminator) with phase := .wait })
    | .wait => .next s
  | .decode | .analyze | .extract | .handoff | .stopped | .faulted => .next s

/-- NEXTFRAME_B (R126): accepted in `IDLE`; in stage ACQUIRE the marker is read from CFG and the valid bits are
cleared (R119); then it is blocked in `SerRead(1)` and moves by the tokens. -/
def execNextframeB (s : State) : Result :=
  match s.stage with
  | .idle => acceptAcquisition 1 s
  | .acquire =>
    match s.phase with
    | .start =>
      match s.cfg.headerMarker with
      | none => raiseFault .configRange s
      | some _ => .next s.clearForAcquire.block
    | .write | .wait => .next s
  | .decode | .analyze | .extract | .handoff | .stopped | .faulted => .next s

/-- NEXTFRAME_C (R132, R135): accepted in `IDLE`; in stage ACQUIRE the valid bits are cleared (R119) and the
accumulator is emptied; then it is blocked in `DgramRecv` and moves by the tokens. -/
def execNextframeC (s : State) : Result :=
  match s.stage with
  | .idle => acceptAcquisition 2 s
  | .acquire =>
    match s.phase with
    | .start => .next (State.block { s.clearForAcquire with acc := [] })
    | .write | .wait => .next s
  | .decode | .analyze | .extract | .handoff | .stopped | .faulted => .next s

end Sys2Proof.Machine
end

