-- ==== Sys2Proof/Machine/Num.lean ====
section
/-! DEFINITION. The `NUM` record (42_spectral_analyzer.md R176): the arithmetic of the analyzer and of the
extractor's threshold, as the exact instance (R166 to R172, R187) or as some implementation's. -/

namespace Sys2Proof

/-- The order of `MagT` (R176). Magnitudes of two instances never meet: a machine has one `NUM`. -/
def Mag.lt : Mag → Mag → Bool
  | .exact m, .exact m' => m.lt m'
  | .impl p, .impl p' => decide (p < p')
  | .exact _, .impl _ | .impl _, .exact _ => false

/-- The zero of the exact instance. -/
def Mag.zero : Mag := .exact (.ofRat 0)

namespace Machine

/-- A window of R167 or R168: `WIN[n] = (a - b * (z^n + z^-n)) / d` for the `(N-1)`-st root of unity `z`,
that is `a/d - (2*b/d) * cos (2*pi*n/(N-1))`. -/
structure Window where
  a : Int
  b : Int
  d : Nat
deriving DecidableEq, Repr

/-- `0.5 - 0.5 * cos (2*pi*n/(N-1))` (R167). -/
def hannWindow : Window := { a := 2, b := 1, d := 4 }

/-- `0.54 - 0.46 * cos (2*pi*n/(N-1))` (R168). -/
def hammingWindow : Window := { a := 54, b := 23, d := 100 }

/-- The ROM page that `CFG.WINDOW_SEL` selects (R21). -/
def windowOf (sel : BitVec 1) : Window :=
  if sel = 0 then hannWindow else hammingWindow

/-- The order of the root of unity that all of one spectrum is written in: a multiple of `N` (the transform)
and of `N - 1` (the window). -/
def spectrumOrder (n : Nat) : Nat := n * (n - 1)

/-- `y[n] * exp (-j*2*pi*k*n/N)` in units of `1/(2^149 * d)` (R166, R170): the sample `x` in units of `2^-149`,
times the three terms of the window, turned by `-k*n/N` of a turn. -/
def sampleTerms (w : Window) (N k n : Nat) (x : Int) : Cyclotomic.Terms :=
  if x = 0 then []
  else
    let L := spectrumOrder N
    let turn := (L - (k * n * (N - 1)) % L) % L
    let u := (n * N) % L
    [(w.a * x, turn), (-(w.b * x), (turn + u) % L), (-(w.b * x), (turn + (L - u)) % L)]

/-- `X[k]` in units of `1/(2^149 * d)` (R170): the sum over the frame, from sample index `n` on. -/
def coefficientTerms (w : Window) (N k : Nat) : Nat → List Int → Cyclotomic.Terms
  | _, [] => []
  | n, x :: xs => sampleTerms w N k n x ++ coefficientTerms w N k (n + 1) xs

/-- `SPEC.MAG[k] = |X[k]|` exactly (R171), held by its square. -/
def exactMagnitude (w : Window) (N : Nat) (frame : List Int) (k : Nat) : ExactMag :=
  { order := spectrumOrder N
    coeffs := Cyclotomic.normSq (spectrumOrder N) (coefficientTerms w N k 0 frame)
    den := (2 ^ 149 * w.d) ^ 2 }

/-- `NUM.spectrum(SAMP, WINDOW_SEL)[k]` (R176). The implementation's is free but for P2: the spectrum of an all-zero
frame is all zero (R180). -/
def spectrumAt (p : Config.Params) (sel : BitVec 1) (frame : List Sample) (k : Nat) : Mag :=
  match p.num with
  | .exact => .exact (exactMagnitude (windowOf sel) p.N (frame.map sampleUnits) k)
  | .implementation => .impl (if frame.all (fun x => sampleUnits x == 0) then 0 else Config.implSpectrum frame sel k)

/-- `NUM.spectrum` (R176): one magnitude for each bin. -/
def spectrum (p : Config.Params) (sel : BitVec 1) (frame : List Sample) : List Mag :=
  (List.range (p.K + 1)).map (spectrumAt p sel frame)

/-- `NUM.bin(k, fs)` (R172, R176). -/
def binCentre (p : Config.Params) (fs : Rat) (k : Nat) : Freq :=
  match p.num with
  | .exact => .exact ((k : Rat) * fs / (p.N : Rat))
  | .implementation => .impl (Config.implBin p.N k fs)

/-- Whether `m >= val(frac) * mx` for exact magnitudes (R187): for every `m` when `val(frac) <= 0`, else by squares
(R179). -/
def exactReaches (frac : Word) (mx m : ExactMag) : Bool :=
  if f32Units frac ≤ 0 then true
  else decide (0 ≤ ExactMag.compareScaled (2 ^ 298) m ((f32Units frac).natAbs ^ 2) mx)

/-- The place of `NUM.threshold(frac, mx)` of an implementation, free but for P3: `NUM.threshold(frac, 0) = 0` (R176). -/
def implThresholdPlace (frac : Word) (mx : Rat) : Rat :=
  if mx = 0 then 0 else Config.implThreshold frac mx

/-- Whether `m >= NUM.threshold(frac, mx)` (R187), for magnitudes of one instance. -/
def reachesThreshold (frac : Word) : Mag → Mag → Bool
  | .exact mx, .exact m => exactReaches frac mx m
  | .impl mx, .impl m => decide (implThresholdPlace frac mx ≤ m)
  | .exact _, .impl _ | .impl _, .exact _ => false

end Machine

end Sys2Proof
end

