-- ==== Sys2Proof/Machine/Analyzer.lean ====
section
/-! DEFINITION. ANALYZE (42_spectral_analyzer.md R165). -/

namespace Sys2Proof.Machine

/-- The `i`-th `draw(non-negative magnitude)` (R175), an element of the `MagT` of the machine's `NUM`. -/
def drawnMagnitude (p : Config.Params) (i : Nat) : Mag :=
  match p.num with
  | .exact => .exact (.ofRat (Config.drawMagnitude i))
  | .implementation => .impl (Config.drawMagnitude i)

/-- The magnitudes of a frame with NaN or infinite samples: one draw for each bin (R175). -/
def drawnSpectrum (s : State) : List Mag :=
  (List.range (s.par.K + 1)).map (fun k => drawnMagnitude s.par (s.draws + k))

/-- The four checks of ANALYZE in the order of its pseudocode (R165, R174, R168); a field never written is reported
where it is read (R230). -/
def analyzeCheck (s : State) : Option FaultCode :=
  if s.sampValid = false then some .bufferNotValid
  else if s.sampLen ≠ s.par.N then some .lengthMismatch
  else
    match s.cfg.sampleRate, s.cfg.windowSel with
    | some fs, some w =>
      if ¬ 0 < fs then some .configRange
      else if w = 1 ∧ s.par.hammingPresent = false then some .configRange
      else none
    | _, _ => some .configRange

/-- The spectrum that ANALYZE writes (R165 to R172, R175), for sample rate `fs` and ROM page `w`. -/
def analyzed (fs : Rat) (w : BitVec 1) (s : State) : State :=
  let frame := s.samp.take s.par.N
  let bad := frame.any sampleNonFinite
  { s with
    mag := if bad then drawnSpectrum s else spectrum s.par w frame
    bin := (List.range (s.par.K + 1)).map (binCentre s.par fs)
    nonfinite := bad
    draws := if bad then s.draws + (s.par.K + 1) else s.draws
    specValid := true }

/-- ANALYZE: accepted in `IDLE`; in its stage the whole spectrum in one transition. -/
def execAnalyze (s : State) : Result :=
  match s.stage with
  | .idle => .next (s.enterStage .analyze)
  | .analyze =>
    match analyzeCheck s, s.cfg.sampleRate, s.cfg.windowSel with
    | none, some fs, some w => .next ((analyzed fs w s).finishStage .extract)
    | some c, _, _ => raiseFault c s
    | none, _, _ => raiseFault .configRange s
  | .acquire | .decode | .extract | .handoff | .stopped | .faulted => .next s

end Sys2Proof.Machine
end

