-- ==== Sys2Proof/Machine/Control.lean ====
section
/-! DEFINITION. NOP, OPEN, CLOSE, HANDOFF, RUN and the reserved command words (44_pipeline_control.md;
30_encoding.md R102). A command is accepted in `IDLE`; in any other stage it has no effect (R101), except
that an operation with a stage of its own does its work there (R203, R212). -/

namespace Sys2Proof.Machine

/-- NOP (R213). -/
def execNop (s : State) : Result := .next s

/-- OPEN (R201), its checks in the order of its pseudocode (log entry 14). -/
def execOpen (s : State) : Result :=
  match s.stage with
  | .idle =>
    match s.cfg.variant with
    | none => raiseFault .configRange s
    | some v =>
      if v = 3 then raiseFault .configRange s
      else if s.transportOpen then raiseFault .illegalCmd s
      else if s.env.canOpen then .next { s with transportOpen := true }
      else raiseFault .transportUnavailable s
  | .acquire | .decode | .analyze | .extract | .handoff | .stopped | .faulted => .next s

/-- CLOSE (R202). -/
def execClose (s : State) : Result :=
  match s.stage with
  | .idle => .next { s with transportOpen := false }
  | .acquire | .decode | .analyze | .extract | .handoff | .stopped | .faulted => .next s

/-- HANDOFF (R206): accepted in `IDLE`; in its stage it checks the three buffers and blocks in `SinkHandoff`;
once the sink returns it delivers the bundle and clears the valid bits. -/
def execHandoff (s : State) : Result :=
  match s.stage with
  | .idle => .next (s.enterStage .handoff)
  | .handoff =>
    match s.phase with
    | .start =>
      if s.sampValid && s.specValid && s.peakValid then .next s.block
      else raiseFault .bufferNotValid s
    | .wait => .next (s.deliver.finishStage .acquire)
    | .write => .next s
  | .acquire | .decode | .analyze | .extract | .stopped | .faulted => .next s

/-- The configuration check of RUN (R208), in the order of R208 and of R255 for the fields that need only have been
written (log entry 12): the first fault, if any. -/
def runCheck (s : State) : Option FaultCode :=
  match s.cfg.variant, s.cfg.windowSel, s.cfg.sampleRate, s.cfg.minHeightFraction, s.cfg.minBinDistance with
  | some v, some w, some fs, some f, some _ =>
    if v = 3 then some .configRange
    else if w = 1 ∧ s.par.hammingPresent = false then some .configRange
    else if ¬ 0 < fs then some .configRange
    else if f32NonFinite f then some .configRange
    else if v = 0 then
      match s.cfg.count with
      | none => some .configRange
      | some c =>
        if s.par.sampCap < c.toNat then some .configRange
        else if c.toNat ≠ s.par.N then some .lengthMismatch
        else none
    else if v = 1 ∧ s.cfg.headerMarker = none then some .configRange
    else none
  | _, _, _, _, _ => some .configRange

/-- RUN (R207): the configuration check, then the transport check (R237 (1)), then the loop starts. -/
def execRun (s : State) : Result :=
  match s.stage with
  | .idle =>
    match runCheck s with
    | some c => raiseFault c s
    | none =>
      if s.transportOpen then .next (State.enterStage .acquire { s with loop := true })
      else raiseFault .transportClosed s
  | .acquire | .decode | .analyze | .extract | .handoff | .stopped | .faulted => .next s

/-- Command word 0x0B (R102). -/
def execReservedB (s : State) : Result := illegalCommand s

/-- Command word 0x0C (R102). -/
def execReservedC (s : State) : Result := illegalCommand s

/-- Command word 0x0D (R102). -/
def execReservedD (s : State) : Result := illegalCommand s

/-- Command word 0x0E (R102). -/
def execReservedE (s : State) : Result := illegalCommand s

/-- Command word 0x0F (R102). -/
def execReservedF (s : State) : Result := illegalCommand s

end Sys2Proof.Machine
end

