-- ==== Sys2Proof/Machine/Extractor.lean ====
section
/-! DEFINITION. EXTRACT (43_peak_extractor.md R185). The selection works on bin indices and an order `lt` of
the magnitudes `m`. -/

namespace Sys2Proof.Machine

/-- `m[i]`; no rule reads an index outside the spectrum (R73). -/
def magAt (m : List Mag) (i : Nat) : Mag :=
  m.getD i Mag.zero

/-- Bin `i` strictly exceeds both neighbours (R186). -/
def isCandidate (m : List Mag) (i : Nat) : Bool :=
  (magAt m (i - 1)).lt (magAt m i) && (magAt m (i + 1)).lt (magAt m i)

/-- The candidates among the interior bins `1 .. K-1`, ascending (R186, R190). -/
def candidates (m : List Mag) (K : Nat) : List Nat :=
  ((List.range K).filter (fun i => 1 ≤ i)).filter (isCandidate m)

/-- The largest of a list of magnitudes (R187: over all bins, edge bins included). -/
def maxMag : List Mag → Mag
  | [] => Mag.zero
  | [a] => a
  | a :: b :: rest =>
    let c := maxMag (b :: rest)
    if a.lt c then c else a

/-- The candidates that reach the threshold (R187). -/
def qualifying (p : Config.Params) (frac : Word) (m : List Mag) : List Nat :=
  (candidates m p.K).filter (fun i => reachesThreshold frac (maxMag (m.take (p.K + 1))) (magAt m i))

/-- Insertion into the visiting order of R188: larger magnitude first, and among equal ones the lower index first
(`i` is lower than every index already in the list). -/
def insertByRank (m : List Mag) (i : Nat) : List Nat → List Nat
  | [] => [i]
  | j :: rest => if (magAt m i).lt (magAt m j) then j :: insertByRank m i rest else i :: j :: rest

/-- The visiting order of R188. -/
def rankOrder (m : List Mag) (is : List Nat) : List Nat :=
  is.foldr (insertByRank m) []

/-- Whether `i` is at least `d` bins from `j`. -/
def apart (d i j : Nat) : Bool :=
  decide (d ≤ i - j ∨ d ≤ j - i)

/-- The greedy rule of R188: visit in order, keep what is at least `d` from all kept so far. -/
def greedy (d : Nat) : List Nat → List Nat → List Nat
  | keep, [] => keep
  | keep, i :: rest => greedy d (if keep.all (apart d i) then keep ++ [i] else keep) rest

/-- Insertion into an ascending list. -/
def insertAscending (i : Nat) : List Nat → List Nat
  | [] => [i]
  | j :: rest => if i ≤ j then i :: j :: rest else j :: insertAscending i rest

/-- The survivors, ascending (R188, R189). -/
def survivors (p : Config.Params) (frac : Word) (d : Nat) (m : List Mag) : List Nat :=
  (greedy d [] (rankOrder m (qualifying p frac m))).foldr insertAscending []

/-- The peak at bin `i`: centre and magnitude copied unchanged (R189). -/
def peakAt (m : List Mag) (bin : List Freq) (i : Nat) : Peak :=
  { idx := i, freq := bin.getD i (.exact 0), mag := magAt m i }

/-- The peak list that EXTRACT writes (R185, R189). -/
def extracted (frac : Word) (d : Nat) (s : State) : State :=
  let surv := survivors s.par frac d s.mag
  { s with peaks := surv.map (peakAt s.mag s.bin), peakCount := surv.length, peakValid := true }

/-- EXTRACT: accepted in `IDLE`; in its stage the checks of R185, then the whole list in one transition. -/
def execExtract (s : State) : Result :=
  match s.stage with
  | .idle => .next (s.enterStage .extract)
  | .extract =>
    if s.specValid then
      match s.cfg.minHeightFraction, s.cfg.minBinDistance with
      | some f, some d =>
        if f32NonFinite f then raiseFault .configRange s
        else .next ((extracted f d.toNat s).finishStage .handoff)
      | _, _ => raiseFault .configRange s
    else raiseFault .bufferNotValid s
  | .acquire | .decode | .analyze | .handoff | .stopped | .faulted => .next s

end Sys2Proof.Machine
end

