-- ==== Sys2Proof/Machine/Decoder.lean ====
section
/-! DEFINITION. The sample decoder: DECODE_F32, the elements it is made of, and DEC_I32
(41_sample_decoder.md). -/

namespace Sys2Proof.Machine

/-- One `F32LE` element: its 32 bits become the next sample, unchanged (R152, R153). -/
def putF32 (u : Word) (s : State) : State :=
  s.pushSample (.f32 u)

/-- One `I32LE` element: `sext_32` of it becomes the next sample (R155). -/
def putI32 (u : Word) (s : State) : State :=
  s.pushSample (.i32 (sext32 u))

/-- DEC_I32 of the element read in progress, stored where ACQUIRE_A stores it: sample `k` for `k < C`, the
elapsed-time word for `k = C` (R120, R123, R125). -/
def deliverI32 (u : Word) (s : State) : State :=
  if s.elementIndex < s.requestedCount then putI32 u s
  else { s with trailing := sext32 u }

/-- ELEM_F32 (R152): one sample of a Variant B or C payload. -/
def execElemF32 (u : Word) (s : State) : Result := .next (putF32 u s)

/-- ELEM_I32 (R155): one sample of a Variant A response. -/
def execElemI32 (u : Word) (s : State) : Result := .next (putI32 u s)

/-- DEC_I32 (R155), the micro-operation ACQUIRE_A applies to each 4-byte read. -/
def execDecI32 (u : Word) (s : State) : Result := .next (deliverI32 u s)

/-- The frame that `RAW` decodes to: one ELEM_F32 after another (R151). -/
def decodeFrame (s : State) : State :=
  (elementWords (s.raw.take s.par.frameBytes)).foldl (fun t u => putF32 u t) { s with samp := [] }

/-- DECODE_F32 (R151): in `IDLE` the variant check of command decode (R102) and acceptance; in its stage the
whole frame in one transition. -/
def execDecodeF32 (s : State) : Result :=
  match s.stage with
  | .idle =>
    match s.cfg.variant with
    | none => raiseFault .configRange s
    | some v => if v = 1 ∨ v = 2 then .next (s.enterStage .decode) else raiseFault .illegalCmd s
  | .decode =>
    if s.rawValid then
      .next (State.finishStage .analyze
        { decodeFrame s with sampLen := s.par.N, sampValid := true, rawValid := false })
    else raiseFault .bufferNotValid s
  | .acquire | .analyze | .extract | .handoff | .stopped | .faulted => .next s

end Sys2Proof.Machine
end

