-- ==== Sys2Proof/Machine/Tokens.lean ====
section
/-! DEFINITION. The wire tokens: what each answer of a transport read does (30_encoding.md R97;
40_frame_synchronizer.md R123 to R134). The decoder recognises a token only in its context, so the meanings
do not look at stage and variant again. Each ends at an examination point (R233 (c)). -/

namespace Sys2Proof.Machine

/-- B_MARKER (R128): the byte is stored nowhere; the payload read follows. -/
def execBMarker (_b : Byte) (s : State) : Result :=
  .next (State.examine { s with mode := .collectingPayload })

/-- B_NOISE (R129): the byte is discarded and leaves no trace. -/
def execBNoise (_b : Byte) (s : State) : Result :=
  .next s.examine

/-- B_EMPTY (R129): nothing was received, the search goes on. -/
def execBEmpty (s : State) : Result :=
  .next s.examine

/-- B_PAYLOAD (R130): the frame is emitted. -/
def execBPayload (p : List Byte) (s : State) : Result :=
  .next (s.emitFrame p)

/-- B_SHORT (R131): all bytes are lost, the search resumes, nothing is recorded. -/
def execBShort (_p : List Byte) (s : State) : Result :=
  .next (State.examine { s with mode := .searchingHeader, consumed := 0 })

/-- C_DGRAM (R132 to R134): appended whole; at `FrameByteSize` bytes or more the frame is emitted and the excess
dropped. -/
def execCDgram (d : List Byte) (s : State) : Result :=
  let acc := s.acc ++ d
  if acc.length < s.par.frameBytes then
    .next (State.examine { s with acc := acc, consumed := min acc.length s.par.frameBytes })
  else .next (State.emitFrame (acc.take s.par.frameBytes) { s with acc := [] })

/-- A_ELEM (R123, R125): DEC_I32 of the element; after the trailing read the acquisition completes. -/
def execAElem (u : Word) (s : State) : Result :=
  let t := deliverI32 u s
  if s.elementIndex < s.requestedCount then
    .next (State.examine { t with consumed := s.consumed + 4 })
  else
    .next (State.finishStage .analyze
      { t with sampLen := s.requestedCount, sampValid := true, trailingValid := true, consumed := 0 })

/-- A_SHORT (R124 (b)): the bytes are discarded and `INSUFFICIENT_DATA` is raised. -/
def execAShort (_bs : List Byte) (s : State) : Result :=
  raiseFault .insufficientData s

end Sys2Proof.Machine
end

