-- ==== Sys2Proof/Machine/Dispatch.lean ====
section
/-! DEFINITION. One arm per constructor of Instr: the meaning of each row of spec/opcode_table.json. -/

namespace Sys2Proof.Machine

def exec (i : Instr) (s : State) : Host.Outcome State Fault Refusal :=
  match i with
  | .nop => Sys2Proof.Machine.execNop s
  | .openTransport => Sys2Proof.Machine.execOpen s
  | .closeTransport => Sys2Proof.Machine.execClose s
  | .acquireA => Sys2Proof.Machine.execAcquireA s
  | .nextframeB => Sys2Proof.Machine.execNextframeB s
  | .nextframeC => Sys2Proof.Machine.execNextframeC s
  | .decodeF32 => Sys2Proof.Machine.execDecodeF32 s
  | .analyze => Sys2Proof.Machine.execAnalyze s
  | .extract => Sys2Proof.Machine.execExtract s
  | .handoff => Sys2Proof.Machine.execHandoff s
  | .run => Sys2Proof.Machine.execRun s
  | .reservedB => Sys2Proof.Machine.execReservedB s
  | .reservedC => Sys2Proof.Machine.execReservedC s
  | .reservedD => Sys2Proof.Machine.execReservedD s
  | .reservedE => Sys2Proof.Machine.execReservedE s
  | .reservedF => Sys2Proof.Machine.execReservedF s
  | .decI32 u => Sys2Proof.Machine.execDecI32 u s
  | .bMarker b => Sys2Proof.Machine.execBMarker b s
  | .bNoise b => Sys2Proof.Machine.execBNoise b s
  | .bEmpty => Sys2Proof.Machine.execBEmpty s
  | .bPayload p => Sys2Proof.Machine.execBPayload p s
  | .bShort p => Sys2Proof.Machine.execBShort p s
  | .cDgram d => Sys2Proof.Machine.execCDgram d s
  | .aElem u => Sys2Proof.Machine.execAElem u s
  | .aShort bs => Sys2Proof.Machine.execAShort bs s
  | .elemF32 u => Sys2Proof.Machine.execElemF32 u s
  | .elemI32 u => Sys2Proof.Machine.execElemI32 u s

end Sys2Proof.Machine
end

