-- ==== Sys2Proof/Machine/Schedule.lean ====
section
/-! DEFINITION. Fetching: which instruction the machine runs next, and what each agent's move does
(44_pipeline_control.md R200, R207, R212; 60_exceptions.md R232 to R237; 20_memory.md R63, R66, R81). -/

namespace Sys2Proof.Machine

/-- Whether the core is at an examination point with an interrupt latched (R233, R234): at once in `IDLE`, and in a
stage where the point was met with the interrupt already latched. `STOPPED` and `FAULTED` take nothing (R239). -/
def cancelDue (s : State) : Bool :=
  s.cancelPending &&
    match s.stage with
    | .idle => true
    | .acquire | .decode | .analyze | .extract | .handoff => !s.examined
    | .stopped | .faulted => false

/-- Whether the core is blocked in a transport primitive (R81 (1)). -/
def blockedOnTransport (s : State) : Bool :=
  decide (s.stage = .acquire ∧ s.phase = .wait)

/-- Whether the core is blocked in `SinkHandoff` (R81 (2)). -/
def blockedOnSink (s : State) : Bool :=
  decide (s.stage = .handoff ∧ s.phase = .wait)

/-- The acquisition operation of stage ACQUIRE, by `CFG.VARIANT` (R104, R207). -/
def acquisition (s : State) : Result :=
  match s.cfg.variant with
  | some 0 => exec .acquireA s
  | some 1 => exec .nextframeB s
  | some 2 => exec .nextframeC s
  | _ => raiseFault .configRange s

/-- While blocked: a latched interrupt is taken (R233 (b)), else all state survives the wait unchanged (R246). -/
def waitMove (s : State) : Result :=
  if s.cancelPending then .next s.enterCancel else .next s

/-- The core's own move: the operation of its stage (R207, R212), or a wait. -/
def coreMove (s : State) : Result :=
  match s.stage with
  | .idle | .stopped | .faulted => .next s
  | .acquire => if blockedOnTransport s then waitMove s else acquisition s
  | .decode => exec .decodeF32 s
  | .analyze => exec .analyze s
  | .extract => exec .extract s
  | .handoff => if blockedOnSink s then waitMove s else exec .handoff s

/-- A command word at the port (R100 to R102): accepted in `IDLE` only, in any other stage without effect. -/
def commandMove (w : Byte) (s : State) : Result :=
  match s.stage with
  | .idle =>
    match decode s.par .command [w] with
    | some i => exec i s
    | none => illegalCommand s
  | .acquire | .decode | .analyze | .extract | .handoff | .stopped | .faulted => .next s

/-- What the `SerRead` in progress reads, as context and requested size (R68): none when the core is not blocked
in a `SerRead`. -/
def serialRequest (s : State) : Option (Context × Nat) :=
  if blockedOnTransport s then
    match s.cfg.variant, s.mode, s.cfg.headerMarker with
    | some 0, _, _ => some (.response, 4)
    | some 1, .searchingHeader, some m => some (.searching m, 1)
    | some 1, .collectingPayload, _ => some (.collecting, s.par.frameBytes)
    | _, _, _ => none
  else none

/-- The oracle answers the `SerRead` in progress with `len` bytes (R63): the bytes are consumed and the token they
make is executed. Without such a read the oracle has no such move (R200). -/
def serialMove (len : Nat) (s : State) : Result :=
  match serialRequest s with
  | none => .next s
  | some (c, n) =>
    if s.serMayReturn n len then
      match decode s.par c (s.serBytes len) with
      | some i => exec i (s.serAdvance len)
      | none => .next (s.serAdvance len)
    else .fault .oracleContract

/-- The oracle answers the `DgramRecv` in progress with the next datagram (R66), if there is one. -/
def dgramMove (s : State) : Result :=
  if blockedOnTransport s ∧ s.cfg.variant = some 2 then
    match s.nextDgram with
    | none => .next s
    | some d =>
      match decode s.par .datagram d with
      | some i => exec i s.dgramAdvance
      | none => .fault .oracleContract
  else .next s

/-- The sink returns from the `SinkHandoff` in progress (R206). -/
def sinkMove (s : State) : Result :=
  if blockedOnSink s then exec .handoff s else .next s

/-- One agent's move (R200, R259). -/
def agentMove (m : Move) (s : State) : Result :=
  match m with
  | .core => coreMove s
  | .command w => commandMove w s
  | .writeCfg c => writeCfg c s
  | .interrupt => .next { s with cancelPending := true }
  | .reset => .next s.resetCore
  | .serialReturns len => serialMove len s
  | .dgramReturns => dgramMove s
  | .sinkReturns => sinkMove s
  | .serialDelivers bs => .next { s with env := { s.env with serIn := s.env.serIn ++ bs } }
  | .serialBuffers k => .next { s with env := { s.env with serBuffered := s.env.serBuffered + k } }
  | .dgramArrives d => .next { s with env := { s.env with dgramIn := s.env.dgramIn ++ [d] } }
  | .portAvailable ok => .next { s with env := { s.env with canOpen := ok } }

/-- The script without its first move. -/
def State.popMove (s : State) : State :=
  { s with env := { s.env with script := s.env.script.tail } }

/-- One step of the whole: reset wins over everything (R250, R252); a cancellation that is due is taken before
anyone else moves (R233, R234); otherwise the agent named first in the script moves, and the core when none is. -/
def advance (s : State) : Result :=
  match s.env.script with
  | .reset :: _ => agentMove .reset s.popMove
  | moves =>
    if cancelDue s then .next s.enterCancel
    else
      match moves with
      | [] => coreMove s
      | m :: _ => agentMove m s.popMove

/-- The core as it must stand for its very next step to take a command word: idle, no interrupt latched. -/
def readyForCommand (s : State) : State :=
  { s with stage := .idle, phase := .start, loop := false, cancelPending := false }

/-- The core as it must stand for its very next step to take a 4-byte element: blocked in the `SerRead(4)` of a
Variant A acquisition. -/
def readyForElement (s : State) : State :=
  { s with
    stage := .acquire, phase := .wait, cancelPending := false, examined := true,
    cfg := { s.cfg with variant := some 0, count := some (s.cfg.count.getD 1) } }

/-- `m` placed as the very next move. -/
def State.pushMove (m : Move) (s : State) : State :=
  { s with env := { s.env with script := m :: s.env.script } }

/-- The bytes `bs` placed as the very next of `ser_in`. -/
def State.placeSerial (bs : List Byte) (s : State) : State :=
  { s with env := { s.env with serIn := s.env.serIn.take s.env.serPos ++ bs ++ s.env.serIn.drop s.env.serPos,
                               serPos := min s.env.serPos s.env.serIn.length } }

/-- An instruction of the table placed where the next step fetches it (log entry 23). -/
def placeWord (nbits w : Nat) (s : State) : State :=
  if nbits = 32 then
    ((readyForElement s).placeSerial (tableBytes nbits w)).pushMove (.serialReturns 4)
  else (readyForCommand s).pushMove (.command (BitVec.ofNat 8 w))

end Sys2Proof.Machine
end

