-- ==== Sys2Proof/Machine/Step.lean ====
section
/-! DEFINITION. One step of the machine, and how the host places an instruction for it (log entry 23). -/

namespace Sys2Proof.Machine

/-- One transition: of the core, or of an agent outside it (R200). -/
def step (s : State) : Host.Outcome State Fault Refusal :=
  advance s

/-- `s` with the instruction whose bits are `w` placed where the next step fetches it. -/
def State.withFetchWord (s : State) (nbits w : Nat) : State :=
  placeWord nbits w s

end Sys2Proof.Machine
end

