-- ==== Sys2Proof/Machine/Flags.lean ====
section
/-! DEFINITION. The status fields, their codes, and what the host can read (10_state.md R35, R39;
60_exceptions.md R223; 70_reset_and_hazards.md R269). -/

namespace Sys2Proof.Machine

/-- The codes of `STATUS.FAULT` (R223). -/
def FaultCode.code : FaultCode → BitVec 4
  | .none => 0
  | .transportUnavailable => 1
  | .insufficientData => 2
  | .lengthMismatch => 3
  | .bufferNotValid => 4
  | .illegalCmd => 5
  | .configRange => 6
  | .transportClosed => 7

/-- The codes of `STATUS.STAGE` (R35). -/
def Stage.code : Stage → BitVec 3
  | .idle => 0
  | .acquire => 1
  | .decode => 2
  | .analyze => 3
  | .extract => 4
  | .handoff => 5
  | .stopped => 6
  | .faulted => 7

/-- The status fields of R35. -/
structure Status where
  stage : BitVec 3
  loop : Bool
  transportOpen : Bool
  fault : BitVec 4
  nonfinite : Bool
  cancelPending : Bool
  rawValid : Bool
  sampValid : Bool
  trailingValid : Bool
  specValid : Bool
  peakValid : Bool
deriving DecidableEq, Repr

/-- `STATUS` as the host reads it, at any time (R35). -/
def State.status (s : State) : Status :=
  { stage := s.stage.code, loop := s.loop, transportOpen := s.transportOpen, fault := s.fault.code,
    nonfinite := s.nonfinite, cancelPending := s.cancelPending, rawValid := s.rawValid,
    sampValid := s.sampValid, trailingValid := s.trailingValid, specValid := s.specValid,
    peakValid := s.peakValid }

/-- `SAMP`, `SPEC` and `PEAKS` as the host reads them: a value only in `IDLE` and while the valid bit is 1 (R39, R269). -/
def State.hostReads {α : Type} (s : State) (valid : Bool) (contents : α) : Option α :=
  if s.stage = .idle ∧ valid = true then some contents else none

def State.readSamp (s : State) : Option (List Sample) := s.hostReads s.sampValid (s.samp.take s.sampLen)

/-- `TRAILING` as the host reads it: a register (R206), with a value whenever its valid bit is 1 (R39), in a RUN loop and
after a stop too (R29; 90_conflicts.md C9; log entry 38). -/
def State.readTrailing (s : State) : Option Int :=
  if s.trailingValid then some s.trailing else none

def State.readMag (s : State) : Option (List Mag) := s.hostReads s.specValid s.mag
def State.readBin (s : State) : Option (List Freq) := s.hostReads s.specValid s.bin
def State.readPeaks (s : State) : Option (List Peak) := s.hostReads s.peakValid s.peaks

end Sys2Proof.Machine
end

