-- ==== Sys2Proof/Safety.lean ====
section
/-! DEFINITION. The terms of the claims: the reference semantics of the analyzer over the real numbers
(42_spectral_analyzer.md R166 to R172), the real number a magnitude stands for, and the invariants of the
machine. Nothing here is run by the machine. -/

namespace Sys2Proof

/-- The real number `sum of cs[j] * cos (2*pi*(i+j)/L)`. -/
noncomputable def Cyclotomic.value (L : Nat) : Nat → List Int → ℝ
  | _, [] => 0
  | i, c :: cs => (c : ℝ) * Real.cos (2 * Real.pi * (i : ℝ) / (L : ℝ)) + Cyclotomic.value L (i + 1) cs

/-- The real number that an exact magnitude is (R176). -/
noncomputable def ExactMag.toReal (m : ExactMag) : ℝ :=
  Real.sqrt (Cyclotomic.value m.order 0 m.coeffs / (m.den : ℝ))

/-- The exact magnitudes the analyzer stores: an even positive order, a coefficient for each power, a positive
denominator. -/
def ExactMag.wf (m : ExactMag) : Bool :=
  decide (0 < m.order) && decide (m.order % 2 = 0) && decide (m.coeffs.length = m.order) && decide (0 < m.den)

/-- Well formed, and the square it stands for is not negative (R33, R171). -/
def ExactMag.Legal (m : ExactMag) : Prop :=
  m.wf = true ∧ 0 ≤ Cyclotomic.value m.order 0 m.coeffs

open Classical in
/-- `toReal` of an implementation's `MagT`, by places: any map that is order-preserving, non-negative and 0 at the zero
of `MagT` (R176). -/
noncomputable def Mag.implToReal : Rat → ℝ :=
  if Monotone Config.implReal ∧ (∀ p, 0 ≤ Config.implReal p) ∧ Config.implReal 0 = 0 then Config.implReal else fun _ => 0

/-- `toReal` of a magnitude (R176). -/
noncomputable def Mag.toReal : Mag → ℝ
  | .exact m => m.toReal
  | .impl p => Mag.implToReal p

/-- Where a magnitude stands in the order of its `MagT`, as a real number: for an exact one the number itself. -/
noncomputable def Mag.place : Mag → ℝ
  | .exact m => m.toReal
  | .impl p => (p : ℝ)

/-- An element of the `MagT` of the instance `n`. -/
def Mag.Legal (m : Mag) (n : Config.NumInstance) : Prop :=
  match n, m with
  | .exact, .exact e => e.Legal
  | .implementation, .impl _ => True
  | .exact, .impl _ | .implementation, .exact _ => False

namespace Reference

/-- `val` of a finite binary32 datum (R152). -/
noncomputable def f32Value (u : Word) : ℝ :=
  let s : ℝ := if Machine.f32Sign u then -1 else 1
  let e := Machine.f32Exponent u
  let f : ℝ := (Machine.f32Fraction u : ℝ) / 2 ^ 23
  if e = 0 then s * (2 : ℝ) ^ (-126 : ℤ) * f else s * (2 : ℝ) ^ ((e : ℤ) - 127) * (1 + f)

/-- `val` of a sample (R156). -/
noncomputable def sampleValue : Sample → ℝ
  | .f32 u => f32Value u
  | .i32 v => (v : ℝ)

/-- `WIN[n]` of the Hann page (R167). -/
noncomputable def hann (N n : Nat) : ℝ :=
  0.5 - 0.5 * Real.cos (2 * Real.pi * (n : ℝ) / ((N : ℝ) - 1))

/-- `WIN[n]` of the Hamming page (R168). -/
noncomputable def hamming (N n : Nat) : ℝ :=
  0.54 - 0.46 * Real.cos (2 * Real.pi * (n : ℝ) / ((N : ℝ) - 1))

/-- `WIN[n]` of the page that `CFG.WINDOW_SEL` selects (R21, R32). -/
noncomputable def win (sel : BitVec 1) (N n : Nat) : ℝ :=
  if sel = 0 then hann N n else hamming N n

/-- `y[n]` (R166). -/
noncomputable def windowed (sel : BitVec 1) (N : Nat) (x : List Sample) (n : Nat) : ℝ :=
  sampleValue (x.getD n (.i32 0)) * win sel N n

/-- `Re X[k]` (R170). -/
noncomputable def rePart (sel : BitVec 1) (N : Nat) (x : List Sample) (k : Nat) : ℝ :=
  ∑ n ∈ Finset.range N, windowed sel N x n * Real.cos (2 * Real.pi * k * n / N)

/-- `Im X[k]` (R170). -/
noncomputable def imPart (sel : BitVec 1) (N : Nat) (x : List Sample) (k : Nat) : ℝ :=
  -∑ n ∈ Finset.range N, windowed sel N x n * Real.sin (2 * Real.pi * k * n / N)

/-- `SPEC.MAG[k]` in the reference semantics (R171). -/
noncomputable def magnitude (sel : BitVec 1) (N : Nat) (x : List Sample) (k : Nat) : ℝ :=
  Real.sqrt (rePart sel N x k ^ 2 + imPart sel N x k ^ 2)

end Reference

namespace Machine

/-- `cur.mode = SEARCHING_HEADER`, `cur.consumed = 0`, `acc = []`. -/
def CursorAtRest (s : State) : Prop :=
  s.mode = .searchingHeader ∧ s.consumed = 0 ∧ s.acc = []

/-- The variant of the running machine: written and not the reserved code. -/
def VariantLegal (s : State) : Prop :=
  s.cfg.variant = some 0 ∨ s.cfg.variant = some 1 ∨ s.cfg.variant = some 2

/-- Stage, loop bit, transport and fault code fit together (R30, R31, R38, R211, R222, R234, R258). -/
structure ControlInv (s : State) : Prop where
  terminal : s.stage = .stopped ∨ s.stage = .faulted → s.loop = false ∧ s.transportOpen = false
  faulted : s.fault ≠ .none ↔ s.stage = .faulted
  looping : s.loop = true → s.transportOpen = true ∧ s.stage ≠ .idle
  acquiring : s.stage = .acquire → s.transportOpen = true
  held : s.transportOpen = true → VariantLegal s
  decoding : s.stage = .decode → s.cfg.variant = some 1 ∨ s.cfg.variant = some 2
  phases : s.phase ≠ .start → s.stage = .acquire ∨ s.stage = .handoff
  handingOff : s.stage = .handoff → s.phase = .start ∨ s.phase = .wait
  preamble : s.phase = .write → s.stage = .acquire ∧ s.cfg.variant = some 0

/-- The cursor and the accumulator belong to the acquisition that is blocked on its transport (R24 to R26, R127, R135). -/
structure CursorInv (s : State) : Prop where
  rests : ¬(s.stage = .acquire ∧ s.phase = .wait) → CursorAtRest s
  variantA : s.stage = .acquire → s.phase = .wait → s.cfg.variant = some 0 →
    s.mode = .searchingHeader ∧ s.acc = [] ∧ s.consumed = 4 * s.samp.length ∧
      ∃ c, s.cfg.count = some c ∧ s.samp.length ≤ c.toNat ∧ c.toNat ≤ s.par.sampCap
  variantB : s.stage = .acquire → s.phase = .wait → s.cfg.variant = some 1 →
    s.consumed = 0 ∧ s.acc = [] ∧ s.cfg.headerMarker ≠ none
  variantC : s.stage = .acquire → s.phase = .wait → s.cfg.variant = some 2 →
    s.mode = .searchingHeader ∧ s.acc.length < s.par.frameBytes ∧ s.consumed = s.acc.length
  preambleA : s.stage = .acquire → s.phase = .write →
    s.samp = [] ∧ ∃ c, s.cfg.count = some c ∧ c.toNat ≤ s.par.sampCap

/-- A sample that is an integer is a signed 32-bit integer (R28). -/
def sampleInRange : Sample → Prop
  | .f32 _ => True
  | .i32 v => -2 ^ 31 ≤ v ∧ v < 2 ^ 31

/-- A buffer whose valid bit is 1 holds what R27, R28, R29, R33 and R34 say it holds; an acquisition under way has
no valid buffer (R119). -/
structure BufferInv (s : State) : Prop where
  clearing : s.stage = .acquire → s.phase ≠ .start →
    s.rawValid = false ∧ s.sampValid = false ∧ s.trailingValid = false ∧ s.specValid = false ∧ s.peakValid = false
  raw : s.rawValid = true → s.raw.length = s.par.frameBytes
  samp : s.sampValid = true → s.samp.length = s.sampLen
  sampleRange : ∀ x ∈ s.samp, sampleInRange x
  trailingRange : -2 ^ 31 ≤ s.trailing ∧ s.trailing < 2 ^ 31
  spec : s.specValid = true →
    s.mag.length = s.par.K + 1 ∧ s.bin.length = s.par.K + 1 ∧ ∀ m ∈ s.mag, m.Legal s.par.num
  peaks : s.peakValid = true →
    s.peaks.length = s.peakCount ∧ s.peakCount ≤ s.par.peakMax ∧
      (s.peaks.map Peak.idx).Pairwise (· < ·) ∧
      ∀ p ∈ s.peaks, 1 ≤ p.idx ∧ p.idx ≤ s.par.K - 1

/-- Inside a RUN loop the configuration has passed its check, and each stage finds the buffers it needs (R208). -/
structure LoopInv (s : State) : Prop where
  checked : s.loop = true → runCheck s = none
  decode : s.loop = true → s.stage = .decode → s.rawValid = true
  analyze : s.loop = true → s.stage = .analyze → s.sampValid = true ∧ s.sampLen = s.par.N
  extract : s.loop = true → s.stage = .extract → s.sampValid = true ∧ s.specValid = true
  handoff : s.loop = true → s.stage = .handoff →
    s.sampValid = true ∧ s.specValid = true ∧ s.peakValid = true

/-- While a payload is being collected, the byte just read is the marker (R128, R137). -/
def MarkerInv (s : State) : Prop :=
  s.stage = .acquire → s.phase = .wait → s.cfg.variant = some 1 → s.mode = .collectingPayload →
    ∃ m, s.cfg.headerMarker = some m ∧ 0 < s.env.serPos ∧ s.env.serIn[s.env.serPos - 1]? = some m

/-- The magnitude at bin `i`, as a real number. -/
noncomputable def magReal (s : State) (i : Nat) : ℝ :=
  (magAt s.mag i).toReal

/-- The place of the magnitude at bin `i` in the order of `MagT`; under the exact `NUM` it is `magReal`. -/
noncomputable def magPlace (s : State) (i : Nat) : ℝ :=
  (magAt s.mag i).place

/-- Bin `i` of the spectrum is a candidate local maximum of R186, in the order of `MagT`. -/
def IsPeakCandidate (s : State) (i : Nat) : Prop :=
  1 ≤ i ∧ i + 1 ≤ s.par.K ∧ magPlace s (i - 1) < magPlace s i ∧ magPlace s (i + 1) < magPlace s i

/-- `mx` is the maximum over all `K + 1` bins, edge bins included (R187). -/
def IsSpectrumMax (s : State) (mx : ℝ) : Prop :=
  (∃ j, j ≤ s.par.K ∧ mx = magReal s j) ∧ ∀ j, j ≤ s.par.K → magReal s j ≤ mx

/-- Bin `i` is a candidate and reaches the threshold (R186, R187), whichever `NUM` sets it. -/
def Qualifies (s : State) (frac : Word) (i : Nat) : Prop :=
  IsPeakCandidate s i ∧ reachesThreshold frac (maxMag (s.mag.take (s.par.K + 1))) (magAt s.mag i) = true

/-- Bin `i` is visited before bin `j` in the order of R188. -/
def Outranks (s : State) (i j : Nat) : Prop :=
  magPlace s j < magPlace s i ∨ magPlace s i = magPlace s j ∧ i < j

/-- The spectrum buffer holds a spectrum (R33). -/
def SpectrumHeld (s : State) : Prop :=
  s.specValid = true ∧ s.mag.length = s.par.K + 1 ∧ s.bin.length = s.par.K + 1 ∧ ∀ m ∈ s.mag, m.Legal s.par.num

/-- The invariants together. -/
structure Inv (s : State) : Prop where
  control : ControlInv s
  cursor : CursorInv s
  marker : MarkerInv s
  buffer : BufferInv s
  loop : LoopInv s

end Machine

end Sys2Proof
end

