-- ==== Sys2Proof/Certificates/Slice0/Obligations.lean ====
section
/-! DEFINITION. The statements for the provers. Each docstring names the rules of spec/ it rests on; where a
next state is written as a record, every field not named in it is unchanged. `phase`, `examined` and `draws` are
the model's own fields (log entries 3, 4, 10). -/

open Sys2Proof Sys2Proof.Machine

/-! ### Encoding and decoding (30_encoding.md, 41_sample_decoder.md) -/

/-- The decoder reads back what the encoder wrote, for every instruction that can occur and every operand it
can carry (R94, R97, R100). -/
def Obligations.DecodeOfEncodeIsIdentity : Prop :=
  ∀ (p : Config.Params) (m : Byte) (i : Instr), i.wellFormed p m = true → decode p (i.context m) (encode i) = some i

/-- The bytes the decoder accepts in a context are the whole encoding of the instruction it gives, an instruction of that
context that can occur there: it accepts nothing else. Whatever a serial read in progress may return is a token: the
table is complete (R63, R97). -/
def Obligations.TokenTableIsCompleteAndSound : Prop :=
  (∀ (p : Config.Params) (c : Context) (bs : List Byte) (i : Instr), decode p c bs = some i →
    encode i = bs ∧ ∃ m, i.context m = c ∧ i.wellFormed p m = true) ∧
  ∀ (s : State) (c : Context) (n len : Nat), serialRequest s = some (c, n) → s.serMayReturn n len = true →
    ∃ i, decode s.par c (s.serBytes len) = some i

/-- The command codes of R100, the reserved words of R102, and a byte string for each kind of token and element of R97;
a payload is written out for `N = 2`, a datagram for parameters that admit two bytes. -/
def Obligations.WrittenOutWordsDecode : Prop :=
  ∀ p : Config.Params,
    decode p .command [0x00] = some .nop ∧ decode p .command [0x01] = some .openTransport ∧
    decode p .command [0x02] = some .closeTransport ∧ decode p .command [0x03] = some .acquireA ∧
    decode p .command [0x04] = some .nextframeB ∧ decode p .command [0x05] = some .nextframeC ∧
    decode p .command [0x06] = some .decodeF32 ∧ decode p .command [0x07] = some .analyze ∧
    decode p .command [0x08] = some .extract ∧ decode p .command [0x09] = some .handoff ∧
    decode p .command [0x0A] = some .run ∧ decode p .command [0x0B] = some .reservedB ∧
    decode p .command [0x0C] = some .reservedC ∧ decode p .command [0x0D] = some .reservedD ∧
    decode p .command [0x0E] = some .reservedE ∧ decode p .command [0x0F] = some .reservedF ∧
    (∀ w : Byte, 0x10 ≤ w.toNat → decode p .command [w] = none) ∧
    decode p (.searching 0xA5) [0xA5] = some (.bMarker 0xA5) ∧
    decode p (.searching 0xA5) [0x13] = some (.bNoise 0x13) ∧ decode p (.searching 0xA5) [] = some .bEmpty ∧
    (p.N = 2 → decode p .collecting [0xA5, 0x01, 0x02, 0x03, 0x04, 0x05, 0x06, 0x07]
      = some (.bPayload [0xA5, 0x01, 0x02, 0x03, 0x04, 0x05, 0x06, 0x07])) ∧
    decode p .collecting [0x01, 0x02, 0x03] = some (.bShort [0x01, 0x02, 0x03]) ∧
    decode p .collecting [] = some (.bShort []) ∧
    (2 ≤ p.dgramMax → decode p .datagram [0x01, 0x02] = some (.cDgram [0x01, 0x02])) ∧
    decode p .datagram [] = some (.cDgram []) ∧
    decode p .response [0x78, 0x56, 0x34, 0x12] = some (.aElem 0x12345678) ∧
    decode p .response [0xFF, 0xFF] = some (.aShort [0xFF, 0xFF]) ∧
    decode p .payloadElement [0x00, 0x00, 0x80, 0x3F] = some (.elemF32 0x3F800000) ∧
    decode p .responseElement [0x00, 0x00, 0x00, 0x80] = some (.elemI32 0x80000000) ∧
    decode p .micro [0x10, 0x27, 0x00, 0x00] = some (.decI32 10000)

/-- Element assembly (R94): the word of four bytes, its slices, its value as `I32LE` and its fields as `F32LE`. -/
def Obligations.ElementsAreLittleEndian : Prop :=
  ∀ b0 b1 b2 b3 : Byte,
    let u := le32 b0 b1 b2 b3
    u.toNat = b0.toNat + 2 ^ 8 * b1.toNat + 2 ^ 16 * b2.toNat + 2 ^ 24 * b3.toNat ∧
    u.extractLsb' 0 8 = b0 ∧ u.extractLsb' 8 8 = b1 ∧ u.extractLsb' 16 8 = b2 ∧ u.extractLsb' 24 8 = b3 ∧
    (u.toNat < 2 ^ 31 → sext32 u = u.toNat) ∧ (2 ^ 31 ≤ u.toNat → sext32 u = (u.toNat : Int) - 2 ^ 32) ∧
    f32Sign u = decide (2 ^ 31 ≤ u.toNat) ∧ f32Exponent u = u.toNat / 2 ^ 23 % 2 ^ 8 ∧
    f32Fraction u = u.toNat % 2 ^ 23

/-- The request string of R95: the shortest decimal digits, most significant first, as ASCII bytes, and what
ACQUIRE_A appends to the transmit stream. -/
def Obligations.RequestIsShortestDecimal : Prop :=
  Config.reference.reqTerminator = [] ∧ request 0 = [0x30] ∧
  (∀ c : Nat, c ≠ 0 → request c = (Nat.digits 10 c).reverse.map (fun d => BitVec.ofNat 8 (0x30 + d))) ∧
  ∀ (s : State) (c : Word), s.stage = .acquire → s.phase = .write → s.cfg.count = some c →
    exec .acquireA s = .next { s with
      phase := .wait, examined := !s.cancelPending,
      env := { s.env with serOut := s.env.serOut ++ (request c.toNat ++ s.par.reqTerminator) } }

/-! ### Single operations and the transport (44_pipeline_control.md) -/

/-- The all-zero command word is NOP, and NOP changes nothing, in any state; CLOSE in `IDLE` releases the transport, held or not, and changes nothing else
(R202, R213). -/
def Obligations.NopAndCloseComplete : Prop :=
  ∀ s : State, decode s.par .command [0x00] = some .nop ∧ exec .nop s = .next s ∧
    (s.stage = .idle → exec .closeTransport s = .next { s with transportOpen := false })

/-- OPEN in `IDLE`, in the order of its pseudocode (log entry 14): the variant, then whether the transport is held already, then the oracle's
answer; success sets `transport_open` and nothing else (R201, R224). -/
def Obligations.OpenFollowsItsPseudocode : Prop :=
  ∀ (s : State) (v : BitVec 2), s.stage = .idle → s.cfg.variant = some v → exec .openTransport s =
    if v = 3 then .next (s.enterFault .configRange)
    else if s.transportOpen = true then .next (s.enterFault .illegalCmd)
    else if s.env.canOpen = false then .next (s.enterFault .transportUnavailable)
    else .next { s with transportOpen := true }

/-- A single operation accepted in `IDLE` enters its stage and does nothing else yet (R203). -/
def Obligations.AcceptedOperationsEnterTheirStage : Prop :=
  ∀ s : State, s.stage = .idle →
    (s.cfg.variant = some 0 → s.transportOpen = true →
      exec .acquireA s = .next { s with stage := .acquire, phase := .start, examined := !s.cancelPending }) ∧
    (s.cfg.variant = some 1 → s.transportOpen = true →
      exec .nextframeB s = .next { s with stage := .acquire, phase := .start, examined := !s.cancelPending }) ∧
    (s.cfg.variant = some 2 → s.transportOpen = true →
      exec .nextframeC s = .next { s with stage := .acquire, phase := .start, examined := !s.cancelPending }) ∧
    (s.cfg.variant = some 1 ∨ s.cfg.variant = some 2 →
      exec .decodeF32 s = .next { s with stage := .decode, phase := .start, examined := !s.cancelPending }) ∧
    exec .analyze s = .next { s with stage := .analyze, phase := .start, examined := !s.cancelPending } ∧
    exec .extract s = .next { s with stage := .extract, phase := .start, examined := !s.cancelPending } ∧
    exec .handoff s = .next { s with stage := .handoff, phase := .start, examined := !s.cancelPending }

/-- The checks of command decode on variant-specific operations: `ILLEGAL_CMD` for the wrong variant, then, for
acquisitions, `TRANSPORT_CLOSED` (R102, R231, R237 (1)). Before both, a variant never written is `CONFIG_RANGE` (R253),
whatever the transport: that this comes first is the model's reading (log entry 13, DEDUCED). -/
def Obligations.CommandDecodeChecksInOrder : Prop :=
  ∀ (s : State) (i : Instr) (v : BitVec 2), s.stage = .idle →
    i = .acquireA ∧ v = 0 ∨ i = .nextframeB ∧ v = 1 ∨ i = .nextframeC ∧ v = 2 →
    (s.cfg.variant = none → exec i s = .next (s.enterFault .configRange)) ∧
    (∀ w, s.cfg.variant = some w → w ≠ v → exec i s = .next (s.enterFault .illegalCmd)) ∧
    (s.cfg.variant = some v → s.transportOpen = false → exec i s = .next (s.enterFault .transportClosed)) ∧
    (s.cfg.variant = some 0 ∨ s.cfg.variant = some 3 → exec .decodeF32 s = .next (s.enterFault .illegalCmd)) ∧
    (s.cfg.variant = none → exec .decodeF32 s = .next (s.enterFault .configRange))

/-- The reserved instructions raise `ILLEGAL_CMD` in `IDLE`: fault entry is their effect. At the port so does every
command word that is no operation of R100, those with a bit of `cmd[7:4]` set among them (R102, R229). -/
def Obligations.ReservedCommandsFault : Prop :=
  (∀ (s : State) (i : Instr), s.stage = .idle →
    i = .reservedB ∨ i = .reservedC ∨ i = .reservedD ∨ i = .reservedE ∨ i = .reservedF →
    exec i s = .next (s.enterFault .illegalCmd)) ∧
  ∀ (s : State) (w : Byte) (rest : List Move), s.stage = .idle → s.cancelPending = false →
    s.env.script = .command w :: rest → 0x0B ≤ w.toNat → step s = .next (s.popMove.enterFault .illegalCmd)

/-- A command is accepted only in `IDLE`: in any other stage, with no cancellation due, presenting any word changes
nothing but that the host's move is made (R101). -/
def Obligations.CommandsOutsideIdleHaveNoEffect : Prop :=
  ∀ (s : State) (w : Byte) (rest : List Move), s.stage ≠ .idle → cancelDue s = false →
    s.env.script = .command w :: rest → step s = .next { s with env := { s.env with script := rest } }

/-- A step runs the decoded command (the host's moves as a list, log entry 1): in `IDLE`, no interrupt latched, the word the host presents is decoded and that
instruction's meaning is the step. -/
def Obligations.StepRunsTheCommand : Prop :=
  ∀ (s : State) (w : Byte) (rest : List Move) (i : Instr), s.stage = .idle → s.cancelPending = false →
    s.env.script = .command w :: rest → decode s.par .command [w] = some i → step s = exec i s.popMove

/-- A step runs the wire token (the oracle's moves as a list, log entry 1): when the core is blocked in a read and the transport answers, the bytes are consumed,
decoded in the read's context, and that token's meaning is the step (R63, R66, R97). -/
def Obligations.StepRunsTheToken : Prop :=
  (∀ (s : State) (c : Context) (n len : Nat) (rest : List Move) (i : Instr), cancelDue s = false →
    s.env.script = .serialReturns len :: rest → serialRequest s = some (c, n) → s.serMayReturn n len = true →
    decode s.par c (s.serBytes len) = some i → step s = exec i (s.popMove.serAdvance len)) ∧
  ∀ (s : State) (d : List Byte) (rest : List Move), cancelDue s = false → s.env.script = .dgramReturns :: rest →
    s.stage = .acquire → s.phase = .wait → s.cfg.variant = some 2 → s.env.dgramIn[s.env.dgramPos]? = some d →
    d.length ≤ s.par.dgramMax → step s = exec (.cDgram d) s.popMove.dgramAdvance

/-- A step runs the operation of the stage (its transitions as the model cuts them, log entry 3): with no other agent
moving and no cancellation due, the core takes the transition of the stage it is in (R104, R207). A blocked core waits,
all state unchanged (R246; that a wait is a step is log entry 2), and takes the interrupt where one is latched (R233 (b)). -/
def Obligations.StepRunsTheStage : Prop :=
  ∀ s : State, s.env.script = [] → cancelDue s = false →
    (s.stage = .acquire → s.phase ≠ .wait → s.cfg.variant = some 0 → step s = exec .acquireA s) ∧
    (s.stage = .acquire → s.phase ≠ .wait → s.cfg.variant = some 1 → step s = exec .nextframeB s) ∧
    (s.stage = .acquire → s.phase ≠ .wait → s.cfg.variant = some 2 → step s = exec .nextframeC s) ∧
    (s.stage = .decode → step s = exec .decodeF32 s) ∧ (s.stage = .analyze → step s = exec .analyze s) ∧
    (s.stage = .extract → step s = exec .extract s) ∧
    (s.stage = .handoff → s.phase ≠ .wait → step s = exec .handoff s) ∧
    (s.stage = .acquire ∨ s.stage = .handoff → s.phase = .wait → s.cancelPending = false → step s = .next s) ∧
    (s.stage = .acquire ∨ s.stage = .handoff → s.phase = .wait → s.cancelPending = true → step s = .next s.enterCancel) ∧
    (s.stage = .idle ∨ s.stage = .stopped ∨ s.stage = .faulted → step s = .next s)

/-! ### RUN and the loop (44_pipeline_control.md) -/

/-- RUN, every field it reads written: the configuration check in its order (log entry 12), then the transport check, then the loop
starts in stage ACQUIRE (R207, R208, R237 (1)). -/
def Obligations.RunChecksThenStartsTheLoop : Prop :=
  ∀ (s : State) (v : BitVec 2) (w : BitVec 1) (fs : Rat) (f d c : Word), s.stage = .idle →
    s.cfg.variant = some v → s.cfg.windowSel = some w → s.cfg.sampleRate = some fs →
    s.cfg.minHeightFraction = some f → s.cfg.minBinDistance = some d →
    (v = 0 → s.cfg.count = some c) → (v = 1 → s.cfg.headerMarker ≠ none) →
    exec .run s =
      if v = 3 then .next (s.enterFault .configRange)
      else if w = 1 ∧ s.par.hammingPresent = false then .next (s.enterFault .configRange)
      else if fs ≤ 0 then .next (s.enterFault .configRange)
      else if f32Exponent f = 255 then .next (s.enterFault .configRange)
      else if v = 0 ∧ s.par.sampCap < c.toNat then .next (s.enterFault .configRange)
      else if v = 0 ∧ c.toNat ≠ s.par.N then .next (s.enterFault .lengthMismatch)
      else if s.transportOpen = false then .next (s.enterFault .transportClosed)
      else .next { s with loop := true, stage := .acquire, phase := .start, examined := !s.cancelPending }

/-- An operation that reads a field never written raises `CONFIG_RANGE` where it reads it, OPEN among them (R230, R253,
R255; where in its order of checks is the model's reading, log entries 12 and 13). -/
def Obligations.NeverWrittenFieldsFault : Prop :=
  ∀ s : State,
    (s.stage = .idle → s.cfg.variant = none ∨ s.cfg.windowSel = none ∨ s.cfg.sampleRate = none ∨
        s.cfg.minHeightFraction = none ∨ s.cfg.minBinDistance = none ∨
        (s.cfg.variant = some 0 ∧ s.cfg.count = none) ∨ (s.cfg.variant = some 1 ∧ s.cfg.headerMarker = none) →
      exec .run s = .next (s.enterFault .configRange)) ∧
    (s.stage = .idle → s.cfg.variant = none → exec .openTransport s = .next (s.enterFault .configRange)) ∧
    (s.stage = .acquire → s.phase = .start → s.cfg.count = none →
      exec .acquireA s = .next (s.enterFault .configRange)) ∧
    (s.stage = .acquire → s.phase = .start → s.cfg.headerMarker = none →
      exec .nextframeB s = .next (s.enterFault .configRange)) ∧
    (s.stage = .analyze → s.sampValid = true → s.sampLen = s.par.N →
      s.cfg.sampleRate = none ∨ s.cfg.windowSel = none → exec .analyze s = .next (s.enterFault .configRange)) ∧
    (s.stage = .extract → s.specValid = true → s.cfg.minHeightFraction = none ∨ s.cfg.minBinDistance = none →
      exec .extract s = .next (s.enterFault .configRange))

/-- Inside the loop no fault but `INSUFFICIENT_DATA` in Variant A can occur (R208). -/
def Obligations.LoopRaisesOnlyInsufficientData : Prop :=
  ∀ s t : State, Inv s → s.loop = true → step s = .next t → t.stage = .faulted →
    t.fault = .insufficientData ∧ s.stage = .acquire ∧ s.cfg.variant = some 0

/-- The stage transition table of R212, complete: any change of `stage` in one step is a row of it. -/
def Obligations.StageTransitionsAreTheTable : Prop :=
  ∀ s t : State, Inv s → step s = .next t → t.stage ≠ s.stage →
    (t.stage = .idle ∧ (∃ rest, s.env.script = .reset :: rest)) ∨
    (t.stage = .stopped ∧ s.stage ≠ .faulted ∧ s.cancelPending = true) ∨
    (t.stage = .faulted ∧ s.stage ≠ .stopped) ∨
    (s.stage = .idle ∧ t.stage = .acquire) ∨
    (s.stage = .idle ∧ t.loop = false ∧
      (t.stage = .decode ∨ t.stage = .analyze ∨ t.stage = .extract ∨ t.stage = .handoff)) ∨
    (s.stage = .acquire ∧ (s.cfg.variant = some 1 ∨ s.cfg.variant = some 2) ∧
      t.stage = (if s.loop then .decode else .idle)) ∨
    (s.stage = .acquire ∧ s.cfg.variant = some 0 ∧ t.stage = (if s.loop then .analyze else .idle)) ∨
    (s.stage = .decode ∧ t.stage = (if s.loop then .analyze else .idle)) ∨
    (s.stage = .analyze ∧ t.stage = (if s.loop then .extract else .idle)) ∨
    (s.stage = .extract ∧ t.stage = (if s.loop then .handoff else .idle)) ∨
    (s.stage = .handoff ∧ t.stage = (if s.loop then .acquire else .idle))

/-! ### Acquisition, Variant A (40_frame_synchronizer.md section 1) -/

/-- The first transition of an acquisition in its stage: the five valid bits and `NONFINITE` are cleared, whatever they
were (R119). ACQUIRE_A checks `C` before that and touches no stream when it is too large (R121), and flushes in the
same transition; NEXTFRAME_B leaves the
cursor as it is and goes on to the header search; NEXTFRAME_C empties the accumulator, whatever it held (R135). These
two are then blocked in their first read, where a latched interrupt need not be taken before the read returns (R233 (b);
`examined`, log entry 4). That ACQUIRE_A empties the sample list is the model's way to hold `SAMP` (log entry 8). -/
def Obligations.AcquisitionsBeginByClearing : Prop :=
  ∀ s : State, s.stage = .acquire → s.phase = .start →
    (∀ c, s.cfg.count = some c → exec .acquireA s =
      if s.par.sampCap < c.toNat then .next (s.enterFault .configRange) else .next { s with
        rawValid := false, sampValid := false, trailingValid := false, specValid := false, peakValid := false,
        nonfinite := false, samp := [], consumed := 0, phase := .write, examined := !s.cancelPending,
        env := { s.env with
          serPos := s.env.serPos + min s.env.serBuffered (s.env.serIn.length - s.env.serPos), serBuffered := 0 } }) ∧
    (∀ m, s.cfg.headerMarker = some m → exec .nextframeB s = .next { s with
      rawValid := false, sampValid := false, trailingValid := false, specValid := false, peakValid := false,
      nonfinite := false, phase := .wait, examined := true }) ∧
    exec .nextframeC s = .next { s with
      rawValid := false, sampValid := false, trailingValid := false, specValid := false, peakValid := false,
      nonfinite := false, acc := [], phase := .wait, examined := true }

/-- The request phase of R122: `SerFlush` skips what is buffered, and only then the request is written; the bytes `bs`
that arrive in between are not discarded, and stand before the next read. The valid bits and `NONFINITE` are cleared on
the way (R119). The model's, not the spec's: that the sample list is emptied (log entry 8, DESIGN CHOICE), and that this
takes two transitions of the core (log entry 3, DESIGN CHOICE). -/
def Obligations.AcquireAFlushesThenWrites : Prop :=
  ∀ (s : State) (c : Word) (bs : List Byte), s.stage = .acquire → s.phase = .start → s.cfg.variant = some 0 →
    s.cfg.count = some c → c.toNat ≤ s.par.sampCap → s.env.script = [.core, .serialDelivers bs, .core] → s.examined = true →
    s.cancelPending = false → s.env.serPos + s.env.serBuffered ≤ s.env.serIn.length →
    Host.Core.run core 3 s = .next { s with
      rawValid := false, sampValid := false, trailingValid := false, specValid := false, peakValid := false,
      nonfinite := false, samp := [], consumed := 0, phase := .wait, examined := true,
      env := { s.env with serIn := s.env.serIn ++ bs, serPos := s.env.serPos + s.env.serBuffered, serBuffered := 0,
                          serOut := s.env.serOut ++ (request c.toNat ++ s.par.reqTerminator), script := [] } }

/-- A_ELEM: while fewer than `C` elements were read the element is the next sample; the element after them goes to
`TRAILING` and completes the acquisition, both valid bits rising in that transition (R123, R125, R155). -/
def Obligations.AElemStoresSampleOrTrailing : Prop :=
  ∀ (s : State) (u c : Word), s.cfg.count = some c →
    (s.consumed / 4 < c.toNat → exec (.aElem u) s = .next { s with
      samp := s.samp ++ [.i32 (sext32 u)], consumed := s.consumed + 4, examined := !s.cancelPending }) ∧
    (c.toNat ≤ s.consumed / 4 → exec (.aElem u) s = .next { s with
      trailing := sext32 u, trailingValid := true, sampLen := c.toNat, sampValid := true, consumed := 0,
      stage := if s.loop then .analyze else .idle, phase := .start, examined := !s.cancelPending })

/-- A_SHORT discards its bytes and enters fault `INSUFFICIENT_DATA`; no valid bit rises (R124 (b)). -/
def Obligations.AShortRaisesInsufficientData : Prop :=
  ∀ (s : State) (bs : List Byte), exec (.aShort bs) s = .next (s.enterFault .insufficientData) ∧
    (s.enterFault .insufficientData).sampValid = s.sampValid ∧
    (s.enterFault .insufficientData).trailingValid = s.trailingValid

/-- ACQUIRE_A as a whole, from the point where its response is awaited: `4*C + 4` bytes returned in reads of four
become exactly `C` samples in order and the elapsed-time word, nothing skipped (R91, R123, R125). -/
def Obligations.AcquireAReadsWholeResponse : Prop :=
  ∀ (s : State) (c : Word) (words : List Word) (last : Word) (before after : List Byte),
    s.stage = .acquire → s.phase = .wait → s.cfg.variant = some 0 → s.cfg.count = some c →
    s.consumed = 0 → s.samp = [] → s.cancelPending = false → s.examined = true → s.env.serBuffered = 0 →
    words.length = c.toNat →
    s.env.serIn = before ++ (words ++ [last]).flatMap wordBytes ++ after → s.env.serPos = before.length →
    s.env.script = List.replicate (c.toNat + 1) (.serialReturns 4) →
    Host.Core.run core (c.toNat + 1) s = .next { s with
      samp := words.map (fun u => .i32 (sext32 u)), sampLen := c.toNat, sampValid := true,
      trailing := sext32 last, trailingValid := true,
      stage := if s.loop then .analyze else .idle, phase := .start,
      env := { s.env with serPos := s.env.serPos + (4 * c.toNat + 4), script := [] } }

/-! ### Acquisition, Variant B (40_frame_synchronizer.md section 2) -/

/-- The header search: a marker byte moves the cursor to `COLLECTING_PAYLOAD` and is stored nowhere; in the step that
reads it, it is consumed, and the very next read is the payload read of `FrameByteSize` bytes. A byte that is not the
marker, or no byte, leaves no trace at all, and the search goes on (R128, R129). -/
def Obligations.HeaderSearchTokens : Prop :=
  (∀ (s : State) (b : Byte),
    exec (.bMarker b) s = .next { s with mode := .collectingPayload, examined := !s.cancelPending } ∧
    exec (.bNoise b) s = .next { s with examined := !s.cancelPending } ∧
    exec .bEmpty s = .next { s with examined := !s.cancelPending }) ∧
  ∀ (s : State) (m : Byte) (rest : List Move), s.stage = .acquire → s.phase = .wait → s.cfg.variant = some 1 →
    s.cfg.headerMarker = some m → s.mode = .searchingHeader → s.cancelPending = false →
    s.env.script = .serialReturns 1 :: rest → s.env.serIn[s.env.serPos]? = some m →
    ∃ t, step s = .next t ∧ t = { s with
        mode := .collectingPayload, examined := true,
        env := { s.env with serPos := s.env.serPos + 1, serBuffered := s.env.serBuffered - 1, script := rest } } ∧
      serialRequest t = some (.collecting, s.par.frameBytes)

/-- B_PAYLOAD: the bytes become `RAW` in one transition, `RAW_VALID` rises, the cursor returns to searching and the
acquisition completes (R130). -/
def Obligations.BPayloadEmitsFrame : Prop :=
  ∀ (s : State) (p : List Byte), exec (.bPayload p) s = .next { s with
    raw := p, rawValid := true, mode := .searchingHeader, consumed := 0,
    stage := if s.loop then .decode else .idle, phase := .start, examined := !s.cancelPending }

/-- B_SHORT: the token drops the candidate frame, and nothing that the host can read changes: no fault, no flag, no
count. In the step that answers the payload read with fewer bytes, all of them are consumed, `RAW` is untouched, and
the next read is the header search from the byte after them (R131, R36). -/
def Obligations.BShortDropsSilently : Prop :=
  (∀ (s : State) (p : List Byte),
    exec (.bShort p) s = .next { s with mode := .searchingHeader, consumed := 0, examined := !s.cancelPending }) ∧
  ∀ (s : State) (m : Byte) (len : Nat) (rest : List Move), s.stage = .acquire → s.phase = .wait →
    s.cfg.variant = some 1 → s.cfg.headerMarker = some m → s.mode = .collectingPayload → s.cancelPending = false →
    s.env.script = .serialReturns len :: rest → len < s.par.frameBytes → s.env.serPos + len ≤ s.env.serIn.length →
    ∃ t, step s = .next t ∧ t = { s with
        mode := .searchingHeader, consumed := 0, examined := true,
        env := { s.env with serPos := s.env.serPos + len, serBuffered := s.env.serBuffered - len, script := rest } } ∧
      t.status = s.status ∧ serialRequest t = some (.searching m, 1)

/-- The only transitions of `cur.mode` (R127): into `COLLECTING_PAYLOAD` by reading the marker byte in
`SEARCHING_HEADER`; out of it by an answer to the payload read, or by leaving the operation. -/
def Obligations.CursorModeTransitions : Prop :=
  ∀ s t : State, Inv s → step s = .next t → t.mode ≠ s.mode →
    (s.mode = .searchingHeader ∧ s.stage = .acquire ∧ s.cfg.variant = some 1 ∧ t.env.serPos = s.env.serPos + 1 ∧
      ∃ m, s.cfg.headerMarker = some m ∧ s.env.serIn[s.env.serPos]? = some m) ∨
    (s.mode = .collectingPayload ∧ s.stage = .acquire ∧ s.cfg.variant = some 1 ∧
      ((t.env.serPos = s.env.serPos + s.par.frameBytes ∧ t.rawValid = true) ∨
       (t.env.serPos < s.env.serPos + s.par.frameBytes ∧ t.stage = .acquire ∧ t.raw = s.raw ∧ t.rawValid = s.rawValid) ∨
       (t.stage = .stopped) ∨ (t.stage = .idle ∧ ∃ rest, s.env.script = .reset :: rest)))

/-- Resynchronisation (R137): when a step completes a Variant B frame, `RAW` is the `FrameByteSize` bytes of the
stream that follow a byte equal to the marker, and they are the bytes just consumed. -/
def Obligations.FramesFollowAMarker : Prop :=
  ∀ s t : State, Inv s → step s = .next t → s.cfg.variant = some 1 → s.rawValid = false → t.rawValid = true →
    ∃ m p, s.cfg.headerMarker = some m ∧ s.env.serIn[p]? = some m ∧ p + 1 + s.par.frameBytes ≤ s.env.serIn.length ∧
      t.raw = (s.env.serIn.drop (p + 1)).take s.par.frameBytes ∧ t.env.serPos = p + 1 + s.par.frameBytes

/-- The closed form of R138 for one frame, when every read is returned in full: the frame follows the first marker
at or after the stream position, wherever it stands. -/
def Obligations.FirstMarkerStartsTheFrame : Prop :=
  ∀ (s : State) (m : Byte) (before noise payload after : List Byte),
    s.stage = .acquire → s.phase = .wait → s.cfg.variant = some 1 → s.cfg.headerMarker = some m →
    s.mode = .searchingHeader → s.consumed = 0 → s.cancelPending = false → s.examined = true → s.env.serBuffered = 0 →
    m ∉ noise → payload.length = s.par.frameBytes →
    s.env.serIn = before ++ noise ++ m :: payload ++ after → s.env.serPos = before.length →
    s.env.script = List.replicate (noise.length + 1) (.serialReturns 1) ++ [.serialReturns s.par.frameBytes] →
    Host.Core.run core (noise.length + 2) s = .next { s with
      raw := payload, rawValid := true, stage := if s.loop then .decode else .idle, phase := .start,
      env := { s.env with serPos := s.env.serPos + noise.length + 1 + s.par.frameBytes, script := [] } }

/-! ### Acquisition, Variant C (40_frame_synchronizer.md section 3) -/

/-- C_DGRAM: the datagram is appended whole; below `FrameByteSize` the accumulation goes on, at or above it the first
`FrameByteSize` bytes are the frame and the rest is dropped without trace (R133, R134). -/
def Obligations.CDgramAppendsOrEmits : Prop :=
  ∀ (s : State) (d : List Byte),
    ((s.acc ++ d).length < s.par.frameBytes → exec (.cDgram d) s = .next { s with
      acc := s.acc ++ d, consumed := (s.acc ++ d).length, examined := !s.cancelPending }) ∧
    (s.par.frameBytes ≤ (s.acc ++ d).length → exec (.cDgram d) s = .next { s with
      raw := (s.acc ++ d).take s.par.frameBytes, rawValid := true, mode := .searchingHeader, consumed := 0, acc := [],
      stage := if s.loop then .decode else .idle, phase := .start, examined := !s.cancelPending })

/-- NEXTFRAME_C as a whole: the frame is the first `FrameByteSize` bytes of the concatenation of the datagrams
received, up to the one that fills it; zero-length datagrams change nothing (R93, R132, R133, R134). -/
def Obligations.FrameIsPrefixOfDatagrams : Prop :=
  ∀ (s : State) (ds : List (List Byte)) (last : List Byte) (before after : List (List Byte)),
    s.stage = .acquire → s.phase = .wait → s.cfg.variant = some 2 → s.mode = .searchingHeader →
    s.acc = [] → s.consumed = 0 → s.cancelPending = false → s.examined = true →
    ds.flatten.length < s.par.frameBytes → s.par.frameBytes ≤ ds.flatten.length + last.length →
    (∀ d ∈ last :: ds, d.length ≤ s.par.dgramMax) →
    s.env.dgramIn = before ++ ds ++ last :: after → s.env.dgramPos = before.length →
    s.env.script = List.replicate (ds.length + 1) .dgramReturns →
    Host.Core.run core (ds.length + 1) s = .next { s with
      raw := (ds.flatten ++ last).take s.par.frameBytes, rawValid := true,
      stage := if s.loop then .decode else .idle, phase := .start,
      env := { s.env with dgramPos := s.env.dgramPos + (ds.length + 1), script := [] } }

/-! ### The sample decoder (41_sample_decoder.md) -/

/-- The decoder round trip (R154): a payload that is the little-endian encoding of `N` words decodes to exactly those
bit patterns, in order; `RAW_VALID` is consumed, `SAMP` becomes valid, nothing else changes. -/
def Obligations.DecodeRoundTrip : Prop :=
  ∀ (s : State) (us : List Word), s.stage = .decode → s.rawValid = true → us.length = s.par.N →
    s.raw = us.flatMap wordBytes →
    exec .decodeF32 s = .next { s with
      samp := us.map .f32, sampLen := s.par.N, sampValid := true, rawValid := false,
      stage := if s.loop then .analyze else .idle, phase := .start, examined := !s.cancelPending }

/-- The element micro-steps: ELEM_F32 keeps all 32 bits, ELEM_I32 and DEC_I32 give the two's-complement value, DEC_I32
to the sample being read or to `TRAILING` (R152, R155). -/
def Obligations.ElementStepsStoreOneSample : Prop :=
  ∀ (s : State) (u c : Word),
    exec (.elemF32 u) s = .next { s with samp := s.samp ++ [.f32 u] } ∧
    exec (.elemI32 u) s = .next { s with samp := s.samp ++ [.i32 (sext32 u)] } ∧
    (s.cfg.count = some c → s.consumed / 4 < c.toNat →
      exec (.decI32 u) s = .next { s with samp := s.samp ++ [.i32 (sext32 u)] }) ∧
    (s.cfg.count = some c → c.toNat ≤ s.consumed / 4 → exec (.decI32 u) s = .next { s with trailing := sext32 u })

/-- Operations refused for a buffer that is not valid (R39, R228). -/
def Obligations.InvalidBuffersFault : Prop :=
  ∀ s : State,
    (s.stage = .decode → s.rawValid = false → exec .decodeF32 s = .next (s.enterFault .bufferNotValid)) ∧
    (s.stage = .analyze → s.sampValid = false → exec .analyze s = .next (s.enterFault .bufferNotValid)) ∧
    (s.stage = .extract → s.specValid = false → exec .extract s = .next (s.enterFault .bufferNotValid)) ∧
    (s.stage = .handoff → s.phase = .start → (s.sampValid = false ∨ s.specValid = false ∨ s.peakValid = false) →
      exec .handoff s = .next (s.enterFault .bufferNotValid))

/-! ### The spectral analyzer (42_spectral_analyzer.md) -/

/-- The preconditions of ANALYZE, in order, once the samples are valid (R174, R168). -/
def Obligations.AnalyzePreconditionsInOrder : Prop :=
  ∀ (s : State) (fs : Rat) (w : BitVec 1), s.stage = .analyze → s.sampValid = true →
    s.cfg.sampleRate = some fs → s.cfg.windowSel = some w →
    (s.sampLen ≠ s.par.N → exec .analyze s = .next (s.enterFault .lengthMismatch)) ∧
    (s.sampLen = s.par.N → fs ≤ 0 → exec .analyze s = .next (s.enterFault .configRange)) ∧
    (s.sampLen = s.par.N → 0 < fs → w = 1 → s.par.hammingPresent = false →
      exec .analyze s = .next (s.enterFault .configRange))

/-- ANALYZE of a finite frame completes under every `NUM`: it writes `K + 1` magnitudes of that `NUM`'s `MagT`, its bin
centres, its valid bit, `NONFINITE` 0 and the stage, and changes nothing else (R165, R176). Under the exact `NUM` the
magnitudes are the reference semantics over the real numbers and the bin centres `k*fs/N` (R166, R167, R168, R170, R171,
R172); an implementation's values are free (log entry 9). -/
def Obligations.AnalyzeIsTheReferenceSpectrum : Prop :=
  ∀ (s : State) (fs : Rat) (w : BitVec 1), s.stage = .analyze → s.sampValid = true → s.sampLen = s.par.N →
    s.samp.length = s.par.N → s.cfg.sampleRate = some fs → 0 < fs → s.cfg.windowSel = some w →
    (w = 1 → s.par.hammingPresent = true) → (∀ x ∈ s.samp, sampleNonFinite x = false) →
    ∃ mag : List Mag, exec .analyze s = .next { s with
        mag := mag, bin := (List.range (s.par.K + 1)).map (binCentre s.par fs),
        nonfinite := false, specValid := true,
        stage := if s.loop then .extract else .idle, phase := .start, examined := !s.cancelPending } ∧
      mag.length = s.par.K + 1 ∧ (∀ m ∈ mag, m.Legal s.par.num) ∧
      (s.par.num = .exact →
        (∀ k, binCentre s.par fs k = .exact ((k : Rat) * fs / (s.par.N : Rat))) ∧
        ∀ k (h : k < mag.length), (mag[k]).toReal = Reference.magnitude w s.par.N s.samp k)

/-- ANALYZE of a frame with a NaN or infinite sample still completes: `NONFINITE` is set, the bins are written
normally, the magnitudes are `K + 1` unspecified ones (R175; the free values are log entry 10). -/
def Obligations.NonFiniteFramesGoOn : Prop :=
  ∀ (s : State) (fs : Rat) (w : BitVec 1), s.stage = .analyze → s.sampValid = true → s.sampLen = s.par.N →
    s.samp.length = s.par.N → s.cfg.sampleRate = some fs → 0 < fs → s.cfg.windowSel = some w →
    (w = 1 → s.par.hammingPresent = true) → (∃ x ∈ s.samp, sampleNonFinite x = true) →
    ∃ mag : List Mag, exec .analyze s = .next { s with
        mag := mag, bin := (List.range (s.par.K + 1)).map (binCentre s.par fs), nonfinite := true, specValid := true,
        draws := s.draws + (s.par.K + 1),
        stage := if s.loop then .extract else .idle, phase := .start, examined := !s.cancelPending } ∧
      mag.length = s.par.K + 1 ∧ ∀ m ∈ mag, m.Legal s.par.num ∧ 0 ≤ m.toReal

/-- An all-zero frame, either sign of zero, has an all-zero spectrum under every `NUM` (R180). -/
def Obligations.ZeroFrameGivesZeroSpectrum : Prop :=
  ∀ (s : State) (fs : Rat) (w : BitVec 1), s.stage = .analyze → s.sampValid = true → s.sampLen = s.par.N →
    s.samp.length = s.par.N → s.cfg.sampleRate = some fs → 0 < fs → s.cfg.windowSel = some w →
    (w = 1 → s.par.hammingPresent = true) →
    (∀ x ∈ s.samp, sampleNonFinite x = false ∧ Reference.sampleValue x = 0) →
    ∃ t, exec .analyze s = .next t ∧ t.specValid = true ∧ t.mag.length = s.par.K + 1 ∧ ∀ m ∈ t.mag, m.toReal = 0

/-- The symmetric Hann window discards the end samples: under the exact `NUM`, ANALYZE of two finite frames that differ
only in `SAMP[0]` and `SAMP[N-1]` completes on both with the same `N/2 + 1` magnitudes, and for `N = 2` each of them is 0
(R266). -/
def Obligations.HannIgnoresEndSamples : Prop :=
  ∀ (s : State) (y : List Sample) (fs : Rat), s.stage = .analyze → s.sampValid = true → s.sampLen = s.par.N →
    s.samp.length = s.par.N → y.length = s.par.N → s.cfg.sampleRate = some fs → 0 < fs → s.cfg.windowSel = some 0 →
    s.par.num = .exact → (∀ x ∈ s.samp, sampleNonFinite x = false) → (∀ x ∈ y, sampleNonFinite x = false) →
    (∀ n, 1 ≤ n → n + 1 < s.par.N → s.samp[n]? = y[n]?) →
    ∃ t u, exec .analyze s = .next t ∧ exec .analyze { s with samp := y } = .next u ∧
      t.mag.map Mag.toReal = u.mag.map Mag.toReal ∧ t.mag.length = s.par.K + 1 ∧
      (s.par.N = 2 → ∀ m ∈ t.mag, m.toReal = 0)

/-- The comparison of magnitudes is the order of the real numbers they stand for, and the exact threshold test of
EXTRACT is `m[i] >= val(frac) * mx` with `mx` the maximum over all bins, edge bins included (R176, R179, R187). -/
def Obligations.ExactThresholdIsTheRealOne : Prop :=
  ∀ (s : State) (frac : Word) (mx : ℝ), SpectrumHeld s → s.par.num = .exact → f32NonFinite frac = false →
    IsSpectrumMax s mx →
    (∀ i j, i ≤ s.par.K → j ≤ s.par.K → ((magAt s.mag i).lt (magAt s.mag j) = true ↔ magReal s i < magReal s j)) ∧
    ∀ i, i ≤ s.par.K → (reachesThreshold frac (maxMag (s.mag.take (s.par.K + 1))) (magAt s.mag i) = true ↔
      Reference.f32Value frac * mx ≤ magReal s i)

/-! ### The peak extractor (43_peak_extractor.md) -/

/-- EXTRACT completes on any held spectrum with a finite fraction: it writes the peak list and its valid bit, moves on,
and changes nothing else; each peak is at a qualifying bin and carries that bin's centre and magnitude unchanged, and
the list is in strictly ascending bin order (R185, R186, R189, R190). -/
def Obligations.ExtractReportsQualifyingBinsAscending : Prop :=
  ∀ (s : State) (frac d : Word), s.stage = .extract → SpectrumHeld s → s.cfg.minHeightFraction = some frac →
    f32NonFinite frac = false → s.cfg.minBinDistance = some d →
    ∃ peaks : List Peak, exec .extract s = .next { s with
        peaks := peaks, peakCount := peaks.length, peakValid := true,
        stage := if s.loop then .handoff else .idle, phase := .start, examined := !s.cancelPending } ∧
      (peaks.map Peak.idx).Pairwise (· < ·) ∧
      ∀ p ∈ peaks, Qualifies s frac p.idx ∧ s.bin[p.idx]? = some p.freq ∧ s.mag[p.idx]? = some p.mag

/-- The minimum distance rule of R188, as the greedy visit by rank: survivors are pairwise at least `D` apart, and a
qualifying bin is dropped exactly when a survivor that outranks it is closer than `D`. -/
def Obligations.ExtractResolvesDistanceByRank : Prop :=
  ∀ (s t : State) (frac d : Word), s.stage = .extract → SpectrumHeld s → s.cfg.minHeightFraction = some frac →
    f32NonFinite frac = false → s.cfg.minBinDistance = some d → exec .extract s = .next t →
    (∀ i ∈ t.peaks.map Peak.idx, ∀ j ∈ t.peaks.map Peak.idx, i < j → d.toNat ≤ j - i) ∧
    ∀ i, Qualifies s frac i →
      (i ∈ t.peaks.map Peak.idx ↔
        ∀ j ∈ t.peaks.map Peak.idx, Outranks s j i → d.toNat ≤ i - j ∨ d.toNat ≤ j - i)

/-- Threshold monotonicity in its strong form: with a larger fraction the survivors are a subset (R194). -/
def Obligations.RaisingTheFractionOnlyRemovesPeaks : Prop :=
  ∀ (s : State) (f g d : Word), SpectrumHeld s → s.par.num = .exact → f32NonFinite f = false → f32NonFinite g = false →
    Reference.f32Value f ≤ Reference.f32Value g →
    ∀ i ∈ survivors s.par g d.toNat s.mag, i ∈ survivors s.par f d.toNat s.mag

/-- Candidates are never adjacent, so there are at most `floor(N/4)`, and no capacity is ever exceeded (R186, R193);
a spectrum whose magnitudes are all equal, the all-zero one among them, gives none (R191). -/
def Obligations.PeakCapacityIsNeverExceeded : Prop :=
  ∀ (s : State) (frac : Word) (d : Nat), SpectrumHeld s →
    (∀ i, IsPeakCandidate s i → ¬ IsPeakCandidate s (i + 1)) ∧
    (survivors s.par frac d s.mag).length ≤ s.par.N / 4 ∧
    ((∀ i j, i ≤ s.par.K → j ≤ s.par.K → magPlace s i = magPlace s j) → survivors s.par frac d s.mag = [])

/-! ### The hand-off (44_pipeline_control.md section 3) -/

/-- HANDOFF in its stage: with a valid bit missing it faults; with all three it blocks in `SinkHandoff`, nothing else
changing, where a latched interrupt need not be taken before the sink returns (R233 (b); `examined`, log entry 4); when the sink returns, the bundle (samples, bins, magnitudes, peaks) is delivered once, in order, and exactly
the three valid bits are cleared, `TRAILING_VALID` and `NONFINITE` staying as they are (R206). -/
def Obligations.HandoffDeliversTheBundle : Prop :=
  ∀ s : State, s.stage = .handoff →
    (s.phase = .start → s.sampValid = false ∨ s.specValid = false ∨ s.peakValid = false →
      exec .handoff s = .next (s.enterFault .bufferNotValid)) ∧
    (s.phase = .start → s.sampValid = true → s.specValid = true → s.peakValid = true →
      exec .handoff s = .next { s with phase := .wait, examined := true }) ∧
    (s.phase = .wait → exec .handoff s = .next { s with
      sampValid := false, specValid := false, peakValid := false,
      env := { s.env with sink := s.env.sink ++ [
        { samples := s.samp.take s.sampLen, bins := s.bin, mags := s.mag, peaks := s.peaks }] },
      stage := if s.loop then .acquire else .idle, phase := .start, examined := !s.cancelPending })

/-- Back-pressure: a step from any stage but ACQUIRE consumes nothing from a transport and writes nothing to one, and
only a step from a blocked HANDOFF can hand a bundle over, one at most (R210). -/
def Obligations.TransportsAreReadOnlyInAcquire : Prop :=
  ∀ s t : State, step s = .next t →
    (s.stage ≠ .acquire → t.env.serPos = s.env.serPos ∧ t.env.dgramPos = s.env.dgramPos ∧
      t.env.serOut = s.env.serOut) ∧
    (t.env.sink = s.env.sink ∨
      s.stage = .handoff ∧ s.phase = .wait ∧ t.env.sink = s.env.sink ++ [s.bundle])

/-! ### Faults, interrupt, reset (60_exceptions.md, 70_reset_and_hazards.md) -/

/-- Fault entry (R222), in one transition; the valid bits and the buffers stay. A step from `FAULTED` that is no reset,
a command's among them, stays there with the code recorded first. -/
def Obligations.FaultEntryReleasesAndStops : Prop :=
  (∀ (c : FaultCode) (s : State), raiseFault c s = .next { s with
    fault := if s.fault = .none then c else s.fault, loop := false, transportOpen := false,
    mode := .searchingHeader, consumed := 0, acc := [], stage := .faulted, phase := .start, examined := false }) ∧
  ∀ s t : State, s.stage = .faulted → step s = .next t → (∀ rest, s.env.script ≠ .reset :: rest) →
    t.stage = .faulted ∧ t.fault = s.fault

/-- Only the first fault is kept: a recorded code changes only by reset (R222 (1), R35). -/
def Obligations.FirstFaultIsKept : Prop :=
  ∀ s t : State, step s = .next t → s.fault ≠ .none → t.fault ≠ s.fault → ∃ rest, s.env.script = .reset :: rest

/-- Cancellation entry (R234), in one transition: `STATUS.FAULT` and `TRAILING_VALID` stay, no bundle is delivered; in
`IDLE` a latched interrupt is taken at once. That the unreadable contents of the buffers stay too is the model's (log
entry 7, DESIGN CHOICE). -/
def Obligations.CancellationReleasesAndStops : Prop :=
  (∀ s : State, s.stage = .idle → s.cancelPending = true → cancelDue s = true) ∧
  ∀ s : State, cancelDue s = true → (∀ rest, s.env.script ≠ .reset :: rest) → step s = .next { s with
    loop := false, transportOpen := false, mode := .searchingHeader, consumed := 0, acc := [],
    rawValid := false, sampValid := false, specValid := false, peakValid := false,
    stage := .stopped, phase := .start, examined := false }

/-- A latched interrupt is taken within two steps (as the model cuts them, log entries 3 and 4) of the core left to itself, whatever stage it is in; if the transition
in between raises a fault, the fault wins (R233, R237 (3)). -/
def Obligations.InterruptIsTakenWithinTwoSteps : Prop :=
  ∀ s : State, Inv s → s.cancelPending = true → s.stage ≠ .stopped → s.stage ≠ .faulted → s.env.script = [] →
    ∃ t, Host.Core.run core 2 s = .next t ∧ (t.stage = .stopped ∨ t.stage = .faulted) ∧ t.transportOpen = false

/-- The interrupt input sets `cancel_pending` and nothing else, in any stage; once set it is cleared only by reset
(R37, R232). -/
def Obligations.InterruptStaysLatched : Prop :=
  (∀ (s : State) (rest : List Move), cancelDue s = false → s.env.script = .interrupt :: rest →
    step s = .next { s with cancelPending := true, env := { s.env with script := rest } }) ∧
  ∀ s t : State, step s = .next t → s.cancelPending = true → t.cancelPending = false →
    ∃ rest, s.env.script = .reset :: rest

/-- `FAULTED` and `STOPPED` are left only by reset: any other step leaves every field of the core but
`cancel_pending` as it is, and touches no stream (R239). -/
def Obligations.TerminalStagesAreLeftOnlyByReset : Prop :=
  ∀ s t : State, s.stage = .stopped ∨ s.stage = .faulted → step s = .next t →
    (∃ rest, s.env.script = .reset :: rest) ∨
    ∃ (e : Env) (b : Bool), t = { s with cancelPending := b, env := e } ∧ (s.cancelPending = true → b = true) ∧
      e.serPos = s.env.serPos ∧ e.serOut = s.env.serOut ∧ e.dgramPos = s.env.dgramPos ∧ e.sink = s.env.sink

/-- Reset, from any state whatever: every field takes its value of R41, `CFG` is as never written, no buffer can be
read, the transport is released, and the streams and the sink are as they were (R41, R250, R251). -/
def Obligations.ResetRestoresEveryField : Prop :=
  ∀ (s : State) (rest : List Move), s.env.script = .reset :: rest → ∃ t, step s = .next t ∧
    t.mode = .searchingHeader ∧ t.consumed = 0 ∧ t.acc = [] ∧ t.stage = .idle ∧ t.loop = false ∧
    t.cancelPending = false ∧ t.transportOpen = false ∧ t.fault = .none ∧ t.nonfinite = false ∧
    t.rawValid = false ∧ t.sampValid = false ∧ t.trailingValid = false ∧ t.specValid = false ∧ t.peakValid = false ∧
    t.sampLen = 0 ∧ t.peakCount = 0 ∧
    t.readSamp = none ∧ t.readTrailing = none ∧ t.readMag = none ∧ t.readBin = none ∧ t.readPeaks = none ∧
    t.cfg = { variant := none, headerMarker := none, count := none, sampleRate := none, minHeightFraction := none,
              minBinDistance := none, windowSel := none } ∧
    t.par = s.par ∧ t.env = { s.env with script := rest }

/-- `CFG` is written only by the host, in `IDLE`; it is constant while any operation or loop runs (R21, R78), and
`CFG.VARIANT` is not written while the transport is held (R258). A host write that these rules admit is performed and
changes that one register alone; one outside `IDLE`, or of `VARIANT` while the transport is held, is refused by the
model (R21, R258; log entry 20). -/
def Obligations.CfgIsConstantOutsideIdle : Prop :=
  (∀ s t : State, step s = .next t → t.cfg ≠ s.cfg →
    (∃ rest, s.env.script = .reset :: rest) ∨
    s.stage = .idle ∧ (t.cfg.variant = s.cfg.variant ∨ s.transportOpen = false) ∧
      ∃ c rest, s.env.script = .writeCfg c :: rest ∧
        t = { s with cfg := s.cfg.write c, env := { s.env with script := rest } }) ∧
  ∀ (s : State) (c : CfgWrite) (rest : List Move), s.env.script = .writeCfg c :: rest → cancelDue s = false →
    (s.stage = .idle → (∀ v, c = .variant v → s.transportOpen = false) →
      step s = .next { s with cfg := s.cfg.write c, env := { s.env with script := rest } }) ∧
    (∀ v, c = .variant v → s.stage = .idle → s.transportOpen = true → step s = .refused .variantWriteWhileOpen) ∧
    (s.stage ≠ .idle → step s = .refused .cfgWriteOutsideIdle) ∧
    s.cfg.write c =
      (match c with
       | .variant v => { s.cfg with variant := some v }
       | .headerMarker b => { s.cfg with headerMarker := some b }
       | .count n => { s.cfg with count := some n }
       | .sampleRate fs => { s.cfg with sampleRate := some fs }
       | .minHeightFraction f => { s.cfg with minHeightFraction := some f }
       | .minBinDistance d => { s.cfg with minBinDistance := some d }
       | .windowSel w => { s.cfg with windowSel := some w })

/-- What the host reads: the codes of stage and fault, `STATUS` as the mirror of the state, `SAMP`, `SPEC` and `PEAKS`
exactly in `IDLE` with their valid bit 1 (R35, R39, R223, R269), and `TRAILING` in any stage, exactly while its valid bit
is 1 (R29, R39, R206; in any stage is the model's reading, log entry 38). -/
def Obligations.StatusMirrorsTheState : Prop :=
  [Stage.idle, .acquire, .decode, .analyze, .extract, .handoff, .stopped, .faulted].map Stage.code
    = [0, 1, 2, 3, 4, 5, 6, 7] ∧
  [FaultCode.none, .transportUnavailable, .insufficientData, .lengthMismatch, .bufferNotValid, .illegalCmd,
    .configRange, .transportClosed].map FaultCode.code = [0, 1, 2, 3, 4, 5, 6, 7] ∧
  ∀ s : State, s.status = ⟨s.stage.code, s.loop, s.transportOpen, s.fault.code, s.nonfinite, s.cancelPending,
      s.rawValid, s.sampValid, s.trailingValid, s.specValid, s.peakValid⟩ ∧
    (s.stage = .idle → s.sampValid = true → s.readSamp = some (s.samp.take s.sampLen)) ∧
    (s.trailingValid = true → s.readTrailing = some s.trailing) ∧ (s.trailingValid = false → s.readTrailing = none) ∧
    (s.stage = .idle → s.specValid = true → s.readMag = some s.mag ∧ s.readBin = some s.bin) ∧
    (s.stage = .idle → s.peakValid = true → s.readPeaks = some s.peaks) ∧
    (s.stage ≠ .idle ∨ s.sampValid = false → s.readSamp = none) ∧
    (s.stage ≠ .idle ∨ s.specValid = false → s.readMag = none ∧ s.readBin = none) ∧
    (s.stage ≠ .idle ∨ s.peakValid = false → s.readPeaks = none)

/-! ### Invariants -/

/-- The machine right after reset meets every invariant, whatever its parameters and surroundings. -/
def Obligations.InvariantsHoldAtReset : Prop :=
  ∀ (p : Config.Params) (e : Env), Inv (State.resetIn p e)

/-- Stage, loop bit, transport and fault code keep fitting together (R30, R31, R38, R211). -/
def Obligations.ControlStaysCoherent : Prop :=
  ∀ s t : State, ControlInv s → step s = .next t → ControlInv t

/-- The cursor and the accumulator are at rest outside a blocked acquisition, and count what was received inside one
(R24, R25, R26, R127, R135). -/
def Obligations.CursorStaysCoherent : Prop :=
  ∀ s t : State, CursorInv s → step s = .next t → CursorInv t

/-- A buffer whose valid bit is 1 always holds what the spec says it holds: `RAW` a whole payload, `SAMP` its samples,
`SPEC` `N/2 + 1` non-negative magnitudes, `PEAKS` at most `floor(N/4)` ascending interior bins (R27, R28, R33, R34, R139). -/
def Obligations.ValidBuffersHoldWhatTheyShould : Prop :=
  ∀ s t : State, ControlInv s → CursorInv s → BufferInv s → step s = .next t → BufferInv t

/-- All invariants together are kept by every step, the loop's among them: each stage finds the buffers it needs
(R208). -/
def Obligations.EveryStepKeepsTheInvariants : Prop :=
  ∀ s t : State, Inv s → step s = .next t → Inv t
end

