-- ==== Sys2Proof/Laws/Exact.lean ====
section
/-! SUPPORT. The exact comparison of magnitudes is right: `Cyclotomic.sign` is the sign of the real number
`Cyclotomic.value` (log entry 11). -/

namespace Sys2Proof.Cyclotomic

open Real

/-- `sum of cs[r] * cos ((j+r)*t)`. -/
noncomputable def cosSum (t : ℝ) : Nat → List Int → ℝ
  | _, [] => 0
  | j, c :: cs => (c : ℝ) * cos ((j : ℝ) * t) + cosSum t (j + 1) cs

theorem value_eq_cosSum (L : Nat) (cs : List Int) : ∀ j, value L j cs = cosSum (2 * π / L) j cs := by
  induction cs with
  | nil => intro j; rfl
  | cons c cs ih =>
    intro j
    simp only [value, cosSum, ih]
    congr 3
    ring

/-! ### The bisection of `cos (2*pi/L)` -/

theorem sin_step (t : ℝ) (j : ℕ) :
    2 * cos t * sin (((j + 1 : ℕ) : ℝ) * t) - sin ((j : ℝ) * t) = sin (((j + 2 : ℕ) : ℝ) * t) := by
  have h1 : ((j + 2 : ℕ) : ℝ) * t = ((j + 1 : ℕ) : ℝ) * t + t := by push_cast; ring
  have h2 : (j : ℝ) * t = ((j + 1 : ℕ) : ℝ) * t - t := by push_cast; ring
  rw [h1, h2, sin_add, sin_sub]
  ring

theorem chainPositive_iff {X q : ℤ} {P t : ℝ} (hP : 0 < P) (hX : (X : ℝ) = cos t * P) (hq : (q : ℝ) = P * P) :
    ∀ (m : ℕ) (j : ℕ) (a : ℝ) (u v : ℤ), 0 < a → (v : ℝ) = a * sin (((j + 1 : ℕ) : ℝ) * t) →
      P * (u : ℝ) = a * sin ((j : ℝ) * t) →
      (chainPositive X q m u v = true ↔ ∀ r < m, 0 < sin (((j + 1 + r : ℕ) : ℝ) * t))
  | 0, j, a, u, v, _, _, _ => by simp [chainPositive]
  | m + 1, j, a, u, v, ha, hv, hu => by
    have hv' : ((2 * X * v - q * u : ℤ) : ℝ) = (a * P) * sin (((j + 1 + 1 : ℕ) : ℝ) * t) := by
      push_cast [hX, hq, hv]
      have := sin_step t j
      push_cast at this ⊢
      have h3 : ((j : ℝ) + 1 + 1) * t = (j + 2) * t := by ring
      rw [h3, ← this]
      linear_combination (-P) * hu
    have hu' : P * (v : ℝ) = (a * P) * sin (((j + 1 : ℕ) : ℝ) * t) := by rw [hv]; ring
    have ih := chainPositive_iff hP hX hq m (j + 1) (a * P) v (2 * X * v - q * u) (by positivity) hv' hu'
    have hpos : 0 < v ↔ 0 < sin (((j + 1 : ℕ) : ℝ) * t) := by
      rw [← Int.cast_pos (R := ℝ), hv]
      constructor
      · intro h; exact (pos_iff_pos_of_mul_pos h).1 ha
      · intro h; positivity
    simp only [chainPositive, Bool.and_eq_true, decide_eq_true_eq, ih, hpos]
    constructor
    · rintro ⟨h0, h⟩ r hr
      rcases r with _ | r
      · simpa using h0
      · have := h r (by omega)
        rwa [show j + 1 + (r + 1) = j + 1 + 1 + r by omega]
    · intro h
      refine ⟨by simpa using h 0 (by omega), fun r hr => ?_⟩
      have := h (r + 1) (by omega)
      rwa [show j + 1 + (r + 1) = j + 1 + 1 + r by omega] at this

theorem sin_multiples_pos_iff {t : ℝ} (h0 : 0 < t) (hpi : t < π) {m : ℕ} :
    (∀ r < m, 0 < sin (((r + 1 : ℕ) : ℝ) * t)) ↔ (m : ℝ) * t < π := by
  constructor
  · intro h
    by_contra hc
    push Not at hc
    have hex : ∃ k : ℕ, π ≤ (k : ℝ) * t := ⟨m, hc⟩
    classical
    set k := Nat.find hex with hk
    have hk1 : π ≤ (k : ℝ) * t := Nat.find_spec hex
    have hkm : k ≤ m := Nat.find_min' hex hc
    have hk0 : k ≠ 0 := by
      intro h0'
      rw [h0'] at hk1
      simp at hk1
      linarith [pi_pos]
    obtain ⟨r, hr⟩ := Nat.exists_eq_succ_of_ne_zero hk0
    have hlt : ¬ π ≤ (r : ℝ) * t := Nat.find_min hex (by omega)
    have hs := h r (by omega)
    have hk2 : ((r + 1 : ℕ) : ℝ) * t = (k : ℝ) * t := by rw [hr]
    rw [hk2] at hs
    have : (k : ℝ) * t < 2 * π := by
      rw [← hk2]; push_cast; push Not at hlt; nlinarith
    have hneg : sin ((k : ℝ) * t) ≤ 0 := by
      have := sin_nonneg_of_nonneg_of_le_pi (x := (k : ℝ) * t - π) (by linarith) (by linarith)
      rw [sin_sub_pi] at this
      linarith
    linarith
  · intro h r hr
    apply sin_pos_of_pos_of_lt_pi
    · positivity
    · have : ((r + 1 : ℕ) : ℝ) ≤ m := by exact_mod_cast hr
      nlinarith

theorem aboveCos_iff {L i : ℕ} {X : ℤ} (hL : 2 ≤ L) (hev : L % 2 = 0)
    (hlo : -(2 : ℝ) ^ i < X) (hhi : (X : ℝ) < 2 ^ i) :
    aboveCos L i X = true ↔ cos (2 * π / L) < (X : ℝ) / 2 ^ i := by
  have hP : (0 : ℝ) < 2 ^ i := by positivity
  set x : ℝ := (X : ℝ) / 2 ^ i with hx
  have hx1 : -1 < x := by rw [hx, lt_div_iff₀ hP]; linarith
  have hx2 : x < 1 := by rw [hx, div_lt_one hP]; exact hhi
  set t := arccos x with ht
  have hcos : cos t = x := cos_arccos hx1.le hx2.le
  have ht0 : 0 < t := arccos_pos.2 hx2
  have htpi : t < π := arccos_lt_pi.2 hx1
  have hsin : 0 < sin t := sin_pos_of_pos_of_lt_pi ht0 htpi
  have hchain := chainPositive_iff (X := X) (q := ((4 ^ i : ℕ) : ℤ)) (P := 2 ^ i) (t := t) hP
    (by rw [hcos, hx]; field_simp) (by push_cast; rw [← mul_pow]; norm_num) (L / 2) 0 (1 / sin t) 0 1
    (by positivity) (by simp; field_simp) (by simp)
  have hL2 : 0 < L / 2 := by omega
  have hmul := sin_multiples_pos_iff ht0 htpi (m := L / 2)
  unfold aboveCos
  rw [hchain]
  have heq : (∀ r < L / 2, 0 < sin (((0 + 1 + r : ℕ) : ℝ) * t)) ↔ ∀ r < L / 2, 0 < sin (((r + 1 : ℕ) : ℝ) * t) := by
    simp only [show ∀ r, 0 + 1 + r = r + 1 from fun r => by omega]
  rw [heq, hmul]
  have hLr : (0 : ℝ) < L := by exact_mod_cast (by omega : 0 < L)
  have hhalf : ((L / 2 : ℕ) : ℝ) = (L : ℝ) / 2 := by
    rw [Nat.cast_div (by omega) (by norm_num)]; norm_num
  have hang : 2 * π / L ≤ π := by
    rw [div_le_iff₀ hLr]
    have : (2 : ℝ) ≤ L := by exact_mod_cast hL
    nlinarith [pi_pos]
  have hang0 : 0 ≤ 2 * π / L := by positivity
  rw [hhalf, ← hcos]
  have h1 : (L : ℝ) / 2 * t < π ↔ t < 2 * π / L := by
    rw [lt_div_iff₀ hLr]; constructor <;> intro h <;> linarith
  rw [h1]
  exact (strictAntiOn_cos.lt_iff_gt ⟨hang0, hang⟩ ⟨ht0.le, htpi.le⟩).symm

theorem cosBelow_spec {L : ℕ} (hL : 2 ≤ L) (hev : L % 2 = 0) :
    ∀ n : ℕ, -(2 : ℤ) ^ n ≤ cosBelow L n ∧ cosBelow L n + 2 ≤ 2 ^ n ∧
      (cosBelow L n : ℝ) ≤ cos (2 * π / L) * 2 ^ n ∧ cos (2 * π / L) * 2 ^ n ≤ (cosBelow L n : ℝ) + 2
  | 0 => by
    have h1 := neg_one_le_cos (2 * π / L)
    have h2 := cos_le_one (2 * π / L)
    refine ⟨by simp [cosBelow], by simp [cosBelow], ?_, ?_⟩ <;> simp [cosBelow] <;> linarith
  | n + 1 => by
    obtain ⟨h1, h2, h3, h4⟩ := cosBelow_spec hL hev n
    set a := cosBelow L n with ha
    have hlo : -(2 : ℝ) ^ n < ((a + 1 : ℤ) : ℝ) := by
      have : -(2 : ℤ) ^ n < a + 1 := by omega
      have := (Int.cast_lt (R := ℝ)).2 this
      push_cast at this ⊢; exact this
    have hhi : ((a + 1 : ℤ) : ℝ) < 2 ^ n := by
      have : a + 1 < (2 : ℤ) ^ n := by omega
      have := (Int.cast_lt (R := ℝ)).2 this
      push_cast at this ⊢; exact this
    have hP : (0 : ℝ) < 2 ^ n := by positivity
    have hiff := aboveCos_iff hL hev hlo hhi
    rw [lt_div_iff₀ hP] at hiff
    have hdef : cosBelow L (n + 1) = if aboveCos L n (a + 1) then 2 * a else 2 * (a + 1) := rfl
    rw [hdef]
    push_cast at hiff
    by_cases hc : aboveCos L n (a + 1) = true
    · have := hiff.1 hc
      rw [if_pos hc]
      refine ⟨by rw [pow_succ]; omega, by rw [pow_succ]; omega, ?_, ?_⟩ <;> push_cast <;>
        rw [pow_succ] <;> linarith
    · have : ¬ _ := fun h => hc (hiff.2 h)
      push Not at this
      rw [if_neg hc]
      refine ⟨by rw [pow_succ]; omega, by rw [pow_succ]; omega, ?_, ?_⟩ <;> push_cast <;>
        rw [pow_succ] <;> linarith

/-! ### Evaluation at an approximation -/

theorem chebyshevSum_eq {X p q : ℤ} {P t : ℝ} (hp : (p : ℝ) = P) (hX : (X : ℝ) = cos t * P)
    (hq : (q : ℝ) = P * P) :
    ∀ (cs : List ℤ) (j : ℕ) (acc a b : ℤ), (a : ℝ) = cos ((j : ℝ) * t) * P ^ j →
      (b : ℝ) = cos (((j + 1 : ℕ) : ℝ) * t) * P ^ (j + 1) →
      (chebyshevSum X p q acc a b cs : ℝ) * P = acc * P ^ (cs.length + 1) + P ^ (j + cs.length) * cosSum t j cs
  | [], j, acc, a, b, _, _ => by simp [chebyshevSum, cosSum]
  | c :: cs, j, acc, a, b, ha, hb => by
    have hb' : ((2 * X * b - q * a : ℤ) : ℝ) = cos (((j + 1 + 1 : ℕ) : ℝ) * t) * P ^ (j + 1 + 1) := by
      push_cast [hX, hq, ha, hb]
      have h1 : ((j : ℝ) + 1 + 1) * t = ((j : ℝ) + 1) * t + t := by ring
      have h2 : (j : ℝ) * t = ((j : ℝ) + 1) * t - t := by ring
      rw [h1, h2, cos_add, cos_sub]
      ring
    have ih := chebyshevSum_eq hp hX hq cs (j + 1) (acc * p + c * a) b (2 * X * b - q * a) hb hb'
    simp only [chebyshevSum, cosSum, List.length_cons]
    rw [ih]
    push_cast [hp, ha]
    ring

theorem abs_sin_mul_le (j : ℕ) (t : ℝ) : |sin ((j : ℝ) * t)| ≤ j * |sin t| := by
  induction j with
  | zero => simp
  | succ j ih =>
    have h : ((j + 1 : ℕ) : ℝ) * t = (j : ℝ) * t + t := by push_cast; ring
    rw [h, sin_add]
    calc |sin ((j : ℝ) * t) * cos t + cos ((j : ℝ) * t) * sin t|
        ≤ |sin ((j : ℝ) * t) * cos t| + |cos ((j : ℝ) * t) * sin t| := abs_add_le _ _
      _ = |sin ((j : ℝ) * t)| * |cos t| + |cos ((j : ℝ) * t)| * |sin t| := by rw [abs_mul, abs_mul]
      _ ≤ |sin ((j : ℝ) * t)| * 1 + 1 * |sin t| := by
          gcongr
          · exact abs_cos_le_one _
          · exact abs_cos_le_one _
      _ ≤ ((j + 1 : ℕ) : ℝ) * |sin t| := by push_cast; linarith

theorem abs_cos_mul_sub_le (j : ℕ) (s t : ℝ) :
    |cos ((j : ℝ) * s) - cos ((j : ℝ) * t)| ≤ ((j * j : ℕ) : ℝ) * |cos s - cos t| := by
  rw [cos_sub_cos, cos_sub_cos]
  have h1 : ((j : ℝ) * s + (j : ℝ) * t) / 2 = (j : ℝ) * ((s + t) / 2) := by ring
  have h2 : ((j : ℝ) * s - (j : ℝ) * t) / 2 = (j : ℝ) * ((s - t) / 2) := by ring
  rw [h1, h2, abs_mul, abs_mul, abs_mul, abs_mul]
  have a1 := abs_sin_mul_le j ((s + t) / 2)
  have a2 := abs_sin_mul_le j ((s - t) / 2)
  have := mul_le_mul a1 a2 (abs_nonneg _) (by positivity)
  push_cast
  calc |(-2 : ℝ)| * |sin ((j : ℝ) * ((s + t) / 2))| * |sin ((j : ℝ) * ((s - t) / 2))|
      = |(-2 : ℝ)| * (|sin ((j : ℝ) * ((s + t) / 2))| * |sin ((j : ℝ) * ((s - t) / 2))|) := by ring
    _ ≤ |(-2 : ℝ)| * (j * |sin ((s + t) / 2)| * (j * |sin ((s - t) / 2)|)) := by gcongr
    _ = _ := by ring

theorem cosSum_sub_le (s t : ℝ) (cs : List ℤ) :
    ∀ j, |cosSum s j cs - cosSum t j cs| ≤ (slope j cs : ℝ) * |cos s - cos t| := by
  induction cs with
  | nil => intro j; simp [cosSum, slope]
  | cons c cs ih =>
    intro j
    simp only [cosSum, slope]
    have h := abs_cos_mul_sub_le j s t
    have e : (c : ℝ) * cos (j * s) + cosSum s (j + 1) cs - ((c : ℝ) * cos (j * t) + cosSum t (j + 1) cs)
        = c * (cos (j * s) - cos (j * t)) + (cosSum s (j + 1) cs - cosSum t (j + 1) cs) := by ring
    rw [e]
    refine (abs_add_le _ _).trans ?_
    rw [abs_mul]
    push_cast
    have hc : |(c : ℝ)| = (c.natAbs : ℝ) := by rw [Nat.cast_natAbs]; simp
    rw [hc]
    have := ih (j + 1)
    have h' : (c.natAbs : ℝ) * |cos (j * s) - cos (j * t)| ≤ c.natAbs * (((j * j : ℕ) : ℝ) * |cos s - cos t|) := by
      gcongr
    push_cast at h'
    simp only [Nat.cast_natAbs] at *
    linarith

/-- What `signAt` computes: an approximation `V` of the value, scaled, and its error. -/
theorem signAt_approx {L : ℕ} (hL : 2 ≤ L) (hev : L % 2 = 0) (cs : List ℤ) (hcs : cs ≠ []) (n : ℕ) :
    ∃ V : ℝ, |V - value L 0 cs| ≤ 2 * slope 0 cs / 2 ^ n ∧
      (signAt L cs n = 1 → 2 * slope 0 cs / 2 ^ n < V) ∧ (signAt L cs n = -1 → V < -(2 * slope 0 cs / 2 ^ n)) ∧
      (signAt L cs n = 0 → |V| ≤ 2 * slope 0 cs / 2 ^ n) ∧
      (signAt L cs n = 1 ∨ signAt L cs n = -1 ∨ signAt L cs n = 0) := by
  obtain ⟨h1, h2, h3, h4⟩ := cosBelow_spec hL hev n
  have hP : (0 : ℝ) < 2 ^ n := by positivity
  set a := cosBelow L n with ha
  set x : ℝ := (a : ℝ) / 2 ^ n with hx
  have hx1 : -1 ≤ x := by
    rw [hx, le_div_iff₀ hP]
    have := (Int.cast_le (R := ℝ)).2 h1
    push_cast at this; linarith
  have hx2 : x ≤ 1 := by
    rw [hx, div_le_one hP]
    have := (Int.cast_le (R := ℝ)).2 h2
    push_cast at this; linarith
  set t := arccos x with ht
  have hcos : cos t = x := cos_arccos hx1 hx2
  have hax : (a : ℝ) = cos t * 2 ^ n := by rw [hcos, hx]; field_simp
  have hdist : |cos t - cos (2 * π / L)| ≤ 2 / 2 ^ n := by
    rw [hcos, hx, abs_le]
    constructor
    · rw [neg_le_sub_iff_le_add, ← add_div, le_div_iff₀ hP]; exact h4
    · rw [sub_le_iff_le_add]
      have : (a : ℝ) / 2 ^ n ≤ cos (2 * π / L) := by rw [div_le_iff₀ hP]; exact h3
      have : (0 : ℝ) ≤ 2 / 2 ^ n := by positivity
      linarith
  have hsum := chebyshevSum_eq (X := a) (p := ((2 ^ n : ℕ) : ℤ)) (q := ((4 ^ n : ℕ) : ℤ)) (P := 2 ^ n) (t := t)
    (by push_cast; rfl) hax (by push_cast; rw [← mul_pow]; norm_num) cs 0 0 1 a (by simp) (by rw [hax]; simp)
  refine ⟨cosSum t 0 cs, ?_, ?_⟩
  · rw [value_eq_cosSum]
    refine (cosSum_sub_le t (2 * π / L) cs 0).trans ?_
    have := mul_le_mul_of_nonneg_left hdist (Nat.cast_nonneg (α := ℝ) (slope 0 cs))
    refine this.trans (le_of_eq ?_)
    ring
  · obtain ⟨c, cs', rfl⟩ : ∃ c cs', cs = c :: cs' := by
      cases cs with
      | nil => exact absurd rfl hcs
      | cons c cs' => exact ⟨c, cs', rfl⟩
    set cs := c :: cs' with hcs'
    have hlen : cs.length = cs'.length + 1 := rfl
    have hv : ((chebyshevSum a ((2 ^ n : ℕ) : ℤ) ((4 ^ n : ℕ) : ℤ) 0 1 a cs * ((2 ^ n : ℕ) : ℤ) : ℤ) : ℝ)
        = 2 ^ (n * cs'.length) * (2 ^ n * cosSum t 0 cs) := by
      push_cast at hsum ⊢
      rw [hsum]
      rw [hlen]
      rw [pow_mul]
      ring
    have he : (((2 * slope 0 cs * 2 ^ (n * (cs.length - 1)) : ℕ) : ℤ) : ℝ)
        = 2 ^ (n * cs'.length) * (2 * slope 0 cs) := by
      rw [hlen, Nat.add_sub_cancel]
      push_cast
      ring
    have hQ : (0 : ℝ) < 2 ^ (n * cs'.length) := by positivity
    set V := cosSum t 0 cs with hV
    have key1 : ((2 * slope 0 cs * 2 ^ (n * (cs.length - 1)) : ℕ) : ℤ) <
        chebyshevSum a ((2 ^ n : ℕ) : ℤ) ((4 ^ n : ℕ) : ℤ) 0 1 a cs * ((2 ^ n : ℕ) : ℤ) ↔
        2 * (slope 0 cs : ℝ) / 2 ^ n < V := by
      rw [← Int.cast_lt (R := ℝ), hv, he, mul_lt_mul_iff_right₀ hQ, div_lt_iff₀ hP, mul_comm V]
    have key2 : chebyshevSum a ((2 ^ n : ℕ) : ℤ) ((4 ^ n : ℕ) : ℤ) 0 1 a cs * ((2 ^ n : ℕ) : ℤ) <
        -((2 * slope 0 cs * 2 ^ (n * (cs.length - 1)) : ℕ) : ℤ) ↔ V < -(2 * (slope 0 cs : ℝ) / 2 ^ n) := by
      rw [← Int.cast_lt (R := ℝ), Int.cast_neg, hv, he, ← mul_neg, mul_lt_mul_iff_right₀ hQ, ← neg_div,
        lt_div_iff₀ hP, mul_comm V]
    unfold signAt
    simp only [← ha]
    split_ifs with c1 c2
    · refine ⟨fun _ => key1.1 c1, by simp, by simp, by simp⟩
    · refine ⟨by simp, fun _ => key2.1 c2, by simp, by simp⟩
    · refine ⟨by simp, by simp, fun _ => ?_, by simp⟩
      rw [abs_le]
      have n1 := not_lt.1 (fun h => c1 (key1.2 h))
      have n2 := not_lt.1 (fun h => c2 (key2.2 h))
      exact ⟨n2, n1⟩

/-! ### The coefficients as an element of a ring with a root of unity -/

/-- `sum of cs[r] * z^(j+r)`. -/
def evalAt {R : Type*} [CommRing R] (z : R) : ℕ → List ℤ → R
  | _, [] => 0
  | j, c :: cs => (c : R) * z ^ j + evalAt z (j + 1) cs

section evalAt
variable {R S : Type*} [CommRing R] [CommRing S] (z : R)

theorem evalAt_shift (k : ℕ) (cs : List ℤ) : ∀ j, evalAt z (j + k) cs = z ^ k * evalAt z j cs := by
  induction cs with
  | nil => intro j; simp [evalAt]
  | cons c cs ih =>
    intro j
    simp only [evalAt]
    rw [show j + k + 1 = (j + 1) + k by omega, ih, pow_add]
    ring

theorem evalAt_append (as bs : List ℤ) : ∀ j, evalAt z j (as ++ bs) = evalAt z j as + evalAt z (j + as.length) bs := by
  induction as with
  | nil => intro j; simp [evalAt]
  | cons a as ih =>
    intro j
    simp only [evalAt, List.cons_append, ih, List.length_cons]
    rw [show j + 1 + as.length = j + (as.length + 1) by omega]
    ring

theorem evalAt_sub : ∀ (as bs : List ℤ) (_ : as.length = bs.length) (j : ℕ),
    evalAt z j (List.zipWith (· - ·) as bs) = evalAt z j as - evalAt z j bs
  | [], [], _, j => by simp [evalAt]
  | a :: as, b :: bs, h, j => by
    simp only [List.zipWith_cons_cons, evalAt, evalAt_sub as bs (by simpa using h)]
    push_cast
    ring

theorem evalAt_add : ∀ (as bs : List ℤ) (_ : as.length = bs.length) (j : ℕ),
    evalAt z j (List.zipWith (· + ·) as bs) = evalAt z j as + evalAt z j bs
  | [], [], _, j => by simp [evalAt]
  | a :: as, b :: bs, h, j => by
    simp only [List.zipWith_cons_cons, evalAt, evalAt_add as bs (by simpa using h)]
    push_cast
    ring

theorem evalAt_map (f : R →+* S) (cs : List ℤ) : ∀ j, f (evalAt z j cs) = evalAt (f z) j cs := by
  induction cs with
  | nil => intro j; simp [evalAt]
  | cons c cs ih => intro j; simp [evalAt, ih]

theorem evalAt_zero {cs : List ℤ} (h : cs.all (fun c => c == 0) = true) : ∀ j, evalAt z j cs = 0 := by
  induction cs with
  | nil => intro j; rfl
  | cons c cs ih =>
    intro j
    simp only [List.all_cons, Bool.and_eq_true, beq_iff_eq] at h
    simp [evalAt, h.1, ih h.2]

theorem evalAt_reverse {w : R} (hw : z * w = 1) (l : List ℤ) :
    ∀ k, z * evalAt z k l.reverse = z ^ (k + l.length) * evalAt w 0 l := by
  induction l with
  | nil => intro k; simp [evalAt]
  | cons c l ih =>
    intro k
    simp only [List.reverse_cons, evalAt_append, List.length_reverse, evalAt, mul_add, ih,
      List.length_cons]
    have := evalAt_shift w 1 l 0
    rw [this]
    linear_combination (-(z ^ (k + l.length) * evalAt w 0 l)) * hw

theorem evalAt_rotate {L r : ℕ} (hz : z ^ L = 1) (hr : r ≤ L) {cs : List ℤ} (hcs : cs.length = L) :
    evalAt z 0 (rotate r cs) = z ^ r * evalAt z 0 cs := by
  have h1 : evalAt z 0 cs = evalAt z 0 (cs.take (L - r)) + evalAt z (L - r) (cs.drop (L - r)) := by
    conv_lhs => rw [← List.take_append_drop (L - r) cs]
    rw [evalAt_append, List.length_take, hcs]
    congr 2
    omega
  unfold rotate
  rw [hcs, evalAt_append, h1, List.length_drop, hcs, mul_add]
  have h2 := evalAt_shift z (L - r) (cs.drop (L - r)) 0
  have h3 := evalAt_shift z r (cs.take (L - r)) 0
  have e : 0 + (L - (L - r)) = 0 + r := by omega
  rw [e, h3]
  rw [Nat.zero_add] at h2
  rw [h2, ← mul_assoc, ← pow_add, show r + (L - r) = L by omega, hz]
  ring

theorem rotate_length (r : ℕ) (cs : List ℤ) : (rotate r cs).length = cs.length := by
  simp [rotate]

end evalAt

theorem symmetrize_length (cs : List ℤ) : (symmetrize cs).length = cs.length := by
  cases cs <;> simp [symmetrize]

theorem evalAt_symmetrize {R : Type*} [CommRing R] {z w : R} (hw : z * w = 1) {cs : List ℤ}
    (hz : z ^ cs.length = 1) : evalAt z 0 (symmetrize cs) = evalAt z 0 cs + evalAt w 0 cs := by
  cases cs with
  | nil => simp [symmetrize, evalAt]
  | cons c cs =>
    simp only [symmetrize]
    rw [evalAt_add _ _ _ (by simp)]
    congr 1
    simp only [evalAt, pow_zero]
    congr 1
    have h := evalAt_reverse z hw cs 1
    rw [show 1 + cs.length = (c :: cs).length by simp [Nat.add_comm], hz, one_mul] at h
    have h1 := evalAt_shift w 1 cs 0
    rw [h1, ← h, pow_one, ← mul_assoc, mul_comm w z, hw, one_mul]

theorem evalAt_clearImprimitive {R : Type*} [CommRing R] [IsDomain R] {z : R} {L : ℕ} (hL : 0 < L)
    (hz : IsPrimitiveRoot z L) :
    ∀ (d : ℕ) (cs : List ℤ), cs.length = L →
      ∃ f : R, f ≠ 0 ∧ evalAt z 0 (clearImprimitive L d cs) = f * evalAt z 0 cs
  | 0, cs, _ => ⟨1, one_ne_zero, by simp [clearImprimitive]⟩
  | d + 1, cs, h => by
    unfold clearImprimitive
    split_ifs with hd
    · have hlen : (List.zipWith (· - ·) (rotate (L / (d + 1)) cs) cs).length = L := by
        simp [rotate_length, h]
      obtain ⟨f, hf, he⟩ := evalAt_clearImprimitive hL hz d _ hlen
      refine ⟨f * (z ^ (L / (d + 1)) - 1), mul_ne_zero hf ?_, ?_⟩
      · have hlt : L / (d + 1) < L := Nat.div_lt_self hL (by omega)
        have hpos : L / (d + 1) ≠ 0 := by
          have := Nat.div_mul_cancel (Nat.dvd_of_mod_eq_zero hd.2)
          intro h0
          rw [h0] at this
          omega
        exact sub_ne_zero.2 (hz.pow_ne_one_of_pos_of_lt hpos hlt)
      · rw [he, evalAt_sub _ _ _ (by simp [rotate_length]),
          evalAt_rotate z hz.pow_eq_one (Nat.div_le_self _ _) h]
        ring
    · exact evalAt_clearImprimitive hL hz d cs h

/-! ### The zero test -/

theorem evalAt_re (L : ℕ) (cs : List ℤ) :
    ∀ j, (evalAt (Complex.exp (2 * π * Complex.I / L)) j cs).re = value L j cs := by
  induction cs with
  | nil => intro j; simp [evalAt, value]
  | cons c cs ih =>
    intro j
    simp only [evalAt, value, Complex.add_re, ih]
    congr 1
    rw [← Complex.exp_nat_mul]
    have : (j : ℂ) * (2 * π * Complex.I / L) = ((2 * π * j / L : ℝ) : ℂ) * Complex.I := by
      push_cast; ring
    rw [this, show ((c : ℤ) : ℂ) = ((c : ℝ) : ℂ) by push_cast; rfl, Complex.re_ofReal_mul,
      Complex.exp_ofReal_mul_I_re]

theorem exp_mul_conj (L : ℕ) :
    Complex.exp (2 * π * Complex.I / L) * (starRingEnd ℂ) (Complex.exp (2 * π * Complex.I / L)) = 1 := by
  have : (2 * π * Complex.I / L : ℂ) = ((2 * π / L : ℝ) : ℂ) * Complex.I := by push_cast; ring
  rw [this, Complex.mul_conj, Complex.normSq_eq_norm_sq, Complex.norm_exp_ofReal_mul_I]
  simp

theorem evalAt_symmetrize_exp {L : ℕ} (hL : 0 < L) {cs : List ℤ} (hcs : cs.length = L) :
    evalAt (Complex.exp (2 * π * Complex.I / L)) 0 (symmetrize cs) = ((2 * value L 0 cs : ℝ) : ℂ) := by
  have hz := Complex.isPrimitiveRoot_exp L hL.ne'
  rw [evalAt_symmetrize (exp_mul_conj L) (by rw [hcs]; exact hz.pow_eq_one),
    ← evalAt_map _ (starRingEnd ℂ), Complex.add_conj, evalAt_re]

theorem value_eq_zero_of_isZero {L : ℕ} (hL : 0 < L) {cs : List ℤ} (hcs : cs.length = L)
    (h : isZero L cs = true) : value L 0 cs = 0 := by
  have hz := Complex.isPrimitiveRoot_exp L hL.ne'
  obtain ⟨f, hf, he⟩ := evalAt_clearImprimitive hL hz L (symmetrize cs) (by rw [symmetrize_length, hcs])
  have h0 := evalAt_zero (Complex.exp (2 * π * Complex.I / L)) (j := 0) h
  rw [h0, evalAt_symmetrize_exp hL hcs] at he
  have := (mul_eq_zero.1 he.symm).resolve_left hf
  have := Complex.ofReal_eq_zero.1 this
  linarith

/-! ### A non-zero value is not too small -/

theorem norm_evalAt_le {w : ℂ} (hw : ‖w‖ = 1) (cs : List ℤ) : ∀ j, ‖evalAt w j cs‖ ≤ (size cs : ℝ) := by
  induction cs with
  | nil => intro j; simp [evalAt, size]
  | cons c cs ih =>
    intro j
    have hs : size (c :: cs) = c.natAbs + size cs := rfl
    rw [hs]
    simp only [evalAt]
    refine (norm_add_le _ _).trans ?_
    rw [norm_mul, norm_pow, hw, one_pow, mul_one]
    push_cast
    refine add_le_add (le_of_eq ?_) (ih _)
    rw [Complex.norm_intCast, Nat.cast_natAbs]
    simp

theorem isIntegral_evalAt {K : Type*} [Field K] {z : K} (hz : IsIntegral ℤ z) (cs : List ℤ) :
    ∀ j, IsIntegral ℤ (evalAt z j cs) := by
  induction cs with
  | nil => intro j; exact isIntegral_zero
  | cons c cs ih =>
    intro j
    exact ((isIntegral_algebraMap (R := ℤ) (A := K) (x := c)).mul (hz.pow j)).add (ih _)

theorem value_lower_bound {L : ℕ} (hL : 0 < L) {cs : List ℤ} (hcs : cs.length = L) (hv : value L 0 cs ≠ 0) :
    1 ≤ |2 * value L 0 cs| * (2 * size cs : ℝ) ^ L := by
  classical
  set z : ℂ := Complex.exp (2 * π * Complex.I / L) with hzdef
  have hz : IsPrimitiveRoot z L := Complex.isPrimitiveRoot_exp L hL.ne'
  have hzint : IsIntegral ℚ z := (hz.isIntegral hL).tower_top
  let K := IntermediateField.adjoin ℚ {z}
  have : FiniteDimensional ℚ K := IntermediateField.adjoin.finiteDimensional hzint
  let ζ : K := IntermediateField.AdjoinSimple.gen ℚ z
  have hζz : (algebraMap K ℂ) ζ = z := IntermediateField.AdjoinSimple.algebraMap_gen ℚ z
  have hζL : ζ ^ L = 1 := by
    apply (algebraMap K ℂ).injective
    rw [map_pow, hζz, hz.pow_eq_one, map_one]
  have hζint : IsIntegral ℤ ζ := by
    refine ⟨Polynomial.X ^ L - 1, Polynomial.monic_X_pow_sub_C 1 hL.ne', ?_⟩
    simp [hζL]
  let b : K := evalAt ζ 0 (symmetrize cs)
  have hb : (algebraMap K ℂ) b = ((2 * value L 0 cs : ℝ) : ℂ) := by
    rw [evalAt_map ζ (algebraMap K ℂ), hζz]
    exact evalAt_symmetrize_exp hL hcs
  have hb0 : b ≠ 0 := by
    intro h
    rw [h, map_zero] at hb
    have := Complex.ofReal_eq_zero.1 hb.symm
    exact hv (by linarith)
  have hbint : IsIntegral ℤ b := isIntegral_evalAt hζint _ _
  -- the norm is a non-zero integer
  obtain ⟨N, hN⟩ := IsIntegrallyClosed.isIntegral_iff.1 (Algebra.isIntegral_norm ℚ hbint)
  have hN0 : N ≠ 0 := by
    rintro rfl
    rw [map_zero] at hN
    exact hb0 (Algebra.norm_eq_zero_iff.1 hN.symm)
  have hprod := Algebra.norm_eq_prod_embeddings ℚ ℂ b
  have hnorm : (1 : ℝ) ≤ ‖∏ σ : K →ₐ[ℚ] ℂ, σ b‖ := by
    rw [← hprod, ← hN]
    have : (algebraMap ℚ ℂ) ((algebraMap ℤ ℚ) N) = (N : ℂ) := by simp
    rw [this, Complex.norm_intCast]
    have : (1 : ℤ) ≤ |N| := Int.one_le_abs hN0
    exact_mod_cast this
  -- every conjugate is small
  have hconj : ∀ σ : K →ₐ[ℚ] ℂ, ‖σ b‖ ≤ 2 * (size cs : ℝ) := by
    intro σ
    have hσL : (σ ζ) ^ L = 1 := by rw [← map_pow, hζL, map_one]
    have hσ1 : ‖σ ζ‖ = 1 := Complex.norm_eq_one_of_pow_eq_one hσL hL.ne'
    have hinv : σ ζ * (σ ζ)⁻¹ = 1 := mul_inv_cancel₀ (by intro h; rw [h] at hσ1; simp at hσ1)
    have he : σ b = evalAt (σ ζ) 0 cs + evalAt (σ ζ)⁻¹ 0 cs := by
      have := evalAt_map ζ (σ : K →+* ℂ) (symmetrize cs) 0
      refine this.trans ?_
      exact evalAt_symmetrize hinv (by rw [hcs]; exact hσL)
    rw [he]
    have h1 := norm_evalAt_le hσ1 cs 0
    have h2 := norm_evalAt_le (w := (σ ζ)⁻¹) (by rw [norm_inv, hσ1, inv_one]) cs 0
    refine (norm_add_le _ _).trans ?_
    linarith
  -- the standard embedding is one of them
  let σ₀ : K →ₐ[ℚ] ℂ := IsScalarTower.toAlgHom ℚ K ℂ
  have hσ₀ : ‖σ₀ b‖ = |2 * value L 0 cs| := by
    have : σ₀ b = (algebraMap K ℂ) b := rfl
    rw [this, hb, Complex.norm_real, Real.norm_eq_abs]
  rw [← Finset.mul_prod_erase _ _ (Finset.mem_univ σ₀), norm_mul, norm_prod, hσ₀] at hnorm
  have hpos : 0 < |2 * value L 0 cs| := abs_pos.2 (by simpa using hv)
  have hsize : (1 : ℝ) ≤ 2 * (size cs : ℝ) := by
    by_contra hlt
    have h0 : size cs = 0 := by
      by_contra h
      have : (1 : ℝ) ≤ (size cs : ℝ) := by exact_mod_cast Nat.one_le_iff_ne_zero.2 h
      push Not at hlt
      linarith
    have := hconj σ₀
    rw [hσ₀, h0] at this
    have h2 := abs_nonneg (2 * value L 0 cs)
    have h3 : 2 * value L 0 cs = 0 := abs_eq_zero.1 (le_antisymm (by simpa using this) h2)
    exact hv (by linarith)
  have hcard : (Finset.univ.erase σ₀).card ≤ L := by
    refine (Finset.card_erase_le).trans ?_
    rw [Finset.card_univ, AlgHom.card, IntermediateField.adjoin.finrank hzint]
    refine Polynomial.natDegree_le_of_dvd (q := Polynomial.X ^ L - 1) ?_ ?_ |>.trans ?_
    · exact minpoly.dvd ℚ z (by simp [hz.pow_eq_one])
    · exact (Polynomial.monic_X_pow_sub_C (1 : ℚ) hL.ne').ne_zero
    · exact (Polynomial.natDegree_X_pow_sub_C (n := L) (r := (1 : ℚ))).le
  have hprodle : ∏ σ ∈ Finset.univ.erase σ₀, ‖σ b‖ ≤ (2 * (size cs : ℝ)) ^ L := by
    refine (Finset.prod_le_prod (fun _ _ => norm_nonneg _) (fun σ _ => hconj σ)).trans ?_
    rw [Finset.prod_const]
    exact pow_le_pow_right₀ hsize hcard
  exact hnorm.trans (by gcongr)

/-! ### The sign -/

theorem slope_le (cs : List ℤ) : ∀ (j M : ℕ), j + cs.length ≤ M → slope j cs ≤ size cs * (M * M) := by
  induction cs with
  | nil => intro j M _; simp [slope]
  | cons c cs ih =>
    intro j M h
    have hs : size (c :: cs) = c.natAbs + size cs := rfl
    rw [hs]
    simp only [slope, List.length_cons] at *
    have h1 := ih (j + 1) M (by omega)
    have h2 : j * j ≤ M * M := Nat.mul_le_mul (by omega) (by omega)
    have h3 := Nat.mul_le_mul_left c.natAbs h2
    rw [Nat.add_mul]
    omega

/-- With enough bits the sign of a non-zero value is settled. -/
theorem signAt_ne_zero {L : ℕ} (hL : 2 ≤ L) (hev : L % 2 = 0) {cs : List ℤ} (hcs : cs.length = L)
    (hv : value L 0 cs ≠ 0) {n : ℕ}
    (hn : 8 * size cs * (L * L) * (2 * size cs) ^ L < 2 ^ n) : signAt L cs n ≠ 0 := by
  intro h0
  have hne : cs ≠ [] := by rintro rfl; simp at hcs; omega
  obtain ⟨V, happ, -, -, h, -⟩ := signAt_approx hL hev cs hne n
  have hV := h h0
  have hP : (0 : ℝ) < 2 ^ n := by positivity
  have hle : |value L 0 cs| ≤ 4 * slope 0 cs / 2 ^ n := by
    have : |value L 0 cs| ≤ |V| + |V - value L 0 cs| := by
      have := abs_sub_abs_le_abs_sub (value L 0 cs) V
      rw [abs_sub_comm] at this
      linarith
    refine this.trans ((add_le_add hV happ).trans (le_of_eq ?_))
    ring
  have hlow := value_lower_bound (by omega) hcs hv
  have hslope : (slope 0 cs : ℝ) ≤ size cs * (L * L : ℝ) := by
    exact_mod_cast slope_le cs 0 L (by omega)
  have hn' : (8 * size cs * (L * L) * (2 * size cs) ^ L : ℝ) < 2 ^ n := by exact_mod_cast hn
  rw [abs_mul, abs_two] at hlow
  rw [le_div_iff₀ hP] at hle
  have hQ : (0 : ℝ) ≤ (2 * size cs : ℝ) ^ L := by positivity
  have h1 : (2 : ℝ) ^ n ≤ 2 * |value L 0 cs| * (2 * size cs : ℝ) ^ L * 2 ^ n := by nlinarith
  have h2 : 2 * |value L 0 cs| * (2 * size cs : ℝ) ^ L * 2 ^ n ≤ 8 * slope 0 cs * (2 * size cs : ℝ) ^ L := by
    nlinarith
  have h3 : 8 * (slope 0 cs : ℝ) * (2 * size cs : ℝ) ^ L ≤ 8 * (size cs * (L * L : ℝ)) * (2 * size cs : ℝ) ^ L := by
    gcongr
  nlinarith

theorem refine_eq_zero {L : ℕ} {cs : List ℤ} :
    ∀ (f n : ℕ), refine L cs f n = 0 → ∀ i < f, signAt L cs (n * 2 ^ i) = 0
  | 0, _, _ => by simp
  | f + 1, n, h => by
    simp only [Cyclotomic.refine] at h
    intro i hi
    split_ifs at h with hs
    · rcases i with _ | i
      · simpa using hs
      · have := refine_eq_zero f (2 * n) h i (by omega)
        rwa [show n * 2 ^ (i + 1) = 2 * n * 2 ^ i by ring]
    · exact absurd h hs

theorem refine_cases {L : ℕ} {cs : List ℤ} :
    ∀ (f n : ℕ), refine L cs f n = 0 ∨ ∃ m, refine L cs f n = signAt L cs m ∧ signAt L cs m ≠ 0
  | 0, _ => by simp [Cyclotomic.refine]
  | f + 1, n => by
    simp only [Cyclotomic.refine]
    split_ifs with hs
    · exact refine_cases f (2 * n)
    · exact .inr ⟨n, rfl, hs⟩

theorem doublings_enough {L : ℕ} (hL : 2 ≤ L) (cs : List ℤ) :
    8 * size cs * (L * L) * (2 * size cs) ^ L < 2 ^ (32 * 2 ^ (doublings L cs - 1)) := by
  set S := size cs with hS
  set s := Nat.log2 S with hs
  have h1 : S < 2 ^ (s + 1) := Nat.lt_log2_self
  have h2 : L < 2 ^ L := Nat.lt_two_pow_self
  have hb : 8 * S * (L * L) * (2 * S) ^ L ≤ 2 ^ (3 + (s + 1) + (L + L) + (s + 2) * L) := by
    have e : (2 : ℕ) ^ (3 + (s + 1) + (L + L) + (s + 2) * L)
        = 8 * 2 ^ (s + 1) * (2 ^ L * 2 ^ L) * (2 ^ (s + 2)) ^ L := by
      rw [Nat.pow_add, Nat.pow_add, Nat.pow_mul, Nat.pow_add 2 3 (s + 1), Nat.pow_add 2 L L]
    rw [e]
    have h3 : 2 * S ≤ 2 ^ (s + 2) := by
      have : (2 : ℕ) ^ (s + 2) = 2 * 2 ^ (s + 1) := by ring
      omega
    gcongr
  refine hb.trans_lt (Nat.pow_lt_pow_right (by norm_num) ?_)
  set T := L * (s + 2) + 2 * L + s + 8 with hT
  have hd : doublings L cs = Nat.log2 T + 1 := by
    unfold doublings
    rw [← hS, ← hs]
  rw [hd, Nat.add_sub_cancel]
  have h4 : T < 2 ^ (Nat.log2 T + 1) := Nat.lt_log2_self
  have h5 : (2 : ℕ) ^ (Nat.log2 T + 1) = 2 * 2 ^ Nat.log2 T := by ring
  have h6 : (s + 2) * L = L * (s + 2) := Nat.mul_comm _ _
  omega

/-- `Cyclotomic.sign` is the sign of the value. -/
theorem sign_eq {L : ℕ} (hL : 2 ≤ L) (hev : L % 2 = 0) {cs : List ℤ} (hcs : cs.length = L) :
    (0 < value L 0 cs → sign L cs = 1) ∧ (value L 0 cs < 0 → sign L cs = -1) ∧
      (value L 0 cs = 0 → sign L cs = 0) := by
  have hne : cs ≠ [] := by rintro rfl; simp at hcs; omega
  have hpos : ∀ n, signAt L cs n = 1 → 0 < value L 0 cs := by
    intro n h
    obtain ⟨V, happ, h1, -⟩ := signAt_approx hL hev cs hne n
    have := h1 h
    have := (abs_le.1 happ).2
    linarith
  have hneg : ∀ n, signAt L cs n = -1 → value L 0 cs < 0 := by
    intro n h
    obtain ⟨V, happ, -, h1, -⟩ := signAt_approx hL hev cs hne n
    have := h1 h
    have := (abs_le.1 happ).1
    linarith
  have htri : ∀ n, signAt L cs n = 1 ∨ signAt L cs n = -1 ∨ signAt L cs n = 0 := fun n => by
    obtain ⟨V, -, -, -, -, h⟩ := signAt_approx hL hev cs hne n
    exact h
  have hnz : value L 0 cs ≠ 0 → isZero L cs = false ∧ refine L cs (doublings L cs) 32 ≠ 0 := by
    intro hv
    refine ⟨?_, fun h => ?_⟩
    · by_contra h
      exact hv (value_eq_zero_of_isZero (by omega) hcs (by simpa using h))
    · have := refine_eq_zero _ _ h (doublings L cs - 1) (by unfold doublings; omega)
      exact signAt_ne_zero hL hev hcs hv (doublings_enough hL cs) this
  unfold sign
  rcases refine_cases (L := L) (cs := cs) (doublings L cs) 32 with hr | ⟨m, hr, hm⟩
  · refine ⟨fun h => absurd hr (hnz h.ne').2, fun h => absurd hr (hnz h.ne).2, fun _ => ?_⟩
    rw [hr]; cases isZero L cs <;> rfl
  · rcases htri m with h1 | h1 | h1
    · have hp := hpos m h1
      refine ⟨fun _ => ?_, fun h => absurd hp (by linarith), fun h => absurd h hp.ne'⟩
      rw [(hnz hp.ne').1, hr, h1]; rfl
    · have hp := hneg m h1
      refine ⟨fun h => absurd hp (by linarith), fun _ => ?_, fun h => absurd h hp.ne⟩
      rw [(hnz hp.ne).1, hr, h1]; rfl
    · exact absurd h1 hm

end Sys2Proof.Cyclotomic
end

