-- ==== Sys2Proof/Laws/Magnitude.lean ====
section
/-! SUPPORT. Exact magnitudes: `ExactMag.lt` is the order of the real numbers, the threshold test is the comparison of
R187, and the exact instance of `NUM.spectrum` gives the magnitudes of R166 to R171 (log entry 11). -/

namespace Sys2Proof

open Real Sys2Proof.Cyclotomic

/-! ### Comparison -/

/-- The square a magnitude stands for. -/
noncomputable def ExactMag.square (m : ExactMag) : ℝ := value m.order 0 m.coeffs / (m.den : ℝ)

theorem ExactMag.wf_iff {m : ExactMag} :
    m.wf = true ↔ 0 < m.order ∧ m.order % 2 = 0 ∧ m.coeffs.length = m.order ∧ 0 < m.den := by
  simp [ExactMag.wf, and_assoc]

theorem lift_length {m : ℕ} (hm : 0 < m) (cs : List ℤ) : (lift m cs).length = cs.length * m := by
  induction cs with
  | nil => simp [lift]
  | cons c cs ih =>
    simp only [lift, List.cons_append, List.length_cons, List.length_append, List.length_replicate, ih]
    rw [Nat.add_mul]
    omega

theorem value_zeros (L : ℕ) (n : ℕ) : ∀ j, value L j (List.replicate n 0) = 0 := by
  induction n with
  | zero => intro j; rfl
  | succ n ih => intro j; simp [List.replicate_succ, value, ih]

theorem value_append (L : ℕ) (as bs : List ℤ) : ∀ j, value L j (as ++ bs) = value L j as + value L (j + as.length) bs := by
  induction as with
  | nil => intro j; simp [value]
  | cons a as ih =>
    intro j
    simp only [value, List.cons_append, ih, List.length_cons]
    rw [show j + 1 + as.length = j + (as.length + 1) by omega]
    ring

theorem value_lift {L m : ℕ} (hm : 0 < m) (cs : List ℤ) :
    ∀ j, value (L * m) (j * m) (lift m cs) = value L j cs := by
  induction cs with
  | nil => intro j; rfl
  | cons c cs ih =>
    intro j
    have hm' : (m : ℝ) ≠ 0 := by exact_mod_cast hm.ne'
    simp only [lift, List.cons_append, value]
    rw [value_append, value_zeros, List.length_replicate, zero_add,
      show j * m + 1 + (m - 1) = (j + 1) * m by rw [Nat.add_mul]; omega, ih]
    congr 3
    push_cast
    rw [show 2 * π * ((j : ℝ) * m) = 2 * π * j * m by ring, mul_div_mul_right _ _ hm']

theorem value_combine (L : ℕ) (a b : ℤ) : ∀ (cs ds : List ℤ) (_ : cs.length = ds.length) (j : ℕ),
    value L j (combine a cs b ds) = a * value L j cs - b * value L j ds
  | [], [], _, j => by simp [combine, value]
  | c :: cs, d :: ds, h, j => by
    have ih := value_combine L a b cs ds (by simpa using h) (j + 1)
    simp only [combine, List.zipWith_cons_cons, value] at *
    rw [ih]
    push_cast
    ring

theorem ExactMag.compareScaled_eq {m m' : ExactMag} (hm : m.wf = true) (hm' : m'.wf = true) (a b : ℕ) :
    (0 < a * m.square - b * m'.square → compareScaled a m b m' = 1) ∧
      (a * m.square - b * m'.square < 0 → compareScaled a m b m' = -1) ∧
      (a * m.square - b * m'.square = 0 → compareScaled a m b m' = 0) := by
  obtain ⟨h1, h2, h3, h4⟩ := ExactMag.wf_iff.1 hm
  obtain ⟨g1, g2, g3, g4⟩ := ExactMag.wf_iff.1 hm'
  set L := Nat.lcm m.order m'.order with hL
  have hLpos : 0 < L := Nat.lcm_pos h1 g1
  obtain ⟨k, hk⟩ : m.order ∣ L := Nat.dvd_lcm_left _ _
  obtain ⟨k', hk'⟩ : m'.order ∣ L := Nat.dvd_lcm_right _ _
  have hk0 : 0 < k := Nat.pos_of_ne_zero (by rintro rfl; omega)
  have hk0' : 0 < k' := Nat.pos_of_ne_zero (by rintro rfl; omega)
  have hdiv : L / m.order = k := by rw [hk, Nat.mul_div_cancel_left _ h1]
  have hdiv' : L / m'.order = k' := by rw [hk', Nat.mul_div_cancel_left _ g1]
  have hev : L % 2 = 0 := by
    have : 2 ∣ L := (Nat.dvd_of_mod_eq_zero h2).trans (Nat.dvd_lcm_left _ _)
    omega
  have hL2 : 2 ≤ L := by omega
  have hl : (lift k m.coeffs).length = L := by rw [lift_length hk0, h3, hk]
  have hl' : (lift k' m'.coeffs).length = L := by rw [lift_length hk0', g3, hk']
  have hlen : (combine ((a * m'.den : ℕ) : ℤ) (lift k m.coeffs) ((b * m.den : ℕ) : ℤ) (lift k' m'.coeffs)).length = L := by
    simp [combine, hl, hl']
  have hval : value L 0 (combine ((a * m'.den : ℕ) : ℤ) (lift k m.coeffs) ((b * m.den : ℕ) : ℤ) (lift k' m'.coeffs))
      = (m.den * m'.den : ℝ) * (a * m.square - b * m'.square) := by
    have e1 : value L 0 (lift k m.coeffs) = value m.order 0 m.coeffs := by
      have := value_lift (L := m.order) hk0 m.coeffs 0
      rwa [← hk, Nat.zero_mul] at this
    have e2 : value L 0 (lift k' m'.coeffs) = value m'.order 0 m'.coeffs := by
      have := value_lift (L := m'.order) hk0' m'.coeffs 0
      rwa [← hk', Nat.zero_mul] at this
    rw [value_combine _ _ _ _ _ (hl.trans hl'.symm), e1, e2]
    unfold ExactMag.square
    have : (m.den : ℝ) ≠ 0 := by exact_mod_cast h4.ne'
    have : (m'.den : ℝ) ≠ 0 := by exact_mod_cast g4.ne'
    push_cast
    field_simp
  have hs := sign_eq hL2 hev hlen
  rw [hval] at hs
  have hd : (0 : ℝ) < m.den * m'.den := by
    have : (0 : ℝ) < m.den := by exact_mod_cast h4
    have : (0 : ℝ) < m'.den := by exact_mod_cast g4
    positivity
  have hdef : compareScaled a m b m' =
      sign L (combine ((a * m'.den : ℕ) : ℤ) (lift k m.coeffs) ((b * m.den : ℕ) : ℤ) (lift k' m'.coeffs)) := by
    change sign L (combine _ (lift (L / m.order) m.coeffs) _ (lift (L / m'.order) m'.coeffs)) = _
    rw [hdiv, hdiv']
  rw [hdef]
  refine ⟨fun h => hs.1 (mul_pos hd h), fun h => hs.2.1 (mul_neg_of_pos_of_neg hd h), fun h => hs.2.2 (by rw [h, mul_zero])⟩

/-- `ExactMag.lt` is the order of the squares, whatever their signs. -/
theorem ExactMag.lt_iff_square {m m' : ExactMag} (hm : m.wf = true) (hm' : m'.wf = true) :
    m.lt m' = true ↔ m.square < m'.square := by
  obtain ⟨h1, h2, h3⟩ := ExactMag.compareScaled_eq hm hm' 1 1
  simp only [Nat.cast_one, one_mul] at h1 h2 h3
  unfold ExactMag.lt
  rw [decide_eq_true_iff]
  constructor
  · intro h
    by_contra hc
    rcases (not_lt.1 hc).lt_or_eq with h' | h'
    · rw [h1 (by linarith)] at h; omega
    · rw [h3 (by linarith)] at h; omega
  · intro h
    rw [h2 (by linarith)]
    omega

/-- `ExactMag.lt` is the order of the real numbers (R176). -/
theorem ExactMag.lt_iff {m m' : ExactMag} (hm : m.wf = true) (hm' : m'.wf = true) (h0 : 0 ≤ m.square) :
    m.lt m' = true ↔ m.toReal < m'.toReal := by
  rw [ExactMag.lt_iff_square hm hm']
  exact (Real.sqrt_lt_sqrt_iff h0).symm

/-! ### Rational magnitudes -/

theorem ExactMag.ofRat_wf (r : ℚ) : (ExactMag.ofRat r).wf = true := by
  rw [ExactMag.wf_iff]
  refine ⟨by simp [ExactMag.ofRat], by simp [ExactMag.ofRat], by simp [ExactMag.ofRat], ?_⟩
  have := r.den_pos
  simp only [ExactMag.ofRat]
  positivity

theorem ExactMag.ofRat_square (r : ℚ) : (ExactMag.ofRat r).square = (r : ℝ) ^ 2 := by
  simp only [ExactMag.square, ExactMag.ofRat, value]
  simp
  conv_rhs => rw [Rat.cast_def]
  rw [div_pow]
  ring

theorem ExactMag.ofRat_toReal (r : ℚ) : (ExactMag.ofRat r).toReal = |(r : ℝ)| := by
  change √((ExactMag.ofRat r).square) = _
  rw [ExactMag.ofRat_square, Real.sqrt_sq_eq_abs]

/-! ### Products with the conjugate -/

/-- The element of the ring that a list of terms stands for. -/
def termsVal {R : Type*} [CommRing R] (z : R) (ts : Terms) : R :=
  (ts.map (fun t => (t.1 : R) * z ^ t.2)).sum

theorem addAt_length (a : ℤ) (cs : List ℤ) : ∀ e, (addAt a e cs).length = cs.length := by
  induction cs with
  | nil => intro e; cases e <;> rfl
  | cons c cs ih => intro e; cases e <;> simp [addAt, ih]

theorem evalAt_addAt {R : Type*} [CommRing R] (z : R) (a : ℤ) (cs : List ℤ) :
    ∀ (e j : ℕ), e < cs.length → evalAt z j (addAt a e cs) = evalAt z j cs + a * z ^ (j + e) := by
  induction cs with
  | nil => intro e j h; simp at h
  | cons c cs ih =>
    intro e j h
    cases e with
    | zero => simp only [addAt, evalAt]; push_cast; ring
    | succ e =>
      simp only [addAt, evalAt]
      rw [ih e (j + 1) (by simpa using h), show j + 1 + e = j + (e + 1) by omega]
      ring

section product
variable {R : Type*} [CommRing R] {z w : R} {L : ℕ}

theorem pow_turn (hz : z ^ L = 1) (hw : z * w = 1) {i e : ℕ} (he : e ≤ L) :
    z ^ ((i + (L - e)) % L) = z ^ i * w ^ e := by
  have h : z ^ ((i + (L - e)) % L) = z ^ (i + (L - e)) := by
    conv_rhs => rw [← Nat.div_add_mod (i + (L - e)) L, pow_add, pow_mul, hz, one_pow, one_mul]
  rw [h, pow_add]
  congr 1
  have h2 : z ^ (L - e) * (z ^ e * w ^ e) = w ^ e := by
    rw [← mul_assoc, ← pow_add, Nat.sub_add_cancel he, hz, one_mul]
  rw [← mul_pow, hw, one_pow, mul_one] at h2
  exact h2

theorem addRow_spec (hL : 0 < L) (hz : z ^ L = 1) (hw : z * w = 1) (a : ℤ) (i : ℕ) (ts : Terms) :
    ∀ acc : List ℤ, acc.length = L → (∀ t ∈ ts, t.2 ≤ L) →
      (addRow L a i ts acc).length = L ∧
        evalAt z 0 (addRow L a i ts acc) = evalAt z 0 acc + (a * z ^ i) * termsVal w ts := by
  induction ts with
  | nil => intro acc h _; simp [addRow, termsVal, h]
  | cons t ts ih =>
    intro acc h ht
    have hmod : (i + (L - t.2)) % L < acc.length := by rw [h]; exact Nat.mod_lt _ hL
    obtain ⟨h1, h2⟩ := ih (addAt (a * t.1) ((i + (L - t.2)) % L) acc) (by rw [addAt_length, h])
      (fun t' ht' => ht t' (List.mem_cons_of_mem _ ht'))
    have e : addRow L a i (t :: ts) acc = addRow L a i ts (addAt (a * t.1) ((i + (L - t.2)) % L) acc) := rfl
    rw [e]
    refine ⟨h1, ?_⟩
    rw [h2, evalAt_addAt _ _ _ _ _ hmod, Nat.zero_add, pow_turn hz hw (ht t (by simp))]
    simp only [termsVal, List.map_cons, List.sum_cons]
    push_cast
    ring

theorem normSq_fold (hL : 0 < L) (hz : z ^ L = 1) (hw : z * w = 1) (ts : Terms) (hts : ∀ t ∈ ts, t.2 ≤ L)
    (us : Terms) : ∀ acc : List ℤ, acc.length = L →
      (us.foldl (fun acc t => addRow L t.1 t.2 ts acc) acc).length = L ∧
        evalAt z 0 (us.foldl (fun acc t => addRow L t.1 t.2 ts acc) acc)
          = evalAt z 0 acc + termsVal z us * termsVal w ts := by
  induction us with
  | nil => intro acc h; simp [termsVal, h]
  | cons u us ih =>
    intro acc h
    obtain ⟨h1, h2⟩ := addRow_spec hL hz hw u.1 u.2 ts acc h hts
    obtain ⟨h3, h4⟩ := ih _ h1
    refine ⟨h3, ?_⟩
    simp only [List.foldl_cons]
    rw [h4, h2]
    simp only [termsVal, List.map_cons, List.sum_cons]
    ring

theorem evalAt_zeros (z : R) (n : ℕ) : ∀ j, evalAt z j (List.replicate n 0) = 0 := by
  induction n with
  | zero => intro j; rfl
  | succ n ih => intro j; simp [List.replicate_succ, evalAt, ih]

theorem normSq_spec (hL : 0 < L) (hz : z ^ L = 1) (hw : z * w = 1) (ts : Terms) (hts : ∀ t ∈ ts, t.2 ≤ L) :
    (normSq L ts).length = L ∧ evalAt z 0 (normSq L ts) = termsVal z ts * termsVal w ts := by
  have := normSq_fold hL hz hw ts hts ts (List.replicate L 0) (by simp)
  rw [evalAt_zeros, zero_add] at this
  exact this

end product

theorem normSq_length {L : ℕ} (ts : Terms) : (normSq L ts).length = L := by
  have hrow : ∀ (a : ℤ) (i : ℕ) (us : Terms) (acc : List ℤ), (addRow L a i us acc).length = acc.length := by
    intro a i us
    induction us with
    | nil => intro acc; rfl
    | cons u us ih =>
      intro acc
      have e : addRow L a i (u :: us) acc = addRow L a i us (addAt (a * u.1) ((i + (L - u.2)) % L) acc) := rfl
      rw [e, ih, addAt_length]
  have hfold : ∀ (us : Terms) (acc : List ℤ),
      (us.foldl (fun acc t => addRow L t.1 t.2 ts acc) acc).length = acc.length := by
    intro us
    induction us with
    | nil => intro acc; rfl
    | cons u us ih => intro acc; simp only [List.foldl_cons]; rw [ih, hrow]
  have := hfold ts (List.replicate L 0)
  rw [List.length_replicate] at this
  exact this

/-! ### The exact spectrum -/

namespace Machine

theorem windowOf_d_pos (sel : BitVec 1) : 0 < (windowOf sel).d := by
  unfold windowOf
  split <;> decide

theorem win_eq (sel : BitVec 1) (N n : ℕ) :
    Reference.win sel N n = ((windowOf sel).a - 2 * (windowOf sel).b * cos (2 * π * n / ((N : ℝ) - 1))) / (windowOf sel).d := by
  unfold Reference.win windowOf
  split_ifs
  · simp only [Reference.hann, hannWindow]; push_cast; ring
  · simp only [Reference.hamming, hammingWindow]; push_cast; ring

theorem f32Units_value (u : Word) : (f32Units u : ℝ) = 2 ^ 149 * Reference.f32Value u := by
  unfold f32Units Reference.f32Value
  by_cases he : f32Exponent u = 0
  · simp only [he, if_true]
    have h : (2 : ℝ) ^ (-126 : ℤ) = 1 / 2 ^ 126 := by norm_num
    cases f32Sign u <;> simp [h] <;> ring
  · simp only [he, if_false]
    have h : (2 : ℝ) ^ ((f32Exponent u : ℤ) - 127) * 2 ^ 149 = 2 ^ 23 * 2 ^ (f32Exponent u - 1) := by
      rw [← zpow_natCast, ← zpow_natCast, ← zpow_natCast, ← zpow_add₀ (by norm_num), ← zpow_add₀ (by norm_num)]
      congr 1
      have : 1 ≤ f32Exponent u := Nat.one_le_iff_ne_zero.2 he
      push_cast [Nat.cast_sub this]
      ring
    cases f32Sign u <;> simp <;> linear_combination (-(1 + (f32Fraction u : ℝ) / 2 ^ 23)) * h

theorem sampleUnits_value (x : Sample) : (sampleUnits x : ℝ) = 2 ^ 149 * Reference.sampleValue x := by
  cases x with
  | f32 u => exact f32Units_value u
  | i32 v => simp only [sampleUnits, Reference.sampleValue]; push_cast; ring

section
variable {R : Type*} [CommRing R] {z w : R} {N : ℕ}

theorem termsVal_append (z : R) (as bs : Terms) : termsVal z (as ++ bs) = termsVal z as + termsVal z bs := by
  simp [termsVal]

theorem pow_mod_turn {L : ℕ} (hz : z ^ L = 1) (e : ℕ) : z ^ (e % L) = z ^ e := by
  conv_rhs => rw [← Nat.div_add_mod e L, pow_add, pow_mul, hz, one_pow, one_mul]

theorem spectrumOrder_pos (hN : 2 ≤ N) : 0 < spectrumOrder N :=
  Nat.mul_pos (by omega) (by omega)

/-- The terms of one windowed sample, as a ring element. -/
theorem termsVal_sampleTerms (win : Window) (hN : 2 ≤ N) (hz : z ^ spectrumOrder N = 1) (hw : z * w = 1)
    (k n : ℕ) (x : ℤ) :
    termsVal z (sampleTerms win N k n x)
      = x * w ^ (k * n * (N - 1)) * (win.a - win.b * (z ^ (n * N) + w ^ (n * N))) := by
  have hwL : w ^ spectrumOrder N = 1 := by
    have : (z * w) ^ spectrumOrder N = 1 := by rw [hw, one_pow]
    rwa [mul_pow, hz, one_mul] at this
  set L := spectrumOrder N with hL
  have hLp : 0 < L := spectrumOrder_pos hN
  unfold sampleTerms
  split_ifs with hx
  · simp [termsVal, hx]
  · have hturn : z ^ ((L - (k * n * (N - 1)) % L) % L) = w ^ (k * n * (N - 1)) := by
      have := pow_turn (i := 0) hz hw (Nat.mod_lt (k * n * (N - 1)) hLp).le
      rw [Nat.zero_add, pow_zero, one_mul, pow_mod_turn hwL] at this
      exact this
    have hu : z ^ ((n * N) % L) = z ^ (n * N) := pow_mod_turn hz _
    have hu' := pow_turn (i := (L - (k * n * (N - 1)) % L) % L) hz hw (Nat.mod_lt (n * N) hLp).le
    rw [pow_mod_turn hwL] at hu'
    have hmid : z ^ (((L - k * n * (N - 1) % L) % L + (n * N) % L) % L) = w ^ (k * n * (N - 1)) * z ^ (n * N) := by
      rw [pow_mod_turn hz, pow_add, hturn, hu]
    simp only [termsVal, List.map_cons, List.map_nil, List.sum_cons, List.sum_nil, ← hL]
    rw [hu', hmid, hturn]
    push_cast
    ring

theorem termsVal_coefficientTerms (win : Window) (hN : 2 ≤ N) (hz : z ^ spectrumOrder N = 1) (hw : z * w = 1)
    (k : ℕ) (xs : List ℤ) : ∀ n, termsVal z (coefficientTerms win N k n xs)
      = ∑ r ∈ Finset.range xs.length, (xs.getD r 0 : R) * w ^ (k * (n + r) * (N - 1)) *
          (win.a - win.b * (z ^ ((n + r) * N) + w ^ ((n + r) * N))) := by
  induction xs with
  | nil => intro n; simp [coefficientTerms, termsVal]
  | cons x xs ih =>
    intro n
    rw [coefficientTerms, termsVal_append, termsVal_sampleTerms win hN hz hw, ih, List.length_cons,
      Finset.sum_range_succ']
    rw [add_comm]
    congr 1
    refine Finset.sum_congr rfl (fun r _ => ?_)
    rw [show n + 1 + r = n + (r + 1) by omega]
    simp

theorem sampleTerms_le (win : Window) (hN : 2 ≤ N) (k n : ℕ) (x : ℤ) :
    ∀ t ∈ sampleTerms win N k n x, t.2 ≤ spectrumOrder N := by
  intro t ht
  have hLp := spectrumOrder_pos hN
  unfold sampleTerms at ht
  split_ifs at ht
  · simp at ht
  · simp only [List.mem_cons, List.not_mem_nil, or_false] at ht
    rcases ht with rfl | rfl | rfl <;> exact (Nat.mod_lt _ hLp).le

theorem coefficientTerms_le (win : Window) (hN : 2 ≤ N) (k : ℕ) (xs : List ℤ) :
    ∀ n, ∀ t ∈ coefficientTerms win N k n xs, t.2 ≤ spectrumOrder N := by
  induction xs with
  | nil => intro n t ht; simp [coefficientTerms] at ht
  | cons x xs ih =>
    intro n t ht
    rw [coefficientTerms, List.mem_append] at ht
    rcases ht with ht | ht
    · exact sampleTerms_le win hN k n x t ht
    · exact ih _ t ht

end

theorem exactMagnitude_wf (win : Window) (hd : 0 < win.d) {N : ℕ} (hN : 2 ≤ N) (frame : List ℤ) (k : ℕ) :
    (exactMagnitude win N frame k).wf = true := by
  rw [ExactMag.wf_iff]
  refine ⟨spectrumOrder_pos hN, ?_, normSq_length _, ?_⟩
  · change (N * (N - 1)) % 2 = 0
    rcases Nat.even_or_odd N with h | h
    · exact Nat.even_iff.1 (h.mul_right _)
    · exact Nat.even_iff.1 ((Nat.Odd.sub_odd h odd_one).mul_left _)
  · have : 0 < (2 ^ 149 * win.d) ^ 2 := by positivity
    exact this

/-- The coefficient `X[k]` of the exact instance, in its units, is the one of R170. -/
theorem coefficient_eq (sel : BitVec 1) {N : ℕ} (hN : 2 ≤ N) (x : List Sample) (hx : x.length = N) (k : ℕ) :
    termsVal (Complex.exp (2 * π * Complex.I / (spectrumOrder N : ℕ)))
        (coefficientTerms (windowOf sel) N k 0 (x.map sampleUnits))
      = ((2 ^ 149 * (windowOf sel).d : ℝ) : ℂ) *
          ((Reference.rePart sel N x k : ℝ) + (Reference.imPart sel N x k : ℝ) * Complex.I) := by
  set L := spectrumOrder N with hLdef
  have hL : 0 < L := spectrumOrder_pos hN
  set z := Complex.exp (2 * π * Complex.I / (L : ℕ)) with hz
  set w := (starRingEnd ℂ) z with hw
  have hzL : z ^ L = 1 := (Complex.isPrimitiveRoot_exp L hL.ne').pow_eq_one
  have hzw : z * w = 1 := exp_mul_conj L
  have hN1 : (0 : ℝ) < (N : ℝ) - 1 := by
    have : (2 : ℝ) ≤ N := by exact_mod_cast hN
    linarith
  have hN0 : (0 : ℝ) < N := by linarith
  have hLr : (L : ℝ) = N * ((N : ℝ) - 1) := by
    rw [hLdef, spectrumOrder, Nat.cast_mul, Nat.cast_sub (by omega)]; simp
  have hzpow : ∀ e : ℕ, z ^ e = Complex.exp (((2 * π * e / L : ℝ) : ℂ) * Complex.I) := by
    intro e
    rw [hz, ← Complex.exp_nat_mul]
    congr 1
    push_cast
    ring
  have hwpow : ∀ e : ℕ, w ^ e = Complex.exp (-((2 * π * e / L : ℝ) : ℂ) * Complex.I) := by
    intro e
    rw [hw, ← map_pow, hzpow, ← Complex.exp_conj]
    congr 1
    rw [map_mul, Complex.conj_ofReal, Complex.conj_I]
    ring
  rw [termsVal_coefficientTerms _ hN hzL hzw, List.length_map, hx]
  have hd : ((windowOf sel).d : ℝ) ≠ 0 := by exact_mod_cast (windowOf_d_pos sel).ne'
  unfold Reference.rePart Reference.imPart
  rw [Complex.ofReal_neg, Complex.ofReal_sum, Complex.ofReal_sum, neg_mul, Finset.sum_mul, ← sub_eq_add_neg,
    ← Finset.sum_sub_distrib, Finset.mul_sum]
  refine Finset.sum_congr rfl (fun n hn => ?_)
  have hn' : n < N := Finset.mem_range.1 hn
  have hget : ((x.map sampleUnits).getD n 0 : ℝ) = 2 ^ 149 * Reference.sampleValue (x.getD n (.i32 0)) := by
    have hlt : n < x.length := by omega
    rw [List.getD_eq_getElem _ _ (by simpa using hlt), List.getD_eq_getElem _ _ hlt, List.getElem_map,
      sampleUnits_value]
  have hgetc : ((x.map sampleUnits).getD n 0 : ℂ) = ((2 ^ 149 * Reference.sampleValue (x.getD n (.i32 0)) : ℝ) : ℂ) := by
    rw [← hget]; push_cast; rfl
  rw [hgetc, Nat.zero_add, hzpow, hwpow, hwpow]
  have a1 : 2 * π * ((k * n * (N - 1) : ℕ) : ℝ) / L = 2 * π * k * n / N := by
    rw [hLr]; push_cast [Nat.cast_sub (show 1 ≤ N by omega)]; field_simp
  have a2 : 2 * π * ((n * N : ℕ) : ℝ) / L = 2 * π * n / ((N : ℝ) - 1) := by
    rw [hLr]; push_cast; field_simp
  rw [a1, a2]
  set A : ℝ := 2 * π * k * n / N with hA
  set B : ℝ := 2 * π * n / ((N : ℝ) - 1) with hB
  have e1 : Complex.exp ((B : ℂ) * Complex.I) + Complex.exp (-(B : ℂ) * Complex.I) = 2 * ((cos B : ℝ) : ℂ) := by
    rw [Complex.ofReal_cos, Complex.two_cos]
  have e2 : Complex.exp (-(A : ℂ) * Complex.I) = ((cos A : ℝ) : ℂ) - ((sin A : ℝ) : ℂ) * Complex.I := by
    rw [← Complex.ofReal_neg, Complex.exp_mul_I, ← Complex.ofReal_cos, ← Complex.ofReal_sin, cos_neg, sin_neg]
    push_cast
    ring
  rw [e1, e2]
  have hwin : ((Reference.windowed sel N x n : ℝ) : ℂ) =
      ((Reference.sampleValue (x.getD n (.i32 0)) : ℝ) : ℂ) *
        (((windowOf sel).a - 2 * (windowOf sel).b * ((cos B : ℝ) : ℂ)) / (windowOf sel).d) := by
    unfold Reference.windowed
    rw [win_eq]
    push_cast
    rw [hB]
    push_cast
    rfl
  rw [Complex.ofReal_mul (Reference.windowed sel N x n), Complex.ofReal_mul (Reference.windowed sel N x n), hwin]
  have hdc : ((windowOf sel).d : ℂ) ≠ 0 := by exact_mod_cast (windowOf_d_pos sel).ne'
  generalize cos A = cA, sin A = sA, cos B = cB
  push_cast
  field_simp

/-- The square of a magnitude of the exact instance is `Re(X[k])^2 + Im(X[k])^2`. -/
theorem exactMagnitude_square (sel : BitVec 1) {N : ℕ} (hN : 2 ≤ N) (x : List Sample) (hx : x.length = N) (k : ℕ) :
    (exactMagnitude (windowOf sel) N (x.map sampleUnits) k).square
      = Reference.rePart sel N x k ^ 2 + Reference.imPart sel N x k ^ 2 := by
  set L := spectrumOrder N with hLdef
  have hL : 0 < L := spectrumOrder_pos hN
  set z := Complex.exp (2 * π * Complex.I / (L : ℕ)) with hz
  have hzL : z ^ L = 1 := (Complex.isPrimitiveRoot_exp L hL.ne').pow_eq_one
  have hzw := exp_mul_conj L
  set ts := coefficientTerms (windowOf sel) N k 0 (x.map sampleUnits) with hts
  have hconj : termsVal ((starRingEnd ℂ) z) ts = (starRingEnd ℂ) (termsVal z ts) := by
    unfold termsVal
    rw [map_list_sum, List.map_map]
    congr 1
    apply List.map_congr_left
    intro t _
    simp
  have hev := (normSq_spec hL hzL hzw ts (coefficientTerms_le _ hN _ _ _)).2
  rw [hconj, coefficient_eq sel hN x hx k, Complex.mul_conj] at hev
  have hre := congrArg Complex.re hev
  rw [evalAt_re, Complex.ofReal_re, Complex.normSq_mul, Complex.normSq_ofReal, Complex.normSq_add_mul_I] at hre
  have hd : ((windowOf sel).d : ℝ) ≠ 0 := by exact_mod_cast (windowOf_d_pos sel).ne'
  change value L 0 (normSq L ts) / (((2 ^ 149 * (windowOf sel).d) ^ 2 : ℕ) : ℝ) = _
  rw [hre, Nat.cast_pow, Nat.cast_mul, Nat.cast_pow, Nat.cast_ofNat]
  have hq : (2 : ℝ) ^ 149 ≠ 0 := by positivity
  generalize (2 : ℝ) ^ 149 = q at hq
  field_simp

/-- The exact instance of `NUM.spectrum` is the reference semantics of R166 to R171. -/
theorem exactMagnitude_toReal (sel : BitVec 1) {N : ℕ} (hN : 2 ≤ N) (x : List Sample) (hx : x.length = N) (k : ℕ) :
    (exactMagnitude (windowOf sel) N (x.map sampleUnits) k).toReal = Reference.magnitude sel N x k := by
  change √((exactMagnitude (windowOf sel) N (x.map sampleUnits) k).square) = _
  rw [exactMagnitude_square sel hN x hx]
  rfl

/-- The exact threshold test is the comparison `m >= val(frac) * mx` of R187. -/
theorem exactReaches_iff {mx m : ExactMag} (hmx : mx.wf = true)
    (hm : m.wf = true) (h0 : 0 ≤ m.square) (h0' : 0 ≤ mx.square) (frac : Word) :
    exactReaches frac mx m = true ↔ Reference.f32Value frac * mx.toReal ≤ m.toReal := by
  have hu := f32Units_value frac
  have hmxr : 0 ≤ mx.toReal := Real.sqrt_nonneg _
  have hmr : 0 ≤ m.toReal := Real.sqrt_nonneg _
  unfold exactReaches
  split_ifs with hle
  · simp only [true_iff]
    have : Reference.f32Value frac ≤ 0 := by
      have h1 : (f32Units frac : ℝ) ≤ 0 := by exact_mod_cast hle
      rw [hu] at h1
      by_contra hc
      push Not at hc
      have : (0 : ℝ) < 2 ^ 149 * Reference.f32Value frac := by positivity
      linarith
    nlinarith
  · push Not at hle
    have hF : 0 < Reference.f32Value frac := by
      have h1 : (0 : ℝ) < f32Units frac := by exact_mod_cast hle
      rw [hu] at h1
      exact (mul_pos_iff_of_pos_left (by positivity)).1 h1
    set U := (f32Units frac).natAbs with hU
    have hUr : (U : ℝ) = 2 ^ 149 * Reference.f32Value frac := by
      rw [← hu, hU, Nat.cast_natAbs, abs_of_pos hle]
    obtain ⟨h1, h2, h3⟩ := ExactMag.compareScaled_eq hm hmx (2 ^ 298) (U ^ 2)
    have hsq : ((2 ^ 298 : ℕ) : ℝ) * m.square - ((U ^ 2 : ℕ) : ℝ) * mx.square
        = 2 ^ 298 * (m.toReal ^ 2 - (Reference.f32Value frac * mx.toReal) ^ 2) := by
      have e1 : m.toReal ^ 2 = m.square := Real.sq_sqrt h0
      have e2 : mx.toReal ^ 2 = mx.square := Real.sq_sqrt h0'
      have h298 : (2 : ℝ) ^ 298 = (2 ^ 149) ^ 2 := pow_mul 2 149 2
      rw [mul_pow, e1, e2, Nat.cast_pow, Nat.cast_pow, hUr, Nat.cast_ofNat, h298]
      generalize (2 : ℝ) ^ 149 = q
      ring
    rw [hsq] at h1 h2 h3
    have hB : (0 : ℝ) ≤ Reference.f32Value frac * mx.toReal := by positivity
    rw [decide_eq_true_iff, ← pow_le_pow_iff_left₀ hB hmr two_ne_zero]
    have hbig : (0 : ℝ) < 2 ^ 298 := by positivity
    constructor
    · intro h
      by_contra hc
      push Not at hc
      rw [h2 (mul_neg_of_pos_of_neg hbig (by linarith))] at h
      omega
    · intro h
      rcases h.lt_or_eq with h | h
      · rw [h1 (mul_pos hbig (by linarith))]; omega
      · rw [h3 (by rw [h]; ring)]

end Machine

end Sys2Proof
end

