-- ==== Sys2Proof/Laws/State.lean ====
section
/-! SUPPORT. One lemma per field per state update of Machine/: what the update leaves and what it writes. -/

namespace Sys2Proof.Machine

variable (s : State)

@[simp] theorem State.examine_par : (s.examine).par = s.par := rfl
@[simp] theorem State.examine_cfg : (s.examine).cfg = s.cfg := rfl
@[simp] theorem State.examine_mode : (s.examine).mode = s.mode := rfl
@[simp] theorem State.examine_consumed : (s.examine).consumed = s.consumed := rfl
@[simp] theorem State.examine_acc : (s.examine).acc = s.acc := rfl
@[simp] theorem State.examine_raw : (s.examine).raw = s.raw := rfl
@[simp] theorem State.examine_rawValid : (s.examine).rawValid = s.rawValid := rfl
@[simp] theorem State.examine_samp : (s.examine).samp = s.samp := rfl
@[simp] theorem State.examine_sampLen : (s.examine).sampLen = s.sampLen := rfl
@[simp] theorem State.examine_sampValid : (s.examine).sampValid = s.sampValid := rfl
@[simp] theorem State.examine_trailing : (s.examine).trailing = s.trailing := rfl
@[simp] theorem State.examine_trailingValid : (s.examine).trailingValid = s.trailingValid := rfl
@[simp] theorem State.examine_stage : (s.examine).stage = s.stage := rfl
@[simp] theorem State.examine_loop : (s.examine).loop = s.loop := rfl
@[simp] theorem State.examine_mag : (s.examine).mag = s.mag := rfl
@[simp] theorem State.examine_bin : (s.examine).bin = s.bin := rfl
@[simp] theorem State.examine_specValid : (s.examine).specValid = s.specValid := rfl
@[simp] theorem State.examine_peaks : (s.examine).peaks = s.peaks := rfl
@[simp] theorem State.examine_peakCount : (s.examine).peakCount = s.peakCount := rfl
@[simp] theorem State.examine_peakValid : (s.examine).peakValid = s.peakValid := rfl
@[simp] theorem State.examine_fault : (s.examine).fault = s.fault := rfl
@[simp] theorem State.examine_nonfinite : (s.examine).nonfinite = s.nonfinite := rfl
@[simp] theorem State.examine_cancelPending : (s.examine).cancelPending = s.cancelPending := rfl
@[simp] theorem State.examine_transportOpen : (s.examine).transportOpen = s.transportOpen := rfl
@[simp] theorem State.examine_phase : (s.examine).phase = s.phase := rfl
@[simp] theorem State.examine_examined : (s.examine).examined = !s.cancelPending := rfl
@[simp] theorem State.examine_draws : (s.examine).draws = s.draws := rfl
@[simp] theorem State.examine_env : (s.examine).env = s.env := rfl

@[simp] theorem State.block_par : (s.block).par = s.par := rfl
@[simp] theorem State.block_cfg : (s.block).cfg = s.cfg := rfl
@[simp] theorem State.block_mode : (s.block).mode = s.mode := rfl
@[simp] theorem State.block_consumed : (s.block).consumed = s.consumed := rfl
@[simp] theorem State.block_acc : (s.block).acc = s.acc := rfl
@[simp] theorem State.block_raw : (s.block).raw = s.raw := rfl
@[simp] theorem State.block_rawValid : (s.block).rawValid = s.rawValid := rfl
@[simp] theorem State.block_samp : (s.block).samp = s.samp := rfl
@[simp] theorem State.block_sampLen : (s.block).sampLen = s.sampLen := rfl
@[simp] theorem State.block_sampValid : (s.block).sampValid = s.sampValid := rfl
@[simp] theorem State.block_trailing : (s.block).trailing = s.trailing := rfl
@[simp] theorem State.block_trailingValid : (s.block).trailingValid = s.trailingValid := rfl
@[simp] theorem State.block_stage : (s.block).stage = s.stage := rfl
@[simp] theorem State.block_loop : (s.block).loop = s.loop := rfl
@[simp] theorem State.block_mag : (s.block).mag = s.mag := rfl
@[simp] theorem State.block_bin : (s.block).bin = s.bin := rfl
@[simp] theorem State.block_specValid : (s.block).specValid = s.specValid := rfl
@[simp] theorem State.block_peaks : (s.block).peaks = s.peaks := rfl
@[simp] theorem State.block_peakCount : (s.block).peakCount = s.peakCount := rfl
@[simp] theorem State.block_peakValid : (s.block).peakValid = s.peakValid := rfl
@[simp] theorem State.block_fault : (s.block).fault = s.fault := rfl
@[simp] theorem State.block_nonfinite : (s.block).nonfinite = s.nonfinite := rfl
@[simp] theorem State.block_cancelPending : (s.block).cancelPending = s.cancelPending := rfl
@[simp] theorem State.block_transportOpen : (s.block).transportOpen = s.transportOpen := rfl
@[simp] theorem State.block_phase : (s.block).phase = .wait := rfl
@[simp] theorem State.block_examined : (s.block).examined = true := rfl
@[simp] theorem State.block_draws : (s.block).draws = s.draws := rfl
@[simp] theorem State.block_env : (s.block).env = s.env := rfl

@[simp] theorem State.enterStage_par (st : Stage) : (s.enterStage st).par = s.par := rfl
@[simp] theorem State.enterStage_cfg (st : Stage) : (s.enterStage st).cfg = s.cfg := rfl
@[simp] theorem State.enterStage_mode (st : Stage) : (s.enterStage st).mode = s.mode := rfl
@[simp] theorem State.enterStage_consumed (st : Stage) : (s.enterStage st).consumed = s.consumed := rfl
@[simp] theorem State.enterStage_acc (st : Stage) : (s.enterStage st).acc = s.acc := rfl
@[simp] theorem State.enterStage_raw (st : Stage) : (s.enterStage st).raw = s.raw := rfl
@[simp] theorem State.enterStage_rawValid (st : Stage) : (s.enterStage st).rawValid = s.rawValid := rfl
@[simp] theorem State.enterStage_samp (st : Stage) : (s.enterStage st).samp = s.samp := rfl
@[simp] theorem State.enterStage_sampLen (st : Stage) : (s.enterStage st).sampLen = s.sampLen := rfl
@[simp] theorem State.enterStage_sampValid (st : Stage) : (s.enterStage st).sampValid = s.sampValid := rfl
@[simp] theorem State.enterStage_trailing (st : Stage) : (s.enterStage st).trailing = s.trailing := rfl
@[simp] theorem State.enterStage_trailingValid (st : Stage) : (s.enterStage st).trailingValid = s.trailingValid := rfl
@[simp] theorem State.enterStage_stage (st : Stage) : (s.enterStage st).stage = st := rfl
@[simp] theorem State.enterStage_loop (st : Stage) : (s.enterStage st).loop = s.loop := rfl
@[simp] theorem State.enterStage_mag (st : Stage) : (s.enterStage st).mag = s.mag := rfl
@[simp] theorem State.enterStage_bin (st : Stage) : (s.enterStage st).bin = s.bin := rfl
@[simp] theorem State.enterStage_specValid (st : Stage) : (s.enterStage st).specValid = s.specValid := rfl
@[simp] theorem State.enterStage_peaks (st : Stage) : (s.enterStage st).peaks = s.peaks := rfl
@[simp] theorem State.enterStage_peakCount (st : Stage) : (s.enterStage st).peakCount = s.peakCount := rfl
@[simp] theorem State.enterStage_peakValid (st : Stage) : (s.enterStage st).peakValid = s.peakValid := rfl
@[simp] theorem State.enterStage_fault (st : Stage) : (s.enterStage st).fault = s.fault := rfl
@[simp] theorem State.enterStage_nonfinite (st : Stage) : (s.enterStage st).nonfinite = s.nonfinite := rfl
@[simp] theorem State.enterStage_cancelPending (st : Stage) : (s.enterStage st).cancelPending = s.cancelPending := rfl
@[simp] theorem State.enterStage_transportOpen (st : Stage) : (s.enterStage st).transportOpen = s.transportOpen := rfl
@[simp] theorem State.enterStage_phase (st : Stage) : (s.enterStage st).phase = .start := rfl
@[simp] theorem State.enterStage_examined (st : Stage) : (s.enterStage st).examined = !s.cancelPending := rfl
@[simp] theorem State.enterStage_draws (st : Stage) : (s.enterStage st).draws = s.draws := rfl
@[simp] theorem State.enterStage_env (st : Stage) : (s.enterStage st).env = s.env := rfl

@[simp] theorem State.finishStage_par (st : Stage) : (s.finishStage st).par = s.par := rfl
@[simp] theorem State.finishStage_cfg (st : Stage) : (s.finishStage st).cfg = s.cfg := rfl
@[simp] theorem State.finishStage_mode (st : Stage) : (s.finishStage st).mode = s.mode := rfl
@[simp] theorem State.finishStage_consumed (st : Stage) : (s.finishStage st).consumed = s.consumed := rfl
@[simp] theorem State.finishStage_acc (st : Stage) : (s.finishStage st).acc = s.acc := rfl
@[simp] theorem State.finishStage_raw (st : Stage) : (s.finishStage st).raw = s.raw := rfl
@[simp] theorem State.finishStage_rawValid (st : Stage) : (s.finishStage st).rawValid = s.rawValid := rfl
@[simp] theorem State.finishStage_samp (st : Stage) : (s.finishStage st).samp = s.samp := rfl
@[simp] theorem State.finishStage_sampLen (st : Stage) : (s.finishStage st).sampLen = s.sampLen := rfl
@[simp] theorem State.finishStage_sampValid (st : Stage) : (s.finishStage st).sampValid = s.sampValid := rfl
@[simp] theorem State.finishStage_trailing (st : Stage) : (s.finishStage st).trailing = s.trailing := rfl
@[simp] theorem State.finishStage_trailingValid (st : Stage) : (s.finishStage st).trailingValid = s.trailingValid := rfl
@[simp] theorem State.finishStage_stage (st : Stage) : (s.finishStage st).stage = if s.loop then st else .idle := rfl
@[simp] theorem State.finishStage_loop (st : Stage) : (s.finishStage st).loop = s.loop := rfl
@[simp] theorem State.finishStage_mag (st : Stage) : (s.finishStage st).mag = s.mag := rfl
@[simp] theorem State.finishStage_bin (st : Stage) : (s.finishStage st).bin = s.bin := rfl
@[simp] theorem State.finishStage_specValid (st : Stage) : (s.finishStage st).specValid = s.specValid := rfl
@[simp] theorem State.finishStage_peaks (st : Stage) : (s.finishStage st).peaks = s.peaks := rfl
@[simp] theorem State.finishStage_peakCount (st : Stage) : (s.finishStage st).peakCount = s.peakCount := rfl
@[simp] theorem State.finishStage_peakValid (st : Stage) : (s.finishStage st).peakValid = s.peakValid := rfl
@[simp] theorem State.finishStage_fault (st : Stage) : (s.finishStage st).fault = s.fault := rfl
@[simp] theorem State.finishStage_nonfinite (st : Stage) : (s.finishStage st).nonfinite = s.nonfinite := rfl
@[simp] theorem State.finishStage_cancelPending (st : Stage) : (s.finishStage st).cancelPending = s.cancelPending := rfl
@[simp] theorem State.finishStage_transportOpen (st : Stage) : (s.finishStage st).transportOpen = s.transportOpen := rfl
@[simp] theorem State.finishStage_phase (st : Stage) : (s.finishStage st).phase = .start := rfl
@[simp] theorem State.finishStage_examined (st : Stage) : (s.finishStage st).examined = !s.cancelPending := rfl
@[simp] theorem State.finishStage_draws (st : Stage) : (s.finishStage st).draws = s.draws := rfl
@[simp] theorem State.finishStage_env (st : Stage) : (s.finishStage st).env = s.env := rfl

@[simp] theorem State.abandon_par : (s.abandon).par = s.par := rfl
@[simp] theorem State.abandon_cfg : (s.abandon).cfg = s.cfg := rfl
@[simp] theorem State.abandon_mode : (s.abandon).mode = .searchingHeader := rfl
@[simp] theorem State.abandon_consumed : (s.abandon).consumed = 0 := rfl
@[simp] theorem State.abandon_acc : (s.abandon).acc = [] := rfl
@[simp] theorem State.abandon_raw : (s.abandon).raw = s.raw := rfl
@[simp] theorem State.abandon_rawValid : (s.abandon).rawValid = s.rawValid := rfl
@[simp] theorem State.abandon_samp : (s.abandon).samp = s.samp := rfl
@[simp] theorem State.abandon_sampLen : (s.abandon).sampLen = s.sampLen := rfl
@[simp] theorem State.abandon_sampValid : (s.abandon).sampValid = s.sampValid := rfl
@[simp] theorem State.abandon_trailing : (s.abandon).trailing = s.trailing := rfl
@[simp] theorem State.abandon_trailingValid : (s.abandon).trailingValid = s.trailingValid := rfl
@[simp] theorem State.abandon_stage : (s.abandon).stage = s.stage := rfl
@[simp] theorem State.abandon_loop : (s.abandon).loop = false := rfl
@[simp] theorem State.abandon_mag : (s.abandon).mag = s.mag := rfl
@[simp] theorem State.abandon_bin : (s.abandon).bin = s.bin := rfl
@[simp] theorem State.abandon_specValid : (s.abandon).specValid = s.specValid := rfl
@[simp] theorem State.abandon_peaks : (s.abandon).peaks = s.peaks := rfl
@[simp] theorem State.abandon_peakCount : (s.abandon).peakCount = s.peakCount := rfl
@[simp] theorem State.abandon_peakValid : (s.abandon).peakValid = s.peakValid := rfl
@[simp] theorem State.abandon_fault : (s.abandon).fault = s.fault := rfl
@[simp] theorem State.abandon_nonfinite : (s.abandon).nonfinite = s.nonfinite := rfl
@[simp] theorem State.abandon_cancelPending : (s.abandon).cancelPending = s.cancelPending := rfl
@[simp] theorem State.abandon_transportOpen : (s.abandon).transportOpen = false := rfl
@[simp] theorem State.abandon_phase : (s.abandon).phase = .start := rfl
@[simp] theorem State.abandon_examined : (s.abandon).examined = false := rfl
@[simp] theorem State.abandon_draws : (s.abandon).draws = s.draws := rfl
@[simp] theorem State.abandon_env : (s.abandon).env = s.env := rfl

@[simp] theorem State.enterFault_par (c : FaultCode) : (s.enterFault c).par = s.par := rfl
@[simp] theorem State.enterFault_cfg (c : FaultCode) : (s.enterFault c).cfg = s.cfg := rfl
@[simp] theorem State.enterFault_mode (c : FaultCode) : (s.enterFault c).mode = .searchingHeader := rfl
@[simp] theorem State.enterFault_consumed (c : FaultCode) : (s.enterFault c).consumed = 0 := rfl
@[simp] theorem State.enterFault_acc (c : FaultCode) : (s.enterFault c).acc = [] := rfl
@[simp] theorem State.enterFault_raw (c : FaultCode) : (s.enterFault c).raw = s.raw := rfl
@[simp] theorem State.enterFault_rawValid (c : FaultCode) : (s.enterFault c).rawValid = s.rawValid := rfl
@[simp] theorem State.enterFault_samp (c : FaultCode) : (s.enterFault c).samp = s.samp := rfl
@[simp] theorem State.enterFault_sampLen (c : FaultCode) : (s.enterFault c).sampLen = s.sampLen := rfl
@[simp] theorem State.enterFault_sampValid (c : FaultCode) : (s.enterFault c).sampValid = s.sampValid := rfl
@[simp] theorem State.enterFault_trailing (c : FaultCode) : (s.enterFault c).trailing = s.trailing := rfl
@[simp] theorem State.enterFault_trailingValid (c : FaultCode) : (s.enterFault c).trailingValid = s.trailingValid := rfl
@[simp] theorem State.enterFault_stage (c : FaultCode) : (s.enterFault c).stage = .faulted := rfl
@[simp] theorem State.enterFault_loop (c : FaultCode) : (s.enterFault c).loop = false := rfl
@[simp] theorem State.enterFault_mag (c : FaultCode) : (s.enterFault c).mag = s.mag := rfl
@[simp] theorem State.enterFault_bin (c : FaultCode) : (s.enterFault c).bin = s.bin := rfl
@[simp] theorem State.enterFault_specValid (c : FaultCode) : (s.enterFault c).specValid = s.specValid := rfl
@[simp] theorem State.enterFault_peaks (c : FaultCode) : (s.enterFault c).peaks = s.peaks := rfl
@[simp] theorem State.enterFault_peakCount (c : FaultCode) : (s.enterFault c).peakCount = s.peakCount := rfl
@[simp] theorem State.enterFault_peakValid (c : FaultCode) : (s.enterFault c).peakValid = s.peakValid := rfl
@[simp] theorem State.enterFault_fault (c : FaultCode) : (s.enterFault c).fault = if s.fault = .none then c else s.fault := rfl
@[simp] theorem State.enterFault_nonfinite (c : FaultCode) : (s.enterFault c).nonfinite = s.nonfinite := rfl
@[simp] theorem State.enterFault_cancelPending (c : FaultCode) : (s.enterFault c).cancelPending = s.cancelPending := rfl
@[simp] theorem State.enterFault_transportOpen (c : FaultCode) : (s.enterFault c).transportOpen = false := rfl
@[simp] theorem State.enterFault_phase (c : FaultCode) : (s.enterFault c).phase = .start := rfl
@[simp] theorem State.enterFault_examined (c : FaultCode) : (s.enterFault c).examined = false := rfl
@[simp] theorem State.enterFault_draws (c : FaultCode) : (s.enterFault c).draws = s.draws := rfl
@[simp] theorem State.enterFault_env (c : FaultCode) : (s.enterFault c).env = s.env := rfl

@[simp] theorem State.enterCancel_par : (s.enterCancel).par = s.par := rfl
@[simp] theorem State.enterCancel_cfg : (s.enterCancel).cfg = s.cfg := rfl
@[simp] theorem State.enterCancel_mode : (s.enterCancel).mode = .searchingHeader := rfl
@[simp] theorem State.enterCancel_consumed : (s.enterCancel).consumed = 0 := rfl
@[simp] theorem State.enterCancel_acc : (s.enterCancel).acc = [] := rfl
@[simp] theorem State.enterCancel_raw : (s.enterCancel).raw = s.raw := rfl
@[simp] theorem State.enterCancel_rawValid : (s.enterCancel).rawValid = false := rfl
@[simp] theorem State.enterCancel_samp : (s.enterCancel).samp = s.samp := rfl
@[simp] theorem State.enterCancel_sampLen : (s.enterCancel).sampLen = s.sampLen := rfl
@[simp] theorem State.enterCancel_sampValid : (s.enterCancel).sampValid = false := rfl
@[simp] theorem State.enterCancel_trailing : (s.enterCancel).trailing = s.trailing := rfl
@[simp] theorem State.enterCancel_trailingValid : (s.enterCancel).trailingValid = s.trailingValid := rfl
@[simp] theorem State.enterCancel_stage : (s.enterCancel).stage = .stopped := rfl
@[simp] theorem State.enterCancel_loop : (s.enterCancel).loop = false := rfl
@[simp] theorem State.enterCancel_mag : (s.enterCancel).mag = s.mag := rfl
@[simp] theorem State.enterCancel_bin : (s.enterCancel).bin = s.bin := rfl
@[simp] theorem State.enterCancel_specValid : (s.enterCancel).specValid = false := rfl
@[simp] theorem State.enterCancel_peaks : (s.enterCancel).peaks = s.peaks := rfl
@[simp] theorem State.enterCancel_peakCount : (s.enterCancel).peakCount = s.peakCount := rfl
@[simp] theorem State.enterCancel_peakValid : (s.enterCancel).peakValid = false := rfl
@[simp] theorem State.enterCancel_fault : (s.enterCancel).fault = s.fault := rfl
@[simp] theorem State.enterCancel_nonfinite : (s.enterCancel).nonfinite = s.nonfinite := rfl
@[simp] theorem State.enterCancel_cancelPending : (s.enterCancel).cancelPending = s.cancelPending := rfl
@[simp] theorem State.enterCancel_transportOpen : (s.enterCancel).transportOpen = false := rfl
@[simp] theorem State.enterCancel_phase : (s.enterCancel).phase = .start := rfl
@[simp] theorem State.enterCancel_examined : (s.enterCancel).examined = false := rfl
@[simp] theorem State.enterCancel_draws : (s.enterCancel).draws = s.draws := rfl
@[simp] theorem State.enterCancel_env : (s.enterCancel).env = s.env := rfl

@[simp] theorem State.resetCore_par : (s.resetCore).par = s.par := rfl
@[simp] theorem State.resetCore_cfg : (s.resetCore).cfg = .unwritten := rfl
@[simp] theorem State.resetCore_mode : (s.resetCore).mode = .searchingHeader := rfl
@[simp] theorem State.resetCore_consumed : (s.resetCore).consumed = 0 := rfl
@[simp] theorem State.resetCore_acc : (s.resetCore).acc = [] := rfl
@[simp] theorem State.resetCore_raw : (s.resetCore).raw = [] := rfl
@[simp] theorem State.resetCore_rawValid : (s.resetCore).rawValid = false := rfl
@[simp] theorem State.resetCore_samp : (s.resetCore).samp = [] := rfl
@[simp] theorem State.resetCore_sampLen : (s.resetCore).sampLen = 0 := rfl
@[simp] theorem State.resetCore_sampValid : (s.resetCore).sampValid = false := rfl
@[simp] theorem State.resetCore_trailing : (s.resetCore).trailing = 0 := rfl
@[simp] theorem State.resetCore_trailingValid : (s.resetCore).trailingValid = false := rfl
@[simp] theorem State.resetCore_stage : (s.resetCore).stage = .idle := rfl
@[simp] theorem State.resetCore_loop : (s.resetCore).loop = false := rfl
@[simp] theorem State.resetCore_mag : (s.resetCore).mag = [] := rfl
@[simp] theorem State.resetCore_bin : (s.resetCore).bin = [] := rfl
@[simp] theorem State.resetCore_specValid : (s.resetCore).specValid = false := rfl
@[simp] theorem State.resetCore_peaks : (s.resetCore).peaks = [] := rfl
@[simp] theorem State.resetCore_peakCount : (s.resetCore).peakCount = 0 := rfl
@[simp] theorem State.resetCore_peakValid : (s.resetCore).peakValid = false := rfl
@[simp] theorem State.resetCore_fault : (s.resetCore).fault = .none := rfl
@[simp] theorem State.resetCore_nonfinite : (s.resetCore).nonfinite = false := rfl
@[simp] theorem State.resetCore_cancelPending : (s.resetCore).cancelPending = false := rfl
@[simp] theorem State.resetCore_transportOpen : (s.resetCore).transportOpen = false := rfl
@[simp] theorem State.resetCore_phase : (s.resetCore).phase = .start := rfl
@[simp] theorem State.resetCore_examined : (s.resetCore).examined = false := rfl
@[simp] theorem State.resetCore_draws : (s.resetCore).draws = s.draws := rfl
@[simp] theorem State.resetCore_env : (s.resetCore).env = s.env := rfl

@[simp] theorem State.clearForAcquire_par : (s.clearForAcquire).par = s.par := rfl
@[simp] theorem State.clearForAcquire_cfg : (s.clearForAcquire).cfg = s.cfg := rfl
@[simp] theorem State.clearForAcquire_mode : (s.clearForAcquire).mode = s.mode := rfl
@[simp] theorem State.clearForAcquire_consumed : (s.clearForAcquire).consumed = s.consumed := rfl
@[simp] theorem State.clearForAcquire_acc : (s.clearForAcquire).acc = s.acc := rfl
@[simp] theorem State.clearForAcquire_raw : (s.clearForAcquire).raw = s.raw := rfl
@[simp] theorem State.clearForAcquire_rawValid : (s.clearForAcquire).rawValid = false := rfl
@[simp] theorem State.clearForAcquire_samp : (s.clearForAcquire).samp = s.samp := rfl
@[simp] theorem State.clearForAcquire_sampLen : (s.clearForAcquire).sampLen = s.sampLen := rfl
@[simp] theorem State.clearForAcquire_sampValid : (s.clearForAcquire).sampValid = false := rfl
@[simp] theorem State.clearForAcquire_trailing : (s.clearForAcquire).trailing = s.trailing := rfl
@[simp] theorem State.clearForAcquire_trailingValid : (s.clearForAcquire).trailingValid = false := rfl
@[simp] theorem State.clearForAcquire_stage : (s.clearForAcquire).stage = s.stage := rfl
@[simp] theorem State.clearForAcquire_loop : (s.clearForAcquire).loop = s.loop := rfl
@[simp] theorem State.clearForAcquire_mag : (s.clearForAcquire).mag = s.mag := rfl
@[simp] theorem State.clearForAcquire_bin : (s.clearForAcquire).bin = s.bin := rfl
@[simp] theorem State.clearForAcquire_specValid : (s.clearForAcquire).specValid = false := rfl
@[simp] theorem State.clearForAcquire_peaks : (s.clearForAcquire).peaks = s.peaks := rfl
@[simp] theorem State.clearForAcquire_peakCount : (s.clearForAcquire).peakCount = s.peakCount := rfl
@[simp] theorem State.clearForAcquire_peakValid : (s.clearForAcquire).peakValid = false := rfl
@[simp] theorem State.clearForAcquire_fault : (s.clearForAcquire).fault = s.fault := rfl
@[simp] theorem State.clearForAcquire_nonfinite : (s.clearForAcquire).nonfinite = false := rfl
@[simp] theorem State.clearForAcquire_cancelPending : (s.clearForAcquire).cancelPending = s.cancelPending := rfl
@[simp] theorem State.clearForAcquire_transportOpen : (s.clearForAcquire).transportOpen = s.transportOpen := rfl
@[simp] theorem State.clearForAcquire_phase : (s.clearForAcquire).phase = s.phase := rfl
@[simp] theorem State.clearForAcquire_examined : (s.clearForAcquire).examined = s.examined := rfl
@[simp] theorem State.clearForAcquire_draws : (s.clearForAcquire).draws = s.draws := rfl
@[simp] theorem State.clearForAcquire_env : (s.clearForAcquire).env = s.env := rfl

@[simp] theorem State.serFlush_par : (s.serFlush).par = s.par := rfl
@[simp] theorem State.serFlush_cfg : (s.serFlush).cfg = s.cfg := rfl
@[simp] theorem State.serFlush_mode : (s.serFlush).mode = s.mode := rfl
@[simp] theorem State.serFlush_consumed : (s.serFlush).consumed = s.consumed := rfl
@[simp] theorem State.serFlush_acc : (s.serFlush).acc = s.acc := rfl
@[simp] theorem State.serFlush_raw : (s.serFlush).raw = s.raw := rfl
@[simp] theorem State.serFlush_rawValid : (s.serFlush).rawValid = s.rawValid := rfl
@[simp] theorem State.serFlush_samp : (s.serFlush).samp = s.samp := rfl
@[simp] theorem State.serFlush_sampLen : (s.serFlush).sampLen = s.sampLen := rfl
@[simp] theorem State.serFlush_sampValid : (s.serFlush).sampValid = s.sampValid := rfl
@[simp] theorem State.serFlush_trailing : (s.serFlush).trailing = s.trailing := rfl
@[simp] theorem State.serFlush_trailingValid : (s.serFlush).trailingValid = s.trailingValid := rfl
@[simp] theorem State.serFlush_stage : (s.serFlush).stage = s.stage := rfl
@[simp] theorem State.serFlush_loop : (s.serFlush).loop = s.loop := rfl
@[simp] theorem State.serFlush_mag : (s.serFlush).mag = s.mag := rfl
@[simp] theorem State.serFlush_bin : (s.serFlush).bin = s.bin := rfl
@[simp] theorem State.serFlush_specValid : (s.serFlush).specValid = s.specValid := rfl
@[simp] theorem State.serFlush_peaks : (s.serFlush).peaks = s.peaks := rfl
@[simp] theorem State.serFlush_peakCount : (s.serFlush).peakCount = s.peakCount := rfl
@[simp] theorem State.serFlush_peakValid : (s.serFlush).peakValid = s.peakValid := rfl
@[simp] theorem State.serFlush_fault : (s.serFlush).fault = s.fault := rfl
@[simp] theorem State.serFlush_nonfinite : (s.serFlush).nonfinite = s.nonfinite := rfl
@[simp] theorem State.serFlush_cancelPending : (s.serFlush).cancelPending = s.cancelPending := rfl
@[simp] theorem State.serFlush_transportOpen : (s.serFlush).transportOpen = s.transportOpen := rfl
@[simp] theorem State.serFlush_phase : (s.serFlush).phase = s.phase := rfl
@[simp] theorem State.serFlush_examined : (s.serFlush).examined = s.examined := rfl
@[simp] theorem State.serFlush_draws : (s.serFlush).draws = s.draws := rfl
@[simp] theorem State.serFlush_serIn : (s.serFlush).env.serIn = s.env.serIn := rfl
@[simp] theorem State.serFlush_serPos : (s.serFlush).env.serPos = s.env.serPos + min s.env.serBuffered (s.env.serIn.length - s.env.serPos) := rfl
@[simp] theorem State.serFlush_serBuffered : (s.serFlush).env.serBuffered = 0 := rfl
@[simp] theorem State.serFlush_serOut : (s.serFlush).env.serOut = s.env.serOut := rfl
@[simp] theorem State.serFlush_dgramIn : (s.serFlush).env.dgramIn = s.env.dgramIn := rfl
@[simp] theorem State.serFlush_dgramPos : (s.serFlush).env.dgramPos = s.env.dgramPos := rfl
@[simp] theorem State.serFlush_sink : (s.serFlush).env.sink = s.env.sink := rfl
@[simp] theorem State.serFlush_canOpen : (s.serFlush).env.canOpen = s.env.canOpen := rfl
@[simp] theorem State.serFlush_script : (s.serFlush).env.script = s.env.script := rfl

@[simp] theorem State.serWrite_par (bs : List Byte) : (s.serWrite bs).par = s.par := rfl
@[simp] theorem State.serWrite_cfg (bs : List Byte) : (s.serWrite bs).cfg = s.cfg := rfl
@[simp] theorem State.serWrite_mode (bs : List Byte) : (s.serWrite bs).mode = s.mode := rfl
@[simp] theorem State.serWrite_consumed (bs : List Byte) : (s.serWrite bs).consumed = s.consumed := rfl
@[simp] theorem State.serWrite_acc (bs : List Byte) : (s.serWrite bs).acc = s.acc := rfl
@[simp] theorem State.serWrite_raw (bs : List Byte) : (s.serWrite bs).raw = s.raw := rfl
@[simp] theorem State.serWrite_rawValid (bs : List Byte) : (s.serWrite bs).rawValid = s.rawValid := rfl
@[simp] theorem State.serWrite_samp (bs : List Byte) : (s.serWrite bs).samp = s.samp := rfl
@[simp] theorem State.serWrite_sampLen (bs : List Byte) : (s.serWrite bs).sampLen = s.sampLen := rfl
@[simp] theorem State.serWrite_sampValid (bs : List Byte) : (s.serWrite bs).sampValid = s.sampValid := rfl
@[simp] theorem State.serWrite_trailing (bs : List Byte) : (s.serWrite bs).trailing = s.trailing := rfl
@[simp] theorem State.serWrite_trailingValid (bs : List Byte) : (s.serWrite bs).trailingValid = s.trailingValid := rfl
@[simp] theorem State.serWrite_stage (bs : List Byte) : (s.serWrite bs).stage = s.stage := rfl
@[simp] theorem State.serWrite_loop (bs : List Byte) : (s.serWrite bs).loop = s.loop := rfl
@[simp] theorem State.serWrite_mag (bs : List Byte) : (s.serWrite bs).mag = s.mag := rfl
@[simp] theorem State.serWrite_bin (bs : List Byte) : (s.serWrite bs).bin = s.bin := rfl
@[simp] theorem State.serWrite_specValid (bs : List Byte) : (s.serWrite bs).specValid = s.specValid := rfl
@[simp] theorem State.serWrite_peaks (bs : List Byte) : (s.serWrite bs).peaks = s.peaks := rfl
@[simp] theorem State.serWrite_peakCount (bs : List Byte) : (s.serWrite bs).peakCount = s.peakCount := rfl
@[simp] theorem State.serWrite_peakValid (bs : List Byte) : (s.serWrite bs).peakValid = s.peakValid := rfl
@[simp] theorem State.serWrite_fault (bs : List Byte) : (s.serWrite bs).fault = s.fault := rfl
@[simp] theorem State.serWrite_nonfinite (bs : List Byte) : (s.serWrite bs).nonfinite = s.nonfinite := rfl
@[simp] theorem State.serWrite_cancelPending (bs : List Byte) : (s.serWrite bs).cancelPending = s.cancelPending := rfl
@[simp] theorem State.serWrite_transportOpen (bs : List Byte) : (s.serWrite bs).transportOpen = s.transportOpen := rfl
@[simp] theorem State.serWrite_phase (bs : List Byte) : (s.serWrite bs).phase = s.phase := rfl
@[simp] theorem State.serWrite_examined (bs : List Byte) : (s.serWrite bs).examined = s.examined := rfl
@[simp] theorem State.serWrite_draws (bs : List Byte) : (s.serWrite bs).draws = s.draws := rfl
@[simp] theorem State.serWrite_serIn (bs : List Byte) : (s.serWrite bs).env.serIn = s.env.serIn := rfl
@[simp] theorem State.serWrite_serPos (bs : List Byte) : (s.serWrite bs).env.serPos = s.env.serPos := rfl
@[simp] theorem State.serWrite_serBuffered (bs : List Byte) : (s.serWrite bs).env.serBuffered = s.env.serBuffered := rfl
@[simp] theorem State.serWrite_serOut (bs : List Byte) : (s.serWrite bs).env.serOut = s.env.serOut ++ bs := rfl
@[simp] theorem State.serWrite_dgramIn (bs : List Byte) : (s.serWrite bs).env.dgramIn = s.env.dgramIn := rfl
@[simp] theorem State.serWrite_dgramPos (bs : List Byte) : (s.serWrite bs).env.dgramPos = s.env.dgramPos := rfl
@[simp] theorem State.serWrite_sink (bs : List Byte) : (s.serWrite bs).env.sink = s.env.sink := rfl
@[simp] theorem State.serWrite_canOpen (bs : List Byte) : (s.serWrite bs).env.canOpen = s.env.canOpen := rfl
@[simp] theorem State.serWrite_script (bs : List Byte) : (s.serWrite bs).env.script = s.env.script := rfl

@[simp] theorem State.serAdvance_par (len : Nat) : (s.serAdvance len).par = s.par := rfl
@[simp] theorem State.serAdvance_cfg (len : Nat) : (s.serAdvance len).cfg = s.cfg := rfl
@[simp] theorem State.serAdvance_mode (len : Nat) : (s.serAdvance len).mode = s.mode := rfl
@[simp] theorem State.serAdvance_consumed (len : Nat) : (s.serAdvance len).consumed = s.consumed := rfl
@[simp] theorem State.serAdvance_acc (len : Nat) : (s.serAdvance len).acc = s.acc := rfl
@[simp] theorem State.serAdvance_raw (len : Nat) : (s.serAdvance len).raw = s.raw := rfl
@[simp] theorem State.serAdvance_rawValid (len : Nat) : (s.serAdvance len).rawValid = s.rawValid := rfl
@[simp] theorem State.serAdvance_samp (len : Nat) : (s.serAdvance len).samp = s.samp := rfl
@[simp] theorem State.serAdvance_sampLen (len : Nat) : (s.serAdvance len).sampLen = s.sampLen := rfl
@[simp] theorem State.serAdvance_sampValid (len : Nat) : (s.serAdvance len).sampValid = s.sampValid := rfl
@[simp] theorem State.serAdvance_trailing (len : Nat) : (s.serAdvance len).trailing = s.trailing := rfl
@[simp] theorem State.serAdvance_trailingValid (len : Nat) : (s.serAdvance len).trailingValid = s.trailingValid := rfl
@[simp] theorem State.serAdvance_stage (len : Nat) : (s.serAdvance len).stage = s.stage := rfl
@[simp] theorem State.serAdvance_loop (len : Nat) : (s.serAdvance len).loop = s.loop := rfl
@[simp] theorem State.serAdvance_mag (len : Nat) : (s.serAdvance len).mag = s.mag := rfl
@[simp] theorem State.serAdvance_bin (len : Nat) : (s.serAdvance len).bin = s.bin := rfl
@[simp] theorem State.serAdvance_specValid (len : Nat) : (s.serAdvance len).specValid = s.specValid := rfl
@[simp] theorem State.serAdvance_peaks (len : Nat) : (s.serAdvance len).peaks = s.peaks := rfl
@[simp] theorem State.serAdvance_peakCount (len : Nat) : (s.serAdvance len).peakCount = s.peakCount := rfl
@[simp] theorem State.serAdvance_peakValid (len : Nat) : (s.serAdvance len).peakValid = s.peakValid := rfl
@[simp] theorem State.serAdvance_fault (len : Nat) : (s.serAdvance len).fault = s.fault := rfl
@[simp] theorem State.serAdvance_nonfinite (len : Nat) : (s.serAdvance len).nonfinite = s.nonfinite := rfl
@[simp] theorem State.serAdvance_cancelPending (len : Nat) : (s.serAdvance len).cancelPending = s.cancelPending := rfl
@[simp] theorem State.serAdvance_transportOpen (len : Nat) : (s.serAdvance len).transportOpen = s.transportOpen := rfl
@[simp] theorem State.serAdvance_phase (len : Nat) : (s.serAdvance len).phase = s.phase := rfl
@[simp] theorem State.serAdvance_examined (len : Nat) : (s.serAdvance len).examined = s.examined := rfl
@[simp] theorem State.serAdvance_draws (len : Nat) : (s.serAdvance len).draws = s.draws := rfl
@[simp] theorem State.serAdvance_serIn (len : Nat) : (s.serAdvance len).env.serIn = s.env.serIn := rfl
@[simp] theorem State.serAdvance_serPos (len : Nat) : (s.serAdvance len).env.serPos = s.env.serPos + len := rfl
@[simp] theorem State.serAdvance_serBuffered (len : Nat) : (s.serAdvance len).env.serBuffered = s.env.serBuffered - len := rfl
@[simp] theorem State.serAdvance_serOut (len : Nat) : (s.serAdvance len).env.serOut = s.env.serOut := rfl
@[simp] theorem State.serAdvance_dgramIn (len : Nat) : (s.serAdvance len).env.dgramIn = s.env.dgramIn := rfl
@[simp] theorem State.serAdvance_dgramPos (len : Nat) : (s.serAdvance len).env.dgramPos = s.env.dgramPos := rfl
@[simp] theorem State.serAdvance_sink (len : Nat) : (s.serAdvance len).env.sink = s.env.sink := rfl
@[simp] theorem State.serAdvance_canOpen (len : Nat) : (s.serAdvance len).env.canOpen = s.env.canOpen := rfl
@[simp] theorem State.serAdvance_script (len : Nat) : (s.serAdvance len).env.script = s.env.script := rfl

@[simp] theorem State.dgramAdvance_par : (s.dgramAdvance).par = s.par := rfl
@[simp] theorem State.dgramAdvance_cfg : (s.dgramAdvance).cfg = s.cfg := rfl
@[simp] theorem State.dgramAdvance_mode : (s.dgramAdvance).mode = s.mode := rfl
@[simp] theorem State.dgramAdvance_consumed : (s.dgramAdvance).consumed = s.consumed := rfl
@[simp] theorem State.dgramAdvance_acc : (s.dgramAdvance).acc = s.acc := rfl
@[simp] theorem State.dgramAdvance_raw : (s.dgramAdvance).raw = s.raw := rfl
@[simp] theorem State.dgramAdvance_rawValid : (s.dgramAdvance).rawValid = s.rawValid := rfl
@[simp] theorem State.dgramAdvance_samp : (s.dgramAdvance).samp = s.samp := rfl
@[simp] theorem State.dgramAdvance_sampLen : (s.dgramAdvance).sampLen = s.sampLen := rfl
@[simp] theorem State.dgramAdvance_sampValid : (s.dgramAdvance).sampValid = s.sampValid := rfl
@[simp] theorem State.dgramAdvance_trailing : (s.dgramAdvance).trailing = s.trailing := rfl
@[simp] theorem State.dgramAdvance_trailingValid : (s.dgramAdvance).trailingValid = s.trailingValid := rfl
@[simp] theorem State.dgramAdvance_stage : (s.dgramAdvance).stage = s.stage := rfl
@[simp] theorem State.dgramAdvance_loop : (s.dgramAdvance).loop = s.loop := rfl
@[simp] theorem State.dgramAdvance_mag : (s.dgramAdvance).mag = s.mag := rfl
@[simp] theorem State.dgramAdvance_bin : (s.dgramAdvance).bin = s.bin := rfl
@[simp] theorem State.dgramAdvance_specValid : (s.dgramAdvance).specValid = s.specValid := rfl
@[simp] theorem State.dgramAdvance_peaks : (s.dgramAdvance).peaks = s.peaks := rfl
@[simp] theorem State.dgramAdvance_peakCount : (s.dgramAdvance).peakCount = s.peakCount := rfl
@[simp] theorem State.dgramAdvance_peakValid : (s.dgramAdvance).peakValid = s.peakValid := rfl
@[simp] theorem State.dgramAdvance_fault : (s.dgramAdvance).fault = s.fault := rfl
@[simp] theorem State.dgramAdvance_nonfinite : (s.dgramAdvance).nonfinite = s.nonfinite := rfl
@[simp] theorem State.dgramAdvance_cancelPending : (s.dgramAdvance).cancelPending = s.cancelPending := rfl
@[simp] theorem State.dgramAdvance_transportOpen : (s.dgramAdvance).transportOpen = s.transportOpen := rfl
@[simp] theorem State.dgramAdvance_phase : (s.dgramAdvance).phase = s.phase := rfl
@[simp] theorem State.dgramAdvance_examined : (s.dgramAdvance).examined = s.examined := rfl
@[simp] theorem State.dgramAdvance_draws : (s.dgramAdvance).draws = s.draws := rfl
@[simp] theorem State.dgramAdvance_serIn : (s.dgramAdvance).env.serIn = s.env.serIn := rfl
@[simp] theorem State.dgramAdvance_serPos : (s.dgramAdvance).env.serPos = s.env.serPos := rfl
@[simp] theorem State.dgramAdvance_serBuffered : (s.dgramAdvance).env.serBuffered = s.env.serBuffered := rfl
@[simp] theorem State.dgramAdvance_serOut : (s.dgramAdvance).env.serOut = s.env.serOut := rfl
@[simp] theorem State.dgramAdvance_dgramIn : (s.dgramAdvance).env.dgramIn = s.env.dgramIn := rfl
@[simp] theorem State.dgramAdvance_dgramPos : (s.dgramAdvance).env.dgramPos = s.env.dgramPos + 1 := rfl
@[simp] theorem State.dgramAdvance_sink : (s.dgramAdvance).env.sink = s.env.sink := rfl
@[simp] theorem State.dgramAdvance_canOpen : (s.dgramAdvance).env.canOpen = s.env.canOpen := rfl
@[simp] theorem State.dgramAdvance_script : (s.dgramAdvance).env.script = s.env.script := rfl

@[simp] theorem State.popMove_par : (s.popMove).par = s.par := rfl
@[simp] theorem State.popMove_cfg : (s.popMove).cfg = s.cfg := rfl
@[simp] theorem State.popMove_mode : (s.popMove).mode = s.mode := rfl
@[simp] theorem State.popMove_consumed : (s.popMove).consumed = s.consumed := rfl
@[simp] theorem State.popMove_acc : (s.popMove).acc = s.acc := rfl
@[simp] theorem State.popMove_raw : (s.popMove).raw = s.raw := rfl
@[simp] theorem State.popMove_rawValid : (s.popMove).rawValid = s.rawValid := rfl
@[simp] theorem State.popMove_samp : (s.popMove).samp = s.samp := rfl
@[simp] theorem State.popMove_sampLen : (s.popMove).sampLen = s.sampLen := rfl
@[simp] theorem State.popMove_sampValid : (s.popMove).sampValid = s.sampValid := rfl
@[simp] theorem State.popMove_trailing : (s.popMove).trailing = s.trailing := rfl
@[simp] theorem State.popMove_trailingValid : (s.popMove).trailingValid = s.trailingValid := rfl
@[simp] theorem State.popMove_stage : (s.popMove).stage = s.stage := rfl
@[simp] theorem State.popMove_loop : (s.popMove).loop = s.loop := rfl
@[simp] theorem State.popMove_mag : (s.popMove).mag = s.mag := rfl
@[simp] theorem State.popMove_bin : (s.popMove).bin = s.bin := rfl
@[simp] theorem State.popMove_specValid : (s.popMove).specValid = s.specValid := rfl
@[simp] theorem State.popMove_peaks : (s.popMove).peaks = s.peaks := rfl
@[simp] theorem State.popMove_peakCount : (s.popMove).peakCount = s.peakCount := rfl
@[simp] theorem State.popMove_peakValid : (s.popMove).peakValid = s.peakValid := rfl
@[simp] theorem State.popMove_fault : (s.popMove).fault = s.fault := rfl
@[simp] theorem State.popMove_nonfinite : (s.popMove).nonfinite = s.nonfinite := rfl
@[simp] theorem State.popMove_cancelPending : (s.popMove).cancelPending = s.cancelPending := rfl
@[simp] theorem State.popMove_transportOpen : (s.popMove).transportOpen = s.transportOpen := rfl
@[simp] theorem State.popMove_phase : (s.popMove).phase = s.phase := rfl
@[simp] theorem State.popMove_examined : (s.popMove).examined = s.examined := rfl
@[simp] theorem State.popMove_draws : (s.popMove).draws = s.draws := rfl
@[simp] theorem State.popMove_serIn : (s.popMove).env.serIn = s.env.serIn := rfl
@[simp] theorem State.popMove_serPos : (s.popMove).env.serPos = s.env.serPos := rfl
@[simp] theorem State.popMove_serBuffered : (s.popMove).env.serBuffered = s.env.serBuffered := rfl
@[simp] theorem State.popMove_serOut : (s.popMove).env.serOut = s.env.serOut := rfl
@[simp] theorem State.popMove_dgramIn : (s.popMove).env.dgramIn = s.env.dgramIn := rfl
@[simp] theorem State.popMove_dgramPos : (s.popMove).env.dgramPos = s.env.dgramPos := rfl
@[simp] theorem State.popMove_sink : (s.popMove).env.sink = s.env.sink := rfl
@[simp] theorem State.popMove_canOpen : (s.popMove).env.canOpen = s.env.canOpen := rfl
@[simp] theorem State.popMove_script : (s.popMove).env.script = s.env.script.tail := rfl

@[simp] theorem State.pushSample_par (v : Sample) : (s.pushSample v).par = s.par := rfl
@[simp] theorem State.pushSample_cfg (v : Sample) : (s.pushSample v).cfg = s.cfg := rfl
@[simp] theorem State.pushSample_mode (v : Sample) : (s.pushSample v).mode = s.mode := rfl
@[simp] theorem State.pushSample_consumed (v : Sample) : (s.pushSample v).consumed = s.consumed := rfl
@[simp] theorem State.pushSample_acc (v : Sample) : (s.pushSample v).acc = s.acc := rfl
@[simp] theorem State.pushSample_raw (v : Sample) : (s.pushSample v).raw = s.raw := rfl
@[simp] theorem State.pushSample_rawValid (v : Sample) : (s.pushSample v).rawValid = s.rawValid := rfl
@[simp] theorem State.pushSample_samp (v : Sample) : (s.pushSample v).samp = s.samp ++ [v] := rfl
@[simp] theorem State.pushSample_sampLen (v : Sample) : (s.pushSample v).sampLen = s.sampLen := rfl
@[simp] theorem State.pushSample_sampValid (v : Sample) : (s.pushSample v).sampValid = s.sampValid := rfl
@[simp] theorem State.pushSample_trailing (v : Sample) : (s.pushSample v).trailing = s.trailing := rfl
@[simp] theorem State.pushSample_trailingValid (v : Sample) : (s.pushSample v).trailingValid = s.trailingValid := rfl
@[simp] theorem State.pushSample_stage (v : Sample) : (s.pushSample v).stage = s.stage := rfl
@[simp] theorem State.pushSample_loop (v : Sample) : (s.pushSample v).loop = s.loop := rfl
@[simp] theorem State.pushSample_mag (v : Sample) : (s.pushSample v).mag = s.mag := rfl
@[simp] theorem State.pushSample_bin (v : Sample) : (s.pushSample v).bin = s.bin := rfl
@[simp] theorem State.pushSample_specValid (v : Sample) : (s.pushSample v).specValid = s.specValid := rfl
@[simp] theorem State.pushSample_peaks (v : Sample) : (s.pushSample v).peaks = s.peaks := rfl
@[simp] theorem State.pushSample_peakCount (v : Sample) : (s.pushSample v).peakCount = s.peakCount := rfl
@[simp] theorem State.pushSample_peakValid (v : Sample) : (s.pushSample v).peakValid = s.peakValid := rfl
@[simp] theorem State.pushSample_fault (v : Sample) : (s.pushSample v).fault = s.fault := rfl
@[simp] theorem State.pushSample_nonfinite (v : Sample) : (s.pushSample v).nonfinite = s.nonfinite := rfl
@[simp] theorem State.pushSample_cancelPending (v : Sample) : (s.pushSample v).cancelPending = s.cancelPending := rfl
@[simp] theorem State.pushSample_transportOpen (v : Sample) : (s.pushSample v).transportOpen = s.transportOpen := rfl
@[simp] theorem State.pushSample_phase (v : Sample) : (s.pushSample v).phase = s.phase := rfl
@[simp] theorem State.pushSample_examined (v : Sample) : (s.pushSample v).examined = s.examined := rfl
@[simp] theorem State.pushSample_draws (v : Sample) : (s.pushSample v).draws = s.draws := rfl
@[simp] theorem State.pushSample_env (v : Sample) : (s.pushSample v).env = s.env := rfl

@[simp] theorem State.emitFrame_par (p : List Byte) : (s.emitFrame p).par = s.par := rfl
@[simp] theorem State.emitFrame_cfg (p : List Byte) : (s.emitFrame p).cfg = s.cfg := rfl
@[simp] theorem State.emitFrame_mode (p : List Byte) : (s.emitFrame p).mode = .searchingHeader := rfl
@[simp] theorem State.emitFrame_consumed (p : List Byte) : (s.emitFrame p).consumed = 0 := rfl
@[simp] theorem State.emitFrame_acc (p : List Byte) : (s.emitFrame p).acc = s.acc := rfl
@[simp] theorem State.emitFrame_raw (p : List Byte) : (s.emitFrame p).raw = p := rfl
@[simp] theorem State.emitFrame_rawValid (p : List Byte) : (s.emitFrame p).rawValid = true := rfl
@[simp] theorem State.emitFrame_samp (p : List Byte) : (s.emitFrame p).samp = s.samp := rfl
@[simp] theorem State.emitFrame_sampLen (p : List Byte) : (s.emitFrame p).sampLen = s.sampLen := rfl
@[simp] theorem State.emitFrame_sampValid (p : List Byte) : (s.emitFrame p).sampValid = s.sampValid := rfl
@[simp] theorem State.emitFrame_trailing (p : List Byte) : (s.emitFrame p).trailing = s.trailing := rfl
@[simp] theorem State.emitFrame_trailingValid (p : List Byte) : (s.emitFrame p).trailingValid = s.trailingValid := rfl
@[simp] theorem State.emitFrame_stage (p : List Byte) : (s.emitFrame p).stage = if s.loop then .decode else .idle := rfl
@[simp] theorem State.emitFrame_loop (p : List Byte) : (s.emitFrame p).loop = s.loop := rfl
@[simp] theorem State.emitFrame_mag (p : List Byte) : (s.emitFrame p).mag = s.mag := rfl
@[simp] theorem State.emitFrame_bin (p : List Byte) : (s.emitFrame p).bin = s.bin := rfl
@[simp] theorem State.emitFrame_specValid (p : List Byte) : (s.emitFrame p).specValid = s.specValid := rfl
@[simp] theorem State.emitFrame_peaks (p : List Byte) : (s.emitFrame p).peaks = s.peaks := rfl
@[simp] theorem State.emitFrame_peakCount (p : List Byte) : (s.emitFrame p).peakCount = s.peakCount := rfl
@[simp] theorem State.emitFrame_peakValid (p : List Byte) : (s.emitFrame p).peakValid = s.peakValid := rfl
@[simp] theorem State.emitFrame_fault (p : List Byte) : (s.emitFrame p).fault = s.fault := rfl
@[simp] theorem State.emitFrame_nonfinite (p : List Byte) : (s.emitFrame p).nonfinite = s.nonfinite := rfl
@[simp] theorem State.emitFrame_cancelPending (p : List Byte) : (s.emitFrame p).cancelPending = s.cancelPending := rfl
@[simp] theorem State.emitFrame_transportOpen (p : List Byte) : (s.emitFrame p).transportOpen = s.transportOpen := rfl
@[simp] theorem State.emitFrame_phase (p : List Byte) : (s.emitFrame p).phase = .start := rfl
@[simp] theorem State.emitFrame_examined (p : List Byte) : (s.emitFrame p).examined = !s.cancelPending := rfl
@[simp] theorem State.emitFrame_draws (p : List Byte) : (s.emitFrame p).draws = s.draws := rfl
@[simp] theorem State.emitFrame_env (p : List Byte) : (s.emitFrame p).env = s.env := rfl

@[simp] theorem State.deliver_par : (s.deliver).par = s.par := rfl
@[simp] theorem State.deliver_cfg : (s.deliver).cfg = s.cfg := rfl
@[simp] theorem State.deliver_mode : (s.deliver).mode = s.mode := rfl
@[simp] theorem State.deliver_consumed : (s.deliver).consumed = s.consumed := rfl
@[simp] theorem State.deliver_acc : (s.deliver).acc = s.acc := rfl
@[simp] theorem State.deliver_raw : (s.deliver).raw = s.raw := rfl
@[simp] theorem State.deliver_rawValid : (s.deliver).rawValid = s.rawValid := rfl
@[simp] theorem State.deliver_samp : (s.deliver).samp = s.samp := rfl
@[simp] theorem State.deliver_sampLen : (s.deliver).sampLen = s.sampLen := rfl
@[simp] theorem State.deliver_sampValid : (s.deliver).sampValid = false := rfl
@[simp] theorem State.deliver_trailing : (s.deliver).trailing = s.trailing := rfl
@[simp] theorem State.deliver_trailingValid : (s.deliver).trailingValid = s.trailingValid := rfl
@[simp] theorem State.deliver_stage : (s.deliver).stage = s.stage := rfl
@[simp] theorem State.deliver_loop : (s.deliver).loop = s.loop := rfl
@[simp] theorem State.deliver_mag : (s.deliver).mag = s.mag := rfl
@[simp] theorem State.deliver_bin : (s.deliver).bin = s.bin := rfl
@[simp] theorem State.deliver_specValid : (s.deliver).specValid = false := rfl
@[simp] theorem State.deliver_peaks : (s.deliver).peaks = s.peaks := rfl
@[simp] theorem State.deliver_peakCount : (s.deliver).peakCount = s.peakCount := rfl
@[simp] theorem State.deliver_peakValid : (s.deliver).peakValid = false := rfl
@[simp] theorem State.deliver_fault : (s.deliver).fault = s.fault := rfl
@[simp] theorem State.deliver_nonfinite : (s.deliver).nonfinite = s.nonfinite := rfl
@[simp] theorem State.deliver_cancelPending : (s.deliver).cancelPending = s.cancelPending := rfl
@[simp] theorem State.deliver_transportOpen : (s.deliver).transportOpen = s.transportOpen := rfl
@[simp] theorem State.deliver_phase : (s.deliver).phase = s.phase := rfl
@[simp] theorem State.deliver_examined : (s.deliver).examined = s.examined := rfl
@[simp] theorem State.deliver_draws : (s.deliver).draws = s.draws := rfl
@[simp] theorem State.deliver_serIn : (s.deliver).env.serIn = s.env.serIn := rfl
@[simp] theorem State.deliver_serPos : (s.deliver).env.serPos = s.env.serPos := rfl
@[simp] theorem State.deliver_serBuffered : (s.deliver).env.serBuffered = s.env.serBuffered := rfl
@[simp] theorem State.deliver_serOut : (s.deliver).env.serOut = s.env.serOut := rfl
@[simp] theorem State.deliver_dgramIn : (s.deliver).env.dgramIn = s.env.dgramIn := rfl
@[simp] theorem State.deliver_dgramPos : (s.deliver).env.dgramPos = s.env.dgramPos := rfl
@[simp] theorem State.deliver_sink : (s.deliver).env.sink = s.env.sink ++ [s.bundle] := rfl
@[simp] theorem State.deliver_canOpen : (s.deliver).env.canOpen = s.env.canOpen := rfl
@[simp] theorem State.deliver_script : (s.deliver).env.script = s.env.script := rfl

@[simp] theorem analyzed_par (fs : Rat) (w : BitVec 1) : (analyzed fs w s).par = s.par := rfl
@[simp] theorem analyzed_cfg (fs : Rat) (w : BitVec 1) : (analyzed fs w s).cfg = s.cfg := rfl
@[simp] theorem analyzed_mode (fs : Rat) (w : BitVec 1) : (analyzed fs w s).mode = s.mode := rfl
@[simp] theorem analyzed_consumed (fs : Rat) (w : BitVec 1) : (analyzed fs w s).consumed = s.consumed := rfl
@[simp] theorem analyzed_acc (fs : Rat) (w : BitVec 1) : (analyzed fs w s).acc = s.acc := rfl
@[simp] theorem analyzed_raw (fs : Rat) (w : BitVec 1) : (analyzed fs w s).raw = s.raw := rfl
@[simp] theorem analyzed_rawValid (fs : Rat) (w : BitVec 1) : (analyzed fs w s).rawValid = s.rawValid := rfl
@[simp] theorem analyzed_samp (fs : Rat) (w : BitVec 1) : (analyzed fs w s).samp = s.samp := rfl
@[simp] theorem analyzed_sampLen (fs : Rat) (w : BitVec 1) : (analyzed fs w s).sampLen = s.sampLen := rfl
@[simp] theorem analyzed_sampValid (fs : Rat) (w : BitVec 1) : (analyzed fs w s).sampValid = s.sampValid := rfl
@[simp] theorem analyzed_trailing (fs : Rat) (w : BitVec 1) : (analyzed fs w s).trailing = s.trailing := rfl
@[simp] theorem analyzed_trailingValid (fs : Rat) (w : BitVec 1) : (analyzed fs w s).trailingValid = s.trailingValid := rfl
@[simp] theorem analyzed_stage (fs : Rat) (w : BitVec 1) : (analyzed fs w s).stage = s.stage := rfl
@[simp] theorem analyzed_loop (fs : Rat) (w : BitVec 1) : (analyzed fs w s).loop = s.loop := rfl
@[simp] theorem analyzed_bin (fs : Rat) (w : BitVec 1) : (analyzed fs w s).bin = (List.range (s.par.K + 1)).map (binCentre s.par fs) := rfl
@[simp] theorem analyzed_specValid (fs : Rat) (w : BitVec 1) : (analyzed fs w s).specValid = true := rfl
@[simp] theorem analyzed_peaks (fs : Rat) (w : BitVec 1) : (analyzed fs w s).peaks = s.peaks := rfl
@[simp] theorem analyzed_peakCount (fs : Rat) (w : BitVec 1) : (analyzed fs w s).peakCount = s.peakCount := rfl
@[simp] theorem analyzed_peakValid (fs : Rat) (w : BitVec 1) : (analyzed fs w s).peakValid = s.peakValid := rfl
@[simp] theorem analyzed_fault (fs : Rat) (w : BitVec 1) : (analyzed fs w s).fault = s.fault := rfl
@[simp] theorem analyzed_nonfinite (fs : Rat) (w : BitVec 1) : (analyzed fs w s).nonfinite = (s.samp.take s.par.N).any sampleNonFinite := rfl
@[simp] theorem analyzed_cancelPending (fs : Rat) (w : BitVec 1) : (analyzed fs w s).cancelPending = s.cancelPending := rfl
@[simp] theorem analyzed_transportOpen (fs : Rat) (w : BitVec 1) : (analyzed fs w s).transportOpen = s.transportOpen := rfl
@[simp] theorem analyzed_phase (fs : Rat) (w : BitVec 1) : (analyzed fs w s).phase = s.phase := rfl
@[simp] theorem analyzed_examined (fs : Rat) (w : BitVec 1) : (analyzed fs w s).examined = s.examined := rfl
@[simp] theorem analyzed_env (fs : Rat) (w : BitVec 1) : (analyzed fs w s).env = s.env := rfl

@[simp] theorem extracted_par (f : Word) (d : Nat) : (extracted f d s).par = s.par := rfl
@[simp] theorem extracted_cfg (f : Word) (d : Nat) : (extracted f d s).cfg = s.cfg := rfl
@[simp] theorem extracted_mode (f : Word) (d : Nat) : (extracted f d s).mode = s.mode := rfl
@[simp] theorem extracted_consumed (f : Word) (d : Nat) : (extracted f d s).consumed = s.consumed := rfl
@[simp] theorem extracted_acc (f : Word) (d : Nat) : (extracted f d s).acc = s.acc := rfl
@[simp] theorem extracted_raw (f : Word) (d : Nat) : (extracted f d s).raw = s.raw := rfl
@[simp] theorem extracted_rawValid (f : Word) (d : Nat) : (extracted f d s).rawValid = s.rawValid := rfl
@[simp] theorem extracted_samp (f : Word) (d : Nat) : (extracted f d s).samp = s.samp := rfl
@[simp] theorem extracted_sampLen (f : Word) (d : Nat) : (extracted f d s).sampLen = s.sampLen := rfl
@[simp] theorem extracted_sampValid (f : Word) (d : Nat) : (extracted f d s).sampValid = s.sampValid := rfl
@[simp] theorem extracted_trailing (f : Word) (d : Nat) : (extracted f d s).trailing = s.trailing := rfl
@[simp] theorem extracted_trailingValid (f : Word) (d : Nat) : (extracted f d s).trailingValid = s.trailingValid := rfl
@[simp] theorem extracted_stage (f : Word) (d : Nat) : (extracted f d s).stage = s.stage := rfl
@[simp] theorem extracted_loop (f : Word) (d : Nat) : (extracted f d s).loop = s.loop := rfl
@[simp] theorem extracted_mag (f : Word) (d : Nat) : (extracted f d s).mag = s.mag := rfl
@[simp] theorem extracted_bin (f : Word) (d : Nat) : (extracted f d s).bin = s.bin := rfl
@[simp] theorem extracted_specValid (f : Word) (d : Nat) : (extracted f d s).specValid = s.specValid := rfl
@[simp] theorem extracted_peaks (f : Word) (d : Nat) : (extracted f d s).peaks = (survivors s.par f d s.mag).map (peakAt s.mag s.bin) := rfl
@[simp] theorem extracted_peakCount (f : Word) (d : Nat) : (extracted f d s).peakCount = (survivors s.par f d s.mag).length := rfl
@[simp] theorem extracted_peakValid (f : Word) (d : Nat) : (extracted f d s).peakValid = true := rfl
@[simp] theorem extracted_fault (f : Word) (d : Nat) : (extracted f d s).fault = s.fault := rfl
@[simp] theorem extracted_nonfinite (f : Word) (d : Nat) : (extracted f d s).nonfinite = s.nonfinite := rfl
@[simp] theorem extracted_cancelPending (f : Word) (d : Nat) : (extracted f d s).cancelPending = s.cancelPending := rfl
@[simp] theorem extracted_transportOpen (f : Word) (d : Nat) : (extracted f d s).transportOpen = s.transportOpen := rfl
@[simp] theorem extracted_phase (f : Word) (d : Nat) : (extracted f d s).phase = s.phase := rfl
@[simp] theorem extracted_examined (f : Word) (d : Nat) : (extracted f d s).examined = s.examined := rfl
@[simp] theorem extracted_draws (f : Word) (d : Nat) : (extracted f d s).draws = s.draws := rfl
@[simp] theorem extracted_env (f : Word) (d : Nat) : (extracted f d s).env = s.env := rfl

end Sys2Proof.Machine
end

