-- ==== Sys2Proof/Laws/Extractor.lean ====
section
/-! SUPPORT. What the functions of the peak extractor do, one lemma each: candidates, the maximum, the visiting
order, the greedy rule, the ascending output. `v i` stands for the magnitude of bin `i` as a number. -/

namespace Sys2Proof

theorem ExactMag.legal_of_square {m : ExactMag} (hm : m.wf = true) (h : 0 ≤ m.square) : m.Legal := by
  have hd : (0 : ℝ) < (m.den : ℝ) := by exact_mod_cast (ExactMag.wf_iff.1 hm).2.2.2
  exact ⟨hm, by simpa [ExactMag.square] using (div_nonneg_iff.1 h).resolve_right (fun hc => by linarith [hc.2])⟩

theorem ExactMag.ofRat_legal (r : ℚ) : (ExactMag.ofRat r).Legal :=
  ExactMag.legal_of_square (ExactMag.ofRat_wf r) (by rw [ExactMag.ofRat_square]; positivity)

theorem ExactMag.Legal.square_nonneg {m : ExactMag} (h : m.Legal) : 0 ≤ m.square :=
  div_nonneg h.2 (Nat.cast_nonneg _)

/-- A legal magnitude of the exact instance. -/
theorem Mag.Legal.cases_exact {m : Mag} (h : m.Legal .exact) : ∃ e, m = .exact e ∧ e.Legal := by
  cases m with
  | exact e => exact ⟨e, rfl, h⟩
  | impl _ => exact h.elim

/-- A legal magnitude of an implementation. -/
theorem Mag.Legal.cases_impl {m : Mag} (h : m.Legal .implementation) : ∃ p, m = .impl p := by
  cases m with
  | exact _ => exact h.elim
  | impl p => exact ⟨p, rfl⟩

/-- Among the magnitudes of one instance the order is that of the places. -/
theorem Mag.Legal.lt_iff {n : Config.NumInstance} {m m' : Mag} (h : m.Legal n) (h' : m'.Legal n) :
    m.lt m' = true ↔ m.place < m'.place := by
  cases n with
  | exact =>
    obtain ⟨e, rfl, he⟩ := h.cases_exact
    obtain ⟨e', rfl, he'⟩ := h'.cases_exact
    exact ExactMag.lt_iff he.1 he'.1 he.square_nonneg
  | implementation =>
    obtain ⟨p, rfl⟩ := h.cases_impl
    obtain ⟨p', rfl⟩ := h'.cases_impl
    simp [Mag.lt, Mag.place]

/-- What `toReal` of an implementation's `MagT` is known to be (R176). -/
theorem Mag.implToReal_spec : Monotone Mag.implToReal ∧ (∀ p, 0 ≤ Mag.implToReal p) ∧ Mag.implToReal 0 = 0 := by
  unfold Mag.implToReal
  split_ifs with h
  · exact h
  · exact ⟨monotone_const, fun _ => le_refl _, rfl⟩

theorem Mag.toReal_nonneg (m : Mag) : 0 ≤ m.toReal := by
  cases m with
  | exact e => exact Real.sqrt_nonneg _
  | impl p => exact Mag.implToReal_spec.2.1 p

end Sys2Proof

namespace Sys2Proof.Machine

theorem mem_candidates {m : List Mag} {K i : ℕ} :
    i ∈ candidates m K ↔ 1 ≤ i ∧ i + 1 ≤ K ∧ (magAt m (i - 1)).lt (magAt m i) = true ∧
      (magAt m (i + 1)).lt (magAt m i) = true := by
  simp only [candidates, List.mem_filter, List.mem_range, isCandidate, Bool.and_eq_true, decide_eq_true_iff]
  constructor
  · rintro ⟨⟨h1, h2⟩, h3, h4⟩; exact ⟨h2, h1, h3, h4⟩
  · rintro ⟨h1, h2, h3, h4⟩; exact ⟨⟨h2, h1⟩, h3, h4⟩

theorem candidates_sorted (m : List Mag) (K : ℕ) : (candidates m K).Pairwise (· < ·) :=
  (List.pairwise_lt_range.sublist List.filter_sublist).sublist List.filter_sublist

theorem qualifying_sorted (p : Config.Params) (frac : Word) (m : List Mag) :
    (qualifying p frac m).Pairwise (· < ·) :=
  (candidates_sorted m p.K).sublist List.filter_sublist

/-! ### The visiting order -/

theorem insertByRank_perm (m : List Mag) (i : ℕ) (l : List ℕ) : (insertByRank m i l).Perm (i :: l) := by
  induction l with
  | nil => exact .refl _
  | cons j l ih =>
    unfold insertByRank
    split_ifs
    · exact (ih.cons j).trans (.swap i j l)
    · exact .refl _

theorem rankOrder_perm (m : List Mag) (is : List ℕ) : (rankOrder m is).Perm is := by
  induction is with
  | nil => exact .refl _
  | cons i is ih => exact (insertByRank_perm m i _).trans (ih.cons i)

section
variable {m : List Mag} {v : ℕ → ℝ} {K : ℕ}
  (hv : ∀ i j, i ≤ K → j ≤ K → ((magAt m i).lt (magAt m j) = true ↔ v i < v j))
include hv

theorem insertByRank_sorted (i : ℕ) (l : List ℕ) (hi : ∀ j ∈ l, i < j) (hiK : i ≤ K) (hlK : ∀ j ∈ l, j ≤ K)
    (hl : l.Pairwise (fun a b => v b < v a ∨ v a = v b ∧ a < b)) :
    (insertByRank m i l).Pairwise (fun a b => v b < v a ∨ v a = v b ∧ a < b) := by
  induction l with
  | nil => simp [insertByRank]
  | cons j l ih =>
    rw [List.pairwise_cons] at hl
    unfold insertByRank
    split_ifs with h
    · rw [hv i j hiK (hlK j (by simp))] at h
      rw [List.pairwise_cons]
      refine ⟨fun x hx => ?_, ih (fun x hx => hi x (List.mem_cons_of_mem _ hx))
        (fun x hx => hlK x (List.mem_cons_of_mem _ hx)) hl.2⟩
      rcases List.mem_cons.1 ((insertByRank_perm m i l).mem_iff.1 hx) with rfl | hx
      · exact .inl h
      · exact hl.1 x hx
    · rw [hv i j hiK (hlK j (by simp)), not_lt] at h
      rw [List.pairwise_cons]
      refine ⟨fun x hx => ?_, List.pairwise_cons.2 hl⟩
      have hlt := hi x hx
      rcases List.mem_cons.1 hx with rfl | hx
      · rcases h.lt_or_eq with h | h
        · exact .inl h
        · exact .inr ⟨h.symm, hlt⟩
      · have hxj : v x ≤ v j := by
          rcases hl.1 x hx with h' | ⟨h', -⟩
          · exact h'.le
          · exact h'.ge
        rcases (hxj.trans h).lt_or_eq with h | h
        · exact .inl h
        · exact .inr ⟨h.symm, hlt⟩

theorem rankOrder_sorted (is : List ℕ) (hs : is.Pairwise (· < ·)) (hK : ∀ i ∈ is, i ≤ K) :
    (rankOrder m is).Pairwise (fun a b => v b < v a ∨ v a = v b ∧ a < b) := by
  induction is with
  | nil => exact .nil
  | cons i is ih =>
    rw [List.pairwise_cons] at hs
    exact insertByRank_sorted hv i _ (fun j hj => hs.1 j ((rankOrder_perm m is).mem_iff.1 hj)) (hK i (by simp))
      (fun j hj => hK j (List.mem_cons_of_mem _ ((rankOrder_perm m is).mem_iff.1 hj)))
      (ih hs.2 (fun j hj => hK j (List.mem_cons_of_mem _ hj)))

end

/-! ### The greedy rule -/

theorem greedy_prefix (d : ℕ) (l : List ℕ) : ∀ keep, keep <+: greedy d keep l := by
  induction l with
  | nil => intro keep; exact List.prefix_rfl
  | cons i l ih =>
    intro keep
    unfold greedy
    split_ifs
    · exact (List.prefix_append keep [i]).trans (ih _)
    · exact ih _

theorem greedy_sublist (d : ℕ) (l : List ℕ) : ∀ keep, (greedy d keep l).Sublist (keep ++ l) := by
  induction l with
  | nil => intro keep; simp [greedy]
  | cons i l ih =>
    intro keep
    unfold greedy
    split_ifs
    · simpa using ih (keep ++ [i])
    · exact (ih keep).trans (List.Sublist.append_left (List.sublist_cons_self i l) keep)

theorem greedy_apart (d : ℕ) (l : List ℕ) : ∀ keep, keep.Pairwise (fun a b => apart d b a = true) →
    (greedy d keep l).Pairwise (fun a b => apart d b a = true) := by
  induction l with
  | nil => intro keep h; exact h
  | cons i l ih =>
    intro keep h
    unfold greedy
    split_ifs with hk
    · refine ih _ (List.pairwise_append.2 ⟨h, List.pairwise_singleton _ _, fun a ha b hb => ?_⟩)
      rw [List.mem_singleton.1 hb]
      exact List.all_eq_true.1 hk a ha
    · exact ih _ h

/-- What is dropped is closer than `d` to something kept before it. -/
theorem greedy_drops (d : ℕ) {R : ℕ → ℕ → Prop} (l : List ℕ) : ∀ keep, (keep ++ l).Pairwise R → ∀ i ∈ l,
    i ∉ greedy d keep l → ∃ j ∈ greedy d keep l, R j i ∧ apart d i j = false := by
  induction l with
  | nil => intro keep _ i hi; cases hi
  | cons a l ih =>
    intro keep hR i hi hn
    unfold greedy at hn ⊢
    split_ifs at hn ⊢ with hk
    · rcases List.mem_cons.1 hi with rfl | hi
      · exact absurd ((greedy_prefix d l (keep ++ [i])).subset (by simp)) hn
      · exact ih (keep ++ [a]) (by simpa using hR) i hi hn
    · have hR' : (keep ++ l).Pairwise R := hR.sublist (List.Sublist.append_left (List.sublist_cons_self a l) keep)
      rcases List.mem_cons.1 hi with rfl | hi
      · have : ∃ j ∈ keep, apart d i j = false := by
          simpa [List.all_eq_true] using hk
        obtain ⟨j, hj, hd⟩ := this
        exact ⟨j, (greedy_prefix d l keep).subset hj, (List.pairwise_append.1 hR).2.2 j hj i (by simp), hd⟩
      · exact ih keep hR' i hi hn

/-! ### The output -/

theorem insertAscending_perm (i : ℕ) (l : List ℕ) : (insertAscending i l).Perm (i :: l) := by
  induction l with
  | nil => exact .refl _
  | cons j l ih =>
    unfold insertAscending
    split_ifs
    · exact .refl _
    · exact (ih.cons j).trans (.swap i j l)

theorem ascending_perm (l : List ℕ) : (l.foldr insertAscending []).Perm l := by
  induction l with
  | nil => exact .refl _
  | cons i l ih => exact (insertAscending_perm i _).trans (ih.cons i)

theorem insertAscending_sorted (i : ℕ) (l : List ℕ) (hl : l.Pairwise (· ≤ ·)) :
    (insertAscending i l).Pairwise (· ≤ ·) := by
  induction l with
  | nil => simp [insertAscending]
  | cons j l ih =>
    have hl' := List.pairwise_cons.1 hl
    unfold insertAscending
    split_ifs with h
    · exact List.pairwise_cons.2 ⟨fun x hx => by
        rcases List.mem_cons.1 hx with rfl | hx
        · exact h
        · exact h.trans (hl'.1 x hx), hl⟩
    · refine List.pairwise_cons.2 ⟨fun x hx => ?_, ih hl'.2⟩
      rcases List.mem_cons.1 ((insertAscending_perm i l).mem_iff.1 hx) with rfl | hx
      · omega
      · exact hl'.1 x hx

theorem ascending_sorted (l : List ℕ) : (l.foldr insertAscending []).Pairwise (· ≤ ·) := by
  induction l with
  | nil => exact .nil
  | cons i l ih => exact insertAscending_sorted i _ ih

theorem mem_survivors {p : Config.Params} {frac : Word} {d : ℕ} {m : List Mag} {i : ℕ} :
    i ∈ survivors p frac d m ↔ i ∈ greedy d [] (rankOrder m (qualifying p frac m)) :=
  (ascending_perm _).mem_iff

theorem survivors_qualify {p : Config.Params} {frac : Word} {d : ℕ} {m : List Mag} {i : ℕ}
    (h : i ∈ survivors p frac d m) : i ∈ qualifying p frac m := by
  have := (greedy_sublist d (rankOrder m (qualifying p frac m)) []).subset (mem_survivors.1 h)
  exact (rankOrder_perm m _).mem_iff.1 (by simpa using this)

theorem survivors_sorted (p : Config.Params) (frac : Word) (d : ℕ) (m : List Mag) :
    (survivors p frac d m).Pairwise (· < ·) := by
  have hn : (survivors p frac d m).Nodup := by
    refine (ascending_perm _).nodup_iff.2 ((greedy_sublist d _ []).nodup ?_)
    rw [List.nil_append]
    exact (rankOrder_perm m _).nodup_iff.2 ((qualifying_sorted p frac m).imp (fun h => h.ne))
  exact ((ascending_sorted _).and hn).imp (fun h => lt_of_le_of_ne h.1 h.2)

/-! ### The maximum, and magnitudes as numbers -/

variable {n : Config.NumInstance}

theorem magAt_mem {m : List Mag} {i : ℕ} (hi : i < m.length) : magAt m i ∈ m := by
  unfold magAt
  rw [List.getD_eq_getElem _ _ hi]
  exact List.getElem_mem hi

theorem magAt_lt_iff {m : List Mag} (h : ∀ x ∈ m, x.Legal n) {i j : ℕ} (hi : i < m.length) (hj : j < m.length) :
    (magAt m i).lt (magAt m j) = true ↔ (magAt m i).place < (magAt m j).place :=
  (h _ (magAt_mem hi)).lt_iff (h _ (magAt_mem hj))

theorem maxMag_spec : ∀ (m : List Mag), m ≠ [] → (∀ x ∈ m, x.Legal n) →
    maxMag m ∈ m ∧ ∀ x ∈ m, x.place ≤ (maxMag m).place
  | [], h, _ => absurd rfl h
  | [a], _, _ => by simp [maxMag]
  | a :: b :: rest, _, hl => by
    obtain ⟨h1, h2⟩ := maxMag_spec (b :: rest) (by simp) (fun x hx => hl x (List.mem_cons_of_mem _ hx))
    have hlt := (hl a (by simp)).lt_iff (hl _ (List.mem_cons_of_mem _ h1))
    have e : maxMag (a :: b :: rest) = if a.lt (maxMag (b :: rest)) then maxMag (b :: rest) else a := rfl
    rw [e]
    split_ifs with h
    · refine ⟨List.mem_cons_of_mem _ h1, fun x hx => ?_⟩
      rcases List.mem_cons.1 hx with rfl | hx
      · exact (hlt.1 h).le
      · exact h2 x hx
    · refine ⟨by simp, fun x hx => ?_⟩
      rcases List.mem_cons.1 hx with rfl | hx
      · exact le_rfl
      · exact (h2 x hx).trans (not_lt.1 (fun hc => h (hlt.2 hc)))

/-! ### Capacity -/

/-- Strictly rising numbers no two of which are adjacent, all in `1 .. K-1`: at most `K/2`. -/
theorem length_of_nonadjacent (K : ℕ) : ∀ (l : List ℕ) (a : ℕ), l.Pairwise (fun x y => x + 2 ≤ y) →
    (∀ x ∈ l, a ≤ x ∧ x + 1 ≤ K) → a ≤ K → l.length ≤ (K - a + 1) / 2
  | [], _, _, _, _ => Nat.zero_le _
  | x :: l, a, h, hb, ha => by
    rw [List.pairwise_cons] at h
    have hx := hb x (by simp)
    by_cases hx2 : x + 2 ≤ K
    · have := length_of_nonadjacent K l (x + 2) h.2
        (fun y hy => ⟨h.1 y hy, (hb y (List.mem_cons_of_mem _ hy)).2⟩) hx2
      simp only [List.length_cons]
      omega
    · have : l = [] := by
        rw [List.eq_nil_iff_forall_not_mem]
        intro y hy
        have h1 := h.1 y hy
        have h2 := (hb y (List.mem_cons_of_mem _ hy)).2
        omega
      subst this
      simp only [List.length_cons, List.length_nil]
      omega

theorem survivors_length_le {p : Config.Params} {frac : Word} {d : ℕ} {m : List Mag} (hm : m.length = p.K + 1)
    (hl : ∀ x ∈ m, x.Legal n) :
    (survivors p frac d m).length ≤ p.peakMax := by
  have hc : ∀ i ∈ survivors p frac d m, i ∈ candidates m p.K :=
    fun i hi => (List.mem_filter.1 (survivors_qualify hi)).1
  have hp : (survivors p frac d m).Pairwise (fun x y => x + 2 ≤ y) := by
    refine (survivors_sorted p frac d m).imp_of_mem (fun {x y} hx hy hlt => ?_)
    by_contra hne
    have hxy : y = x + 1 := by omega
    subst hxy
    obtain ⟨-, -, -, h1⟩ := mem_candidates.1 (hc x hx)
    obtain ⟨-, hyK, h2, -⟩ := mem_candidates.1 (hc (x + 1) hy)
    rw [magAt_lt_iff hl (by omega) (by omega)] at h1 h2
    simp only [Nat.add_sub_cancel] at h2
    linarith
  have hK : 0 < p.K := Nat.succ_pos _
  have := length_of_nonadjacent p.K _ 1 hp
    (fun x hx => ⟨(mem_candidates.1 (hc x hx)).1, (mem_candidates.1 (hc x hx)).2.1⟩) hK
  simp only [Config.Params.peakMax, Config.Params.N]
  omega

end Sys2Proof.Machine
end

