-- ==== Sys2Proof/Laws/Words.lean ====
section
/-! SUPPORT. Words and their bytes, the range of a signed word, and what decoding a whole frame does. -/

namespace Sys2Proof

theorem oneWord_wordBytes (u : Word) : oneWord (wordBytes u) = some u := by
  simp only [wordBytes, oneWord, Option.some.injEq, le32]
  ext i hi
  simp only [BitVec.getElem_append, BitVec.getElem_extractLsb']
  have := hi
  interval_cases i <;> simp [BitVec.getLsbD_eq_getElem]

theorem wordBytes_le32 (b0 b1 b2 b3 : Byte) : wordBytes (le32 b0 b1 b2 b3) = [b0, b1, b2, b3] := by
  simp only [wordBytes, le32, List.cons.injEq, and_true]
  refine ⟨?_, ?_, ?_, ?_⟩ <;>
  · ext i hi
    simp only [BitVec.getElem_extractLsb', BitVec.getLsbD_append]
    interval_cases i <;> simp [BitVec.getLsbD_eq_getElem]

theorem wordBytes_of_oneWord {bs : List Byte} {u : Word} (h : oneWord bs = some u) : wordBytes u = bs := by
  unfold oneWord at h
  split at h
  · cases h
    exact wordBytes_le32 _ _ _ _
  · cases h

theorem sext32_range (u : Word) : -2 ^ 31 ≤ sext32 u ∧ sext32 u < 2 ^ 31 := by
  have := u.isLt
  unfold sext32
  split_ifs <;> omega

theorem elementWords_length : ∀ (n : Nat) (bs : List Byte), bs.length = 4 * n → (elementWords bs).length = n
  | 0, bs, h => by
    have : bs = [] := List.length_eq_zero_iff.1 (by omega)
    subst this
    rfl
  | n + 1, bs, h => by
    match bs, h with
    | _ :: _ :: _ :: _ :: rest, h =>
      simp only [List.length_cons] at h
      simp only [elementWords, List.length_cons]
      rw [elementWords_length n rest (by omega)]

namespace Machine

theorem foldl_putF32 (us : List Word) :
    ∀ s : State, us.foldl (fun t u => putF32 u t) s = { s with samp := s.samp ++ us.map .f32 } := by
  induction us with
  | nil => intro s; simp
  | cons u us ih =>
    intro s
    rw [List.foldl_cons, ih]
    simp [putF32, State.pushSample]

/-- DECODE_F32's element-by-element decoding is the map of `f32` over the payload's words (R151, R152). -/
theorem decodeFrame_eq (s : State) :
    decodeFrame s = { s with samp := (elementWords (s.raw.take s.par.frameBytes)).map .f32 } := by
  rw [decodeFrame, foldl_putF32]
  simp

end Machine

end Sys2Proof
end

