-- ==== Sys2Proof/Laws/Analyzer.lean ====
section
/-! SUPPORT. What the analyzer's functions give: as many legal magnitudes as there are bins, whichever `NUM`. -/

namespace Sys2Proof.Machine

theorem N_ge_two (p : Config.Params) : 2 ≤ p.N := by
  have : 0 < p.K := Nat.succ_pos _
  simp only [Config.Params.N]
  omega

theorem exactMagnitude_legal (sel : BitVec 1) {N : ℕ} (hN : 2 ≤ N) (x : List Sample) (hx : x.length = N) (k : ℕ) :
    (exactMagnitude (windowOf sel) N (x.map sampleUnits) k).Legal :=
  ExactMag.legal_of_square (exactMagnitude_wf _ (windowOf_d_pos sel) hN _ k)
    (by rw [exactMagnitude_square sel hN x hx k]; positivity)

theorem spectrum_length (p : Config.Params) (sel : BitVec 1) (x : List Sample) :
    (spectrum p sel x).length = p.K + 1 := by
  simp [spectrum]

theorem spectrum_legal (p : Config.Params) (sel : BitVec 1) (x : List Sample) (hx : x.length = p.N) :
    ∀ m ∈ spectrum p sel x, m.Legal p.num := by
  intro m hm
  obtain ⟨k, -, rfl⟩ := List.mem_map.1 hm
  unfold spectrumAt
  cases hp : p.num with
  | exact => exact exactMagnitude_legal sel (N_ge_two p) x hx k
  | implementation => trivial

/-- The exact instance of `NUM.spectrum`, as real numbers, is the reference semantics (R166 to R171). -/
theorem spectrumAt_toReal {p : Config.Params} (hp : p.num = .exact) (sel : BitVec 1) (x : List Sample)
    (hx : x.length = p.N) (k : ℕ) : (spectrumAt p sel x k).toReal = Reference.magnitude sel p.N x k := by
  unfold spectrumAt
  rw [hp]
  exact exactMagnitude_toReal sel (N_ge_two p) x hx k

theorem drawnSpectrum_length (s : State) : (drawnSpectrum s).length = s.par.K + 1 := by
  simp [drawnSpectrum]

theorem drawnSpectrum_legal (s : State) : ∀ m ∈ drawnSpectrum s, m.Legal s.par.num := by
  intro m hm
  obtain ⟨k, -, rfl⟩ := List.mem_map.1 hm
  unfold drawnMagnitude
  cases s.par.num with
  | exact => exact ExactMag.ofRat_legal _
  | implementation => trivial

/-- The spectrum buffer that ANALYZE leaves (R33). -/
theorem analyzed_mag (fs : Rat) (w : BitVec 1) (s : State) (hx : s.samp.length = s.par.N) :
    (analyzed fs w s).mag.length = s.par.K + 1 ∧ ∀ m ∈ (analyzed fs w s).mag, m.Legal s.par.num := by
  have ht : (s.samp.take s.par.N).length = s.par.N := by simp [hx]
  unfold analyzed
  dsimp only
  split
  · exact ⟨drawnSpectrum_length s, drawnSpectrum_legal s⟩
  · exact ⟨spectrum_length _ _ _, spectrum_legal _ _ _ ht⟩

end Sys2Proof.Machine
end

