-- ==== Sys2Proof/Laws/PerInstr.lean ====
section
/-! SUPPORT. One family of statements about every instruction: bytes that decode to it are its encoding. -/

namespace Sys2Proof.Laws.EncodeUnique

/-- Whatever bytes decode to `i`, in whatever context, are the encoding of `i` (R94, R97, R100). -/
def Statement (i : Instr) : Prop :=
  ∀ (p : Config.Params) (c : Context) (bs : List Byte), decode p c bs = some i → bs = encode i

theorem all (i : Instr) : Statement i := by
  intro p c bs h
  cases c <;> simp only [decode] at h
  · split at h
    · simp only [decodeCommand] at h
      rename_i w
      have hw : w = BitVec.ofNat 8 w.toNat := by simp
      generalize w.toNat = n at h hw
      subst hw
      split at h <;> first | (cases h; rfl) | cases h
    · cases h
  · split at h
    · cases h; rfl
    · split_ifs at h <;> cases h <;> rfl
    · cases h
  · split_ifs at h <;> cases h <;> rfl
  · split at h
    · rename_i hu; cases h; exact (wordBytes_of_oneWord hu).symm
    · split_ifs at h; cases h; rfl
  · split_ifs at h; cases h; rfl
  all_goals
    obtain ⟨u, hu, rfl⟩ := Option.map_eq_some_iff.1 h
    exact (wordBytes_of_oneWord hu).symm

theorem nop : Statement .nop := all _
theorem openTransport : Statement .openTransport := all _
theorem closeTransport : Statement .closeTransport := all _
theorem acquireA : Statement .acquireA := all _
theorem nextframeB : Statement .nextframeB := all _
theorem nextframeC : Statement .nextframeC := all _
theorem decodeF32 : Statement .decodeF32 := all _
theorem analyze : Statement .analyze := all _
theorem extract : Statement .extract := all _
theorem handoff : Statement .handoff := all _
theorem run : Statement .run := all _
theorem reservedB : Statement .reservedB := all _
theorem reservedC : Statement .reservedC := all _
theorem reservedD : Statement .reservedD := all _
theorem reservedE : Statement .reservedE := all _
theorem reservedF : Statement .reservedF := all _
theorem decI32 (u : Word) : Statement (.decI32 u) := all _
theorem bMarker (b : Byte) : Statement (.bMarker b) := all _
theorem bNoise (b : Byte) : Statement (.bNoise b) := all _
theorem bEmpty : Statement .bEmpty := all _
theorem bPayload (p : List Byte) : Statement (.bPayload p) := all _
theorem bShort (p : List Byte) : Statement (.bShort p) := all _
theorem cDgram (d : List Byte) : Statement (.cDgram d) := all _
theorem aElem (u : Word) : Statement (.aElem u) := all _
theorem aShort (bs : List Byte) : Statement (.aShort bs) := all _
theorem elemF32 (u : Word) : Statement (.elemF32 u) := all _
theorem elemI32 (u : Word) : Statement (.elemI32 u) := all _

end Sys2Proof.Laws.EncodeUnique
end

