-- ==== Sys2Proof/Laws/Transition.lean ====
section
/-! SUPPORT. Everything a step can do, said once: `CoreTrans` lists the transitions of the core with their guards,
`OutsideTrans` those of the other agents, and `step_cases` says that a step is one of them, a reset, or a
cancellation. -/

namespace Sys2Proof.Machine

/-! ### Contexts and decoding -/

theorem oneWord_eq_some {bs : List Byte} {u : Word} (h : oneWord bs = some u) : bs.length = 4 := by
  unfold oneWord at h
  split at h
  · rfl
  · cases h

theorem oneWord_eq_none {bs : List Byte} (h : oneWord bs = none) : bs.length ≠ 4 := by
  intro hl
  match bs, hl with
  | [_, _, _, _], _ => simp [oneWord] at h

theorem oneWord_of_length {bs : List Byte} (h : bs.length = 4) : ∃ u, oneWord bs = some u := by
  match bs, h with
  | [a, b, c, d], _ => exact ⟨le32 a b c d, rfl⟩

theorem serBytes_length {len n : Nat} {s : State} (h : s.serMayReturn n len = true) :
    (s.serBytes len).length = len := by
  simp only [State.serMayReturn, Bool.and_eq_true, decide_eq_true_iff] at h
  simp only [State.serBytes, List.length_take, List.length_drop]
  omega

theorem K_pos (p : Config.Params) : 0 < p.K := Nat.succ_pos _

theorem frameBytes_pos (p : Config.Params) : 0 < p.frameBytes := by
  have := K_pos p
  simp only [Config.Params.frameBytes, Config.Params.N]
  omega

/-! ### The transitions of the core -/

/-- One transition of the core from `s` to `t`, with what it requires of `s`. -/
inductive CoreTrans (s : State) : State → Prop where
  /-- No effect: NOP, a command outside `IDLE`, a wait, a move out of turn. -/
  | stay : CoreTrans s s
  | opened (v : BitVec 2) (hs : s.stage = .idle) (hv : s.cfg.variant = some v) (h3 : v ≠ 3)
      (hc : s.transportOpen = false) : CoreTrans s { s with transportOpen := true }
  | closed (hs : s.stage = .idle) : CoreTrans s { s with transportOpen := false }
  | accepted (st : Stage) (hs : s.stage = .idle)
      (ha : st = .acquire → s.transportOpen = true ∧ ∃ v, s.cfg.variant = some v ∧ (v = 0 ∨ v = 1 ∨ v = 2))
      (hd : st = .decode → s.cfg.variant = some 1 ∨ s.cfg.variant = some 2)
      (hst : st = .acquire ∨ st = .decode ∨ st = .analyze ∨ st = .extract ∨ st = .handoff) :
      CoreTrans s (s.enterStage st)
  | ran (hs : s.stage = .idle) (hr : runCheck s = none) (ho : s.transportOpen = true) :
      CoreTrans s (State.enterStage .acquire { s with loop := true })
  | idleFault (c : FaultCode) (hs : s.stage = .idle) (hc : c ≠ .none) : CoreTrans s (s.enterFault c)
  | variantFault (hs : s.stage = .acquire) (hp : s.phase ≠ .wait)
      (hv : s.cfg.variant ≠ some 0 ∧ s.cfg.variant ≠ some 1 ∧ s.cfg.variant ≠ some 2) :
      CoreTrans s (s.enterFault .configRange)
  | startA (c : Word) (hs : s.stage = .acquire) (hp : s.phase = .start) (hv : s.cfg.variant = some 0)
      (hc : s.cfg.count = some c) (hl : c.toNat ≤ s.par.sampCap) :
      CoreTrans s (State.examine { s.clearForAcquire.serFlush with samp := [], consumed := 0, phase := .write })
  | countFault (hs : s.stage = .acquire) (hp : s.phase = .start) (hv : s.cfg.variant = some 0)
      (hc : ∀ c, s.cfg.count = some c → s.par.sampCap < c.toNat) : CoreTrans s (s.enterFault .configRange)
  | requested (hs : s.stage = .acquire) (hp : s.phase = .write) (hv : s.cfg.variant = some 0) :
      CoreTrans s (State.examine
        { s.serWrite (request s.requestedCount ++ s.par.reqTerminator) with phase := .wait })
  | startB (m : Byte) (hs : s.stage = .acquire) (hp : s.phase = .start) (hv : s.cfg.variant = some 1)
      (hm : s.cfg.headerMarker = some m) : CoreTrans s s.clearForAcquire.block
  | markerFault (hs : s.stage = .acquire) (hp : s.phase = .start) (hv : s.cfg.variant = some 1)
      (hm : s.cfg.headerMarker = none) : CoreTrans s (s.enterFault .configRange)
  | startC (hs : s.stage = .acquire) (hp : s.phase = .start) (hv : s.cfg.variant = some 2) :
      CoreTrans s (State.block { s.clearForAcquire with acc := [] })
  | decoded (hs : s.stage = .decode) (hr : s.rawValid = true) :
      CoreTrans s (State.finishStage .analyze
        { decodeFrame s with sampLen := s.par.N, sampValid := true, rawValid := false })
  | decodeFault (hs : s.stage = .decode) (hr : s.rawValid = false) : CoreTrans s (s.enterFault .bufferNotValid)
  | analyzed (fs : Rat) (w : BitVec 1) (hs : s.stage = .analyze) (hc : analyzeCheck s = none)
      (hf : s.cfg.sampleRate = some fs) (hw : s.cfg.windowSel = some w) :
      CoreTrans s ((analyzed fs w s).finishStage .extract)
  | analyzeFault (c : FaultCode) (hs : s.stage = .analyze) (hc : analyzeCheck s = some c) :
      CoreTrans s (s.enterFault c)
  | extracted (f d : Word) (hs : s.stage = .extract) (hv : s.specValid = true)
      (hf : s.cfg.minHeightFraction = some f) (hd : s.cfg.minBinDistance = some d) (hn : f32NonFinite f = false) :
      CoreTrans s ((extracted f d.toNat s).finishStage .handoff)
  | extractFault (c : FaultCode) (hs : s.stage = .extract)
      (hc : c = .bufferNotValid ∧ s.specValid = false ∨
        c = .configRange ∧ ∀ f d, s.cfg.minHeightFraction = some f → s.cfg.minBinDistance = some d →
          f32NonFinite f = true) : CoreTrans s (s.enterFault c)
  | offered (hs : s.stage = .handoff) (hp : s.phase = .start) (h1 : s.sampValid = true) (h2 : s.specValid = true)
      (h3 : s.peakValid = true) : CoreTrans s s.block
  | handoffFault (hs : s.stage = .handoff) (hp : s.phase = .start)
      (hv : (s.sampValid && s.specValid && s.peakValid) = false) : CoreTrans s (s.enterFault .bufferNotValid)
  | delivered (hs : s.stage = .handoff) (hp : s.phase = .wait) : CoreTrans s (s.deliver.finishStage .acquire)
  | cancelled (hc : s.cancelPending = true) (hs : s.stage = .acquire ∨ s.stage = .handoff) (hp : s.phase = .wait) :
      CoreTrans s s.enterCancel
  | marker (b : Byte) (hs : s.stage = .acquire) (hp : s.phase = .wait) (hv : s.cfg.variant = some 1)
      (hm : s.cfg.headerMarker = some b) (hmode : s.mode = .searchingHeader)
      (hb : s.env.serIn[s.env.serPos]? = some b) :
      CoreTrans s (State.examine { s.serAdvance 1 with mode := .collectingPayload })
  | noise (len : Nat) (hs : s.stage = .acquire) (hp : s.phase = .wait) (hv : s.cfg.variant = some 1)
      (hmode : s.mode = .searchingHeader) : CoreTrans s (State.examine (s.serAdvance len))
  | payload (hs : s.stage = .acquire) (hp : s.phase = .wait) (hv : s.cfg.variant = some 1)
      (hmode : s.mode = .collectingPayload) (hl : s.env.serPos + s.par.frameBytes ≤ s.env.serIn.length) :
      CoreTrans s ((s.serAdvance s.par.frameBytes).emitFrame (s.serBytes s.par.frameBytes))
  | short (len : Nat) (hs : s.stage = .acquire) (hp : s.phase = .wait) (hv : s.cfg.variant = some 1)
      (hmode : s.mode = .collectingPayload) (hl : len < s.par.frameBytes) :
      CoreTrans s (State.examine { s.serAdvance len with mode := .searchingHeader, consumed := 0 })
  | gathered (d : List Byte) (hs : s.stage = .acquire) (hp : s.phase = .wait) (hv : s.cfg.variant = some 2)
      (hd : s.env.dgramIn[s.env.dgramPos]? = some d) (hl : (s.acc ++ d).length < s.par.frameBytes) :
      CoreTrans s (State.examine { s.dgramAdvance with
        acc := s.acc ++ d, consumed := min (s.acc ++ d).length s.par.frameBytes })
  | filled (d : List Byte) (hs : s.stage = .acquire) (hp : s.phase = .wait) (hv : s.cfg.variant = some 2)
      (hd : s.env.dgramIn[s.env.dgramPos]? = some d) (hl : s.par.frameBytes ≤ (s.acc ++ d).length) :
      CoreTrans s (State.emitFrame ((s.acc ++ d).take s.par.frameBytes) { s.dgramAdvance with acc := [] })
  | element (u : Word) (hs : s.stage = .acquire) (hp : s.phase = .wait) (hv : s.cfg.variant = some 0)
      (hk : s.elementIndex < s.requestedCount) :
      CoreTrans s (State.examine { putI32 u (s.serAdvance 4) with consumed := s.consumed + 4 })
  | trailer (u : Word) (hs : s.stage = .acquire) (hp : s.phase = .wait) (hv : s.cfg.variant = some 0)
      (hk : s.requestedCount ≤ s.elementIndex) :
      CoreTrans s (State.finishStage .analyze { s.serAdvance 4 with
        trailing := sext32 u, sampLen := s.requestedCount, sampValid := true, trailingValid := true, consumed := 0 })
  | insufficient (len : Nat) (hs : s.stage = .acquire) (hp : s.phase = .wait) (hv : s.cfg.variant = some 0)
      (hl : len < 4) : CoreTrans s ((s.serAdvance len).enterFault .insufficientData)

/-- One move of an agent outside the core, but for reset and the answers of a blocked primitive. -/
inductive OutsideTrans (s : State) : State → Prop where
  | wrote (c : CfgWrite) (hs : s.stage = .idle) (hv : ∀ v, c = .variant v → s.transportOpen = false) :
      OutsideTrans s { s with cfg := s.cfg.write c }
  | interrupted : OutsideTrans s { s with cancelPending := true }
  | surroundings (e : Env) (hp : e.serPos = s.env.serPos) (ho : e.serOut = s.env.serOut)
      (hd : e.dgramPos = s.env.dgramPos) (hk : e.sink = s.env.sink)
      (hi : ∃ bs, e.serIn = s.env.serIn ++ bs) (hg : ∃ ds, e.dgramIn = s.env.dgramIn ++ ds) :
      OutsideTrans s { s with env := e }

/-! ### The meanings -/

theorem raiseFault_next {c : FaultCode} {s t : State} (h : raiseFault c s = .next t) : t = s.enterFault c := by
  cases h
  rfl

theorem illegalCommand_cases {s t : State} (h : illegalCommand s = .next t) : CoreTrans s t := by
  unfold illegalCommand at h
  split at h
  · rename_i hs
    rw [raiseFault_next h]
    exact .idleFault _ hs (by decide)
  all_goals cases h; exact .stay

theorem acceptAcquisition_cases {v : BitVec 2} (hv : v = 0 ∨ v = 1 ∨ v = 2) {s t : State} (hs : s.stage = .idle)
    (h : acceptAcquisition v s = .next t) : CoreTrans s t := by
  unfold acceptAcquisition at h
  split at h
  · rw [raiseFault_next h]; exact .idleFault _ hs (by decide)
  · rename_i w hw
    split_ifs at h with h1 h2
    · rw [raiseFault_next h]; exact .idleFault _ hs (by decide)
    · cases h
      have : w = v := by simpa using h1
      exact .accepted .acquire hs (fun _ => ⟨h2, w, hw, this ▸ hv⟩) (fun h => by cases h) (.inl rfl)
    · rw [raiseFault_next h]; exact .idleFault _ hs (by decide)

theorem execNop_cases {s t : State} (h : execNop s = .next t) : CoreTrans s t := by
  cases h
  exact .stay

theorem execOpen_cases {s t : State} (h : execOpen s = .next t) : CoreTrans s t := by
  unfold execOpen at h
  split at h
  · rename_i hs
    split at h
    · rw [raiseFault_next h]; exact .idleFault _ hs (by decide)
    · rename_i v hv
      split_ifs at h with h1 h2 h3
      · rw [raiseFault_next h]; exact .idleFault _ hs (by decide)
      · rw [raiseFault_next h]; exact .idleFault _ hs (by decide)
      · cases h; exact .opened v hs hv h1 (by simpa using h2)
      · rw [raiseFault_next h]; exact .idleFault _ hs (by decide)
  all_goals cases h; exact .stay

theorem execClose_cases {s t : State} (h : execClose s = .next t) : CoreTrans s t := by
  unfold execClose at h
  split at h
  · rename_i hs; cases h; exact .closed hs
  all_goals cases h; exact .stay

theorem runCheck_fault {s : State} {c : FaultCode} (h : runCheck s = some c) : c ≠ .none := by
  rintro rfl
  unfold runCheck at h
  split at h
  · repeat' split at h
    all_goals simp at h
  · simp at h

/-- What a passed configuration check says (R208, R255). -/
theorem runCheck_none {s : State} (h : runCheck s = none) :
    ∃ v w fs f d, s.cfg.variant = some v ∧ s.cfg.windowSel = some w ∧ s.cfg.sampleRate = some fs ∧
      s.cfg.minHeightFraction = some f ∧ s.cfg.minBinDistance = some d ∧ v ≠ 3 ∧
      (w = 1 → s.par.hammingPresent = true) ∧ 0 < fs ∧ f32NonFinite f = false ∧
      (v = 0 → ∃ c, s.cfg.count = some c ∧ c.toNat ≤ s.par.sampCap ∧ c.toNat = s.par.N) ∧
      (v = 1 → s.cfg.headerMarker ≠ none) := by
  unfold runCheck at h
  split at h
  · rename_i v w fs f d hv hw hfs hf hd
    split_ifs at h with h1 h2 h3 h4 h5 h6
    · refine ⟨v, w, fs, f, d, hv, hw, hfs, hf, hd, h1, fun hw1 => by simpa [hw1] using h2, h3,
        by simpa using h4, fun _ => ?_, fun h => by rw [h5] at h; cases h⟩
      split at h
      · cases h
      · rename_i c hc
        split_ifs at h with h6 h7
        exact ⟨c, hc, not_lt.1 h6, not_not.1 h7⟩
    · exact ⟨v, w, fs, f, d, hv, hw, hfs, hf, hd, h1, fun hw1 => by simpa [hw1] using h2, h3,
        by simpa using h4, fun h => absurd h h5, fun hv1 hm => h6 ⟨hv1, hm⟩⟩
  · cases h

theorem execRun_cases {s t : State} (h : execRun s = .next t) : CoreTrans s t := by
  unfold execRun at h
  split at h
  · rename_i hs
    split at h
    · rename_i c hc
      rw [raiseFault_next h]
      exact .idleFault _ hs (runCheck_fault hc)
    · rename_i hr
      split_ifs at h with ho
      · cases h; exact .ran hs hr ho
      · rw [raiseFault_next h]; exact .idleFault _ hs (by decide)
  all_goals cases h; exact .stay

theorem execHandoff_cases {s t : State} (h : execHandoff s = .next t) : CoreTrans s t := by
  unfold execHandoff at h
  split at h
  · rename_i hs
    cases h
    exact .accepted .handoff hs (fun h => by cases h) (fun h => by cases h) (by simp)
  · rename_i hs
    split at h
    · rename_i hp
      split_ifs at h with hv
      · cases h
        simp only [Bool.and_eq_true] at hv
        exact .offered hs hp hv.1.1 hv.1.2 hv.2
      · rw [raiseFault_next h]
        exact .handoffFault hs hp (by simpa using hv)
    · rename_i hp; cases h; exact .delivered hs hp
    all_goals cases h; exact .stay
  all_goals cases h; exact .stay

theorem execDecodeF32_cases {s t : State} (h : execDecodeF32 s = .next t) : CoreTrans s t := by
  unfold execDecodeF32 at h
  split at h
  · rename_i hs
    split at h
    · rw [raiseFault_next h]; exact .idleFault _ hs (by decide)
    · rename_i v hv
      split_ifs at h with h1
      · cases h
        refine .accepted .decode hs (fun h => by cases h) (fun _ => ?_) (by simp)
        rcases h1 with rfl | rfl
        · exact .inl hv
        · exact .inr hv
      · rw [raiseFault_next h]; exact .idleFault _ hs (by decide)
  · rename_i hs
    split_ifs at h with hr
    · cases h; exact .decoded hs hr
    · rw [raiseFault_next h]; exact .decodeFault hs (by simpa using hr)
  all_goals cases h; exact .stay

theorem analyzeCheck_none {s : State} (h : analyzeCheck s = none) :
    s.sampValid = true ∧ s.sampLen = s.par.N ∧ ∃ fs w, s.cfg.sampleRate = some fs ∧ s.cfg.windowSel = some w ∧
      0 < fs ∧ (w = 1 → s.par.hammingPresent = true) := by
  unfold analyzeCheck at h
  split_ifs at h with h1 h2
  split at h
  · rename_i fs w hf hw
    split_ifs at h with h3 h4
    refine ⟨by simpa using h1, not_not.1 h2, fs, w, hf, hw, h3, fun hw1 => ?_⟩
    by_contra hc
    exact h4 ⟨hw1, by simpa using hc⟩
  · cases h

theorem execAnalyze_cases {s t : State} (h : execAnalyze s = .next t) : CoreTrans s t := by
  unfold execAnalyze at h
  split at h
  · rename_i hs
    cases h
    exact .accepted .analyze hs (fun h => by cases h) (fun h => by cases h) (by simp)
  · rename_i hs
    split at h
    · rename_i fs w hc hf hw
      cases h
      exact .analyzed fs w hs hc hf hw
    · rename_i c hc
      rw [raiseFault_next h]
      exact .analyzeFault c hs hc
    · rename_i hc hx
      obtain ⟨-, -, fs, w, hf, hw, -⟩ := analyzeCheck_none hc
      exact absurd hw (hx fs w hf)
  all_goals cases h; exact .stay

theorem execExtract_cases {s t : State} (h : execExtract s = .next t) : CoreTrans s t := by
  unfold execExtract at h
  split at h
  · rename_i hs
    cases h
    exact .accepted .extract hs (fun h => by cases h) (fun h => by cases h) (by simp)
  · rename_i hs
    split_ifs at h with hv
    · split at h
      · rename_i f d hf hd
        split_ifs at h with hn
        · rw [raiseFault_next h]
          exact .extractFault _ hs (.inr ⟨rfl, fun f' d' hf' _ => by rw [hf] at hf'; cases hf'; exact hn⟩)
        · cases h
          exact .extracted f d hs hv hf hd (by simpa using hn)
      · rename_i hx
        rw [raiseFault_next h]
        exact .extractFault _ hs (.inr ⟨rfl, fun f d hf hd => absurd hd (hx f d hf)⟩)
    · rw [raiseFault_next h]
      exact .extractFault _ hs (.inl ⟨rfl, by simpa using hv⟩)
  all_goals cases h; exact .stay

/-- ACQUIRE_A in `IDLE`, or in stage ACQUIRE under variant A. -/
theorem execAcquireA_cases {s t : State} (hv : s.stage = .acquire → s.cfg.variant = some 0)
    (h : execAcquireA s = .next t) : CoreTrans s t := by
  unfold execAcquireA at h
  split at h
  · rename_i hs; exact acceptAcquisition_cases (.inl rfl) hs h
  · rename_i hs
    split at h
    · rename_i hp
      split at h
      · rename_i hc
        rw [raiseFault_next h]
        exact .countFault hs hp (hv hs) (fun c h => by rw [hc] at h; cases h)
      · rename_i c hc
        split_ifs at h with hl
        · rw [raiseFault_next h]
          exact .countFault hs hp (hv hs) (fun c' h => by rw [hc] at h; cases h; exact hl)
        · cases h; exact .startA c hs hp (hv hs) hc (not_lt.1 hl)
    · rename_i hp; cases h; exact .requested hs hp (hv hs)
    · cases h; exact .stay
  all_goals cases h; exact .stay

theorem execNextframeB_cases {s t : State} (hv : s.stage = .acquire → s.cfg.variant = some 1)
    (h : execNextframeB s = .next t) : CoreTrans s t := by
  unfold execNextframeB at h
  split at h
  · rename_i hs; exact acceptAcquisition_cases (.inr (.inl rfl)) hs h
  · rename_i hs
    split at h
    · rename_i hp
      split at h
      · rename_i hm; rw [raiseFault_next h]; exact .markerFault hs hp (hv hs) hm
      · rename_i m hm; cases h; exact .startB m hs hp (hv hs) hm
    all_goals cases h; exact .stay
  all_goals cases h; exact .stay

theorem execNextframeC_cases {s t : State} (hv : s.stage = .acquire → s.cfg.variant = some 2)
    (h : execNextframeC s = .next t) : CoreTrans s t := by
  unfold execNextframeC at h
  split at h
  · rename_i hs; exact acceptAcquisition_cases (.inr (.inr rfl)) hs h
  · rename_i hs
    split at h
    · rename_i hp; cases h; exact .startC hs hp (hv hs)
    all_goals cases h; exact .stay
  all_goals cases h; exact .stay

/-! ### The moves -/

theorem acquisition_cases {s t : State} (hs : s.stage = .acquire) (hp : s.phase ≠ .wait)
    (h : acquisition s = .next t) : CoreTrans s t := by
  unfold acquisition at h
  split at h
  · rename_i hv; exact execAcquireA_cases (fun _ => hv) h
  · rename_i hv; exact execNextframeB_cases (fun _ => hv) h
  · rename_i hv; exact execNextframeC_cases (fun _ => hv) h
  · rename_i h0 h1 h2
    rw [raiseFault_next h]
    exact .variantFault hs hp ⟨h0, h1, h2⟩

theorem waitMove_cases {s t : State} (hs : s.stage = .acquire ∨ s.stage = .handoff) (hp : s.phase = .wait)
    (h : waitMove s = .next t) : CoreTrans s t := by
  unfold waitMove at h
  split_ifs at h with hc
  · cases h; exact .cancelled hc hs hp
  · cases h; exact .stay

theorem coreMove_cases {s t : State} (h : coreMove s = .next t) : CoreTrans s t := by
  unfold coreMove at h
  split at h
  · cases h; exact .stay
  · cases h; exact .stay
  · cases h; exact .stay
  · rename_i hs
    split_ifs at h with hb
    · have : s.phase = .wait := by simp [blockedOnTransport, hs] at hb; exact hb
      exact waitMove_cases (.inl hs) this h
    · exact acquisition_cases hs (by simp [blockedOnTransport, hs] at hb; exact hb) h
  · exact execDecodeF32_cases h
  · exact execAnalyze_cases h
  · exact execExtract_cases h
  · rename_i hs
    split_ifs at h with hb
    · have : s.phase = .wait := by simp [blockedOnSink, hs] at hb; exact hb
      exact waitMove_cases (.inr hs) this h
    · exact execHandoff_cases h

theorem commandMove_cases {w : Byte} {s t : State} (h : commandMove w s = .next t) : CoreTrans s t := by
  unfold commandMove at h
  split at h
  · rename_i hs
    have hna : ∀ v, s.stage = .acquire → s.cfg.variant = some v := by
      intro v ha; rw [hs] at ha; cases ha
    split at h
    · rename_i i hi
      simp only [decode, decodeCommand] at hi
      split at hi <;> cases hi
      · exact execNop_cases h
      · exact execOpen_cases h
      · exact execClose_cases h
      · exact execAcquireA_cases (hna _) h
      · exact execNextframeB_cases (hna _) h
      · exact execNextframeC_cases (hna _) h
      · exact execDecodeF32_cases h
      · exact execAnalyze_cases h
      · exact execExtract_cases h
      · exact execHandoff_cases h
      · exact execRun_cases h
      all_goals exact illegalCommand_cases h
    · exact illegalCommand_cases h
  all_goals cases h; exact .stay

theorem blockedOnTransport_iff {s : State} : blockedOnTransport s = true ↔ s.stage = .acquire ∧ s.phase = .wait := by
  simp [blockedOnTransport]

theorem blockedOnSink_iff {s : State} : blockedOnSink s = true ↔ s.stage = .handoff ∧ s.phase = .wait := by
  simp [blockedOnSink]

/-- The read in progress (R68). -/
theorem serialRequest_cases {s : State} {c : Context} {n : Nat} (h : serialRequest s = some (c, n)) :
    s.stage = .acquire ∧ s.phase = .wait ∧
      (s.cfg.variant = some 0 ∧ c = .response ∧ n = 4 ∨
        (∃ m, s.cfg.variant = some 1 ∧ s.mode = .searchingHeader ∧ s.cfg.headerMarker = some m ∧
          c = .searching m ∧ n = 1) ∨
        s.cfg.variant = some 1 ∧ s.mode = .collectingPayload ∧ c = .collecting ∧ n = s.par.frameBytes) := by
  unfold serialRequest at h
  split_ifs at h with hb
  obtain ⟨h1, h2⟩ := blockedOnTransport_iff.1 hb
  refine ⟨h1, h2, ?_⟩
  split at h
  · rename_i hv; cases h; exact .inl ⟨hv, rfl, rfl⟩
  · rename_i m hv hm hh; cases h; exact .inr (.inl ⟨m, hv, hm, hh, rfl, rfl⟩)
  · rename_i hv hm; cases h; exact .inr (.inr ⟨hv, hm, rfl, rfl⟩)
  · cases h

theorem serialMove_cases {len : Nat} {s t : State} (h : serialMove len s = .next t) : CoreTrans s t := by
  unfold serialMove at h
  split at h
  · cases h; exact .stay
  · rename_i c n hr
    split_ifs at h with hm
    have hlen := serBytes_length hm
    simp only [State.serMayReturn, Bool.and_eq_true, decide_eq_true_iff] at hm
    obtain ⟨hs, hp, ⟨hv, rfl, rfl⟩ | ⟨m, hv, hmode, hh, rfl, rfl⟩ | ⟨hv, hmode, rfl, rfl⟩⟩ := serialRequest_cases hr
    · simp only [decode] at h
      cases hw : oneWord (s.serBytes len) with
      | some u =>
        rw [hw] at h
        have h4 : len = 4 := by rw [← hlen]; exact oneWord_eq_some hw
        subst h4
        simp only [exec, execAElem, deliverI32] at h
        split_ifs at h with hk
        · cases h; exact .element u hs hp hv hk
        · cases h; exact .trailer u hs hp hv (not_lt.1 hk)
      | none =>
        rw [hw] at h
        have h4 := oneWord_eq_none hw
        rw [if_pos (by omega)] at h
        rw [raiseFault_next (h : raiseFault .insufficientData _ = _)]
        exact .insufficient len hs hp hv (by omega)
    · simp only [decode] at h
      match hb : s.serBytes len, hlen with
      | [], _ =>
        rw [hb] at h
        cases h
        exact .noise len hs hp hv hmode
      | [b], hl =>
        rw [hb] at h
        have hl1 : len = 1 := by simpa using hl.symm
        subst hl1
        have hget : s.env.serIn[s.env.serPos]? = some b := by
          have h0 : (s.serBytes 1)[0]? = some b := by rw [hb]; rfl
          simpa [State.serBytes, List.getElem?_take, List.getElem?_drop] using h0
        simp only at h
        split_ifs at h with hbm
        · cases h
          exact .marker b hs hp hv (hbm ▸ hh) hmode hget
        · cases h
          exact .noise 1 hs hp hv hmode
      | _ :: _ :: _, hl =>
        simp only [List.length_cons] at hl
        omega
    · simp only [decode] at h
      split_ifs at h with h1 h2
      · have : len = s.par.frameBytes := by rw [← hlen]; exact h1
        subst this
        cases h
        exact .payload hs hp hv hmode hm.2
      · cases h
        exact .short len hs hp hv hmode (by rw [← hlen]; exact h2)
      · omega

theorem dgramMove_cases {s t : State} (h : dgramMove s = .next t) : CoreTrans s t := by
  unfold dgramMove at h
  split_ifs at h with hb
  · obtain ⟨hb, hv⟩ := hb
    obtain ⟨hs, hp⟩ := blockedOnTransport_iff.1 hb
    split at h
    · cases h; exact .stay
    · rename_i d hd
      simp only [decode] at h
      split_ifs at h with hl
      simp only [exec, execCDgram] at h
      split_ifs at h with hc
      · cases h
        exact .gathered d hs hp hv hd hc
      · cases h
        exact .filled d hs hp hv hd (not_lt.1 hc)
  · cases h; exact .stay

theorem sinkMove_cases {s t : State} (h : sinkMove s = .next t) : CoreTrans s t := by
  unfold sinkMove at h
  split_ifs at h
  · exact execHandoff_cases h
  · cases h; exact .stay

theorem writeCfg_cases {c : CfgWrite} {s t : State} (h : writeCfg c s = .next t) : OutsideTrans s t := by
  unfold writeCfg at h
  by_cases hs : s.stage = .idle
  · rw [if_neg (by simpa using hs)] at h
    cases c with
    | variant v =>
      simp only at h
      split_ifs at h with ho
      cases h
      exact .wrote _ hs (fun _ _ => by simpa using ho)
    | _ => cases h; exact .wrote _ hs (fun _ h => by cases h)
  · rw [if_pos hs] at h
    cases h

theorem agentMove_cases {m : Move} (hm : m ≠ .reset) {s t : State} (h : agentMove m s = .next t) :
    CoreTrans s t ∨ OutsideTrans s t := by
  cases m with
  | core => exact .inl (coreMove_cases h)
  | command w => exact .inl (commandMove_cases h)
  | writeCfg c => exact .inr (writeCfg_cases h)
  | interrupt => cases h; exact .inr .interrupted
  | reset => exact absurd rfl hm
  | serialReturns len => exact .inl (serialMove_cases h)
  | dgramReturns => exact .inl (dgramMove_cases h)
  | sinkReturns => exact .inl (sinkMove_cases h)
  | serialDelivers bs =>
    cases h; exact .inr (.surroundings _ rfl rfl rfl rfl ⟨bs, rfl⟩ ⟨[], (List.append_nil _).symm⟩)
  | serialBuffers k =>
    cases h; exact .inr (.surroundings _ rfl rfl rfl rfl ⟨[], (List.append_nil _).symm⟩ ⟨[], (List.append_nil _).symm⟩)
  | dgramArrives d =>
    cases h; exact .inr (.surroundings _ rfl rfl rfl rfl ⟨[], (List.append_nil _).symm⟩ ⟨[d], rfl⟩)
  | portAvailable ok =>
    cases h; exact .inr (.surroundings _ rfl rfl rfl rfl ⟨[], (List.append_nil _).symm⟩ ⟨[], (List.append_nil _).symm⟩)

/-- A step is a reset, a cancellation that is due, or a transition of the core or of another agent. -/
theorem step_cases {s t : State} (h : step s = .next t) :
    (∃ rest, s.env.script = .reset :: rest ∧ t = s.popMove.resetCore) ∨
      (cancelDue s = true ∧ t = s.enterCancel) ∨
      (cancelDue s = false ∧ ∃ u, (u = s ∨ u = s.popMove) ∧ (CoreTrans u t ∨ OutsideTrans u t)) := by
  unfold step advance at h
  split at h
  · rename_i rest hr; cases h; exact .inl ⟨rest, hr, rfl⟩
  · rename_i hne
    split_ifs at h with hc
    · cases h; exact .inr (.inl ⟨hc, rfl⟩)
    · refine .inr (.inr ⟨by simpa using hc, ?_⟩)
      split at h
      · exact ⟨s, .inl rfl, .inl (coreMove_cases h)⟩
      · rename_i m rest hm
        exact ⟨s.popMove, .inr rfl, agentMove_cases (fun hr => hne rest (by rw [hm, hr])) h⟩

end Sys2Proof.Machine
end

