-- ==== Sys2Proof/Tests/Slice0.lean ====
section
/-! SUPPORT. The model's own tests. Every expected value is from spec/95_test_vectors.md (a vector's name stands
with it) or from the rule named; the last part shows, for each obligation with hypotheses, a state and operands
that meet them. -/

namespace Sys2Proof.Tests

open Sys2Proof Sys2Proof.Machine

/-! ### Small states -/

/-- The state a meaning or a step answers, if it answers one. -/
def after (r : Result) : Option State :=
  match r with
  | .next s => some s
  | .fault _ | .refused _ => none

/-- Parameters with `N = 2 * (h + 1)`. -/
def params (h : Nat) : Config.Params := { Config.reference with halfPred := h }

/-- The fields P1 to P4 of the vectors write: marker A5, 8 Hz, Hann, fraction "0.15", distance 1, and `C = 2`. -/
def cfg (v : BitVec 2) : Cfg :=
  { variant := some v, headerMarker := some 0xA5, count := some 2, sampleRate := some 8,
    minHeightFraction := some 0x3E19999A, minBinDistance := some 1, windowSel := some 0 }

/-- In `IDLE`, configured for variant `v`, the transport held. -/
def idle (h : Nat) (v : BitVec 2) : State :=
  { State.resetIn (params h) Env.empty with
    cfg := cfg v
    transportOpen := true }

/-- The operation of stage `st` about to run. -/
def inStage (st : Stage) (s : State) : State := { s with stage := st, examined := true }

/-- Blocked in a transport read. -/
def blocked (s : State) : State := { s with stage := .acquire, phase := .wait, examined := true }

/-- One step in which an agent makes move `m`. -/
def moved (m : Move) (s : State) : Option State := after (step (s.pushMove m))

/-- One step in which the pending `SerRead` returns all of `bs`. -/
def received (bs : List Byte) (s : State) : Option State :=
  moved (.serialReturns bs.length) (s.placeSerial bs)

/-- One step in which the pending `DgramRecv` returns `d`. -/
def receivedDgram (d : List Byte) (s : State) : Option State :=
  moved .dgramReturns { s with env := { s.env with dgramIn := [d], dgramPos := 0 } }

/-- Ended by a fault of code `c`, transport and loop released (R222). -/
def ended (c : FaultCode) (o : Option State) : Bool :=
  match o with
  | some t => t.stage = .faulted && t.fault = c && !t.transportOpen && !t.loop
  | none => false

/-- Integer samples. -/
def ints (l : List Int) : List Sample := l.map .i32

/-- A frame of integer samples about to be analyzed. -/
def framed (h : Nat) (l : List Int) : State :=
  { inStage .analyze (idle h 0) with
    samp := ints l
    sampLen := l.length
    sampValid := true }

/-- The exact magnitude `|r|`. -/
def mag (r : Rat) : Mag := .exact (.ofRat r)

/-- A spectrum of rational magnitudes. -/
def mags (l : List Rat) : List Mag := l.map mag

/-- Exact frequencies. -/
def hertz (l : List Rat) : List Freq := l.map .exact

/-- A held spectrum, `EXTRACT` about to run with fraction `f` and distance `d`. -/
def spectral (h : Nat) (l : List Rat) (f d : Word) : State :=
  { inStage .extract (idle h 1) with
    cfg := { cfg 1 with minHeightFraction := some f, minBinDistance := some d }
    mag := mags l
    bin := (List.range l.length).map (fun k : Nat => .exact k)
    specValid := true }

/-- The indices `EXTRACT` selects. -/
def selected (h : Nat) (l : List Rat) (f d : Word) : List Nat :=
  survivors (params h) f d.toNat (mags l)

/-- Whether a magnitude is exactly `sqrt (n / d)`. -/
def squareIs (m : Mag) (n d : Nat) : Bool :=
  match m with
  | .exact e => ExactMag.compareScaled d e n (.ofRat 1) = 0
  | .impl _ => false

/-! ### Parameters -/

/-- R8: the reference values. -/
theorem test_reference_parameters :
    Config.reference.N = 4096 ∧ Config.reference.frameBytes = 16384 ∧ Config.reference.baud = 115200 ∧
    Config.reference.udpRcvbuf = 65536 := by decide

/-! ### Well-formedness: an ill-formed term for each check (R97) -/

theorem test_wf_marker_is_the_marker : Instr.wellFormed (params 0) 0xA5 (.bMarker 0x17) = false := by decide
theorem test_wf_noise_is_not_the_marker : Instr.wellFormed (params 0) 0xA5 (.bNoise 0xA5) = false := by decide
theorem test_wf_payload_length :
    Instr.wellFormed (params 0) 0xA5 (.bPayload [1, 2, 3, 4, 5, 6, 7]) = false ∧
    Instr.wellFormed (params 0) 0xA5 (.bPayload [1, 2, 3, 4, 5, 6, 7, 8, 9]) = false := by decide
theorem test_wf_short_length : Instr.wellFormed (params 0) 0xA5 (.bShort [1, 2, 3, 4, 5, 6, 7, 8]) = false := by decide
theorem test_wf_dgram_length :
    Instr.wellFormed { params 0 with dgramMax := 2 } 0xA5 (.cDgram [1, 2, 3]) = false := by decide
theorem test_wf_short_element : Instr.wellFormed (params 0) 0xA5 (.aShort [1, 2, 3, 4]) = false := by decide

/-! ### Decoding, from words written out from R94, R97, R100, R102 -/

/-- R100: `cmd[3:0] = OP`, `cmd[7:4] = 0`; V-E10. -/
theorem test_decode_commands :
    decode (params 0) .command [0b00000000] = some .nop ∧ decode (params 0) .command [0b00000001] = some .openTransport ∧
    decode (params 0) .command [0b00000010] = some .closeTransport ∧ decode (params 0) .command [0b00000011] = some .acquireA ∧
    decode (params 0) .command [0b00000100] = some .nextframeB ∧ decode (params 0) .command [0b00000101] = some .nextframeC ∧
    decode (params 0) .command [0b00000110] = some .decodeF32 ∧ decode (params 0) .command [0b00000111] = some .analyze ∧
    decode (params 0) .command [0b00001000] = some .extract ∧ decode (params 0) .command [0b00001001] = some .handoff ∧
    decode (params 0) .command [0b00001010] = some .run := by decide

/-- R102: the reserved rows, and words with a high bit set, which no row describes. -/
theorem test_decode_reserved :
    decode (params 0) .command [0b00001011] = some .reservedB ∧ decode (params 0) .command [0b00001100] = some .reservedC ∧
    decode (params 0) .command [0b00001101] = some .reservedD ∧ decode (params 0) .command [0b00001110] = some .reservedE ∧
    decode (params 0) .command [0b00001111] = some .reservedF ∧ decode (params 0) .command [0b00010111] = none ∧
    decode (params 0) .command [0b10000000] = none ∧ decode (params 0) .command [] = none := by decide

/-- R97: the tokens of Variants B and C, `N = 2`, marker A5. -/
theorem test_decode_tokens :
    decode (params 0) (.searching 0b10100101) [0b10100101] = some (.bMarker 0xA5) ∧
    decode (params 0) (.searching 0b10100101) [0b00010011] = some (.bNoise 0x13) ∧
    decode (params 0) (.searching 0b10100101) [] = some .bEmpty ∧
    decode (params 0) .collecting [0xA5, 2, 3, 4, 5, 6, 7, 8] = some (.bPayload [0xA5, 2, 3, 4, 5, 6, 7, 8]) ∧
    decode (params 0) .collecting [1, 2, 3] = some (.bShort [1, 2, 3]) ∧
    decode (params 0) .collecting [] = some (.bShort []) ∧
    decode (params 0) .datagram [] = some (.cDgram []) ∧
    decode { params 0 with dgramMax := 1 } .datagram [1, 2] = none := by decide

/-- R94: element words, first byte least significant; V-E1, V-E2. -/
theorem test_decode_elements :
    decode (params 0) .response [0x78, 0x56, 0x34, 0x12] = some (.aElem 0x12345678) ∧
    decode (params 0) .response [0xFF, 0xFF] = some (.aShort [0xFF, 0xFF]) ∧
    decode (params 0) .response [] = some (.aShort []) ∧
    decode (params 0) .payloadElement [0b00000000, 0b00000000, 0b10000000, 0b00111111] = some (.elemF32 0x3F800000) ∧
    decode (params 0) .responseElement [0x10, 0x27, 0x00, 0x00] = some (.elemI32 10000) ∧
    decode (params 0) .micro [0xFF, 0xFF, 0xFF, 0x7F] = some (.decI32 0x7FFFFFFF) ∧
    decode (params 0) .micro [1, 2, 3] = none := by decide

/-- The table's numbering: an 8-bit row, a 32-bit row, and a row of no command. -/
theorem test_decode_table_words :
    decodeTableWord 8 0x0A = some .run ∧ decodeTableWord 32 0x12345678 = some (.aElem 0x12345678) ∧
    decodeTableWord 8 0x80 = none := by decide

/-- V-E3, V-D3, V-D10, V-D13, V-D14: `sext_32`, at both ends of its range. -/
theorem test_sext32 :
    sext32 (le32 0xFF 0xFF 0xFF 0xFF) = -1 ∧ sext32 (le32 0x00 0x00 0x00 0x80) = -2147483648 ∧
    sext32 (le32 0x00 0x00 0x80 0xFF) = -8388608 ∧ sext32 (le32 0xFF 0xFF 0xFF 0x7F) = 2147483647 ∧
    sext32 (le32 0x01 0x00 0x00 0x80) = -2147483647 := by decide

/-- V-E4 to V-E9. -/
theorem test_request :
    request 0 = [0x30] ∧ request 8 = [0x38] ∧ request 10 = [0x31, 0x30] ∧ request 4096 = [0x34, 0x30, 0x39, 0x36] ∧
    request 123 = [0x31, 0x32, 0x33] := by decide

/-- V-D2 to V-D14: values in units of `2^-149`, and the data that have none. -/
theorem test_f32_values :
    f32Units 0x00000000 = 0 ∧ f32Units 0x80000000 = 0 ∧ f32Units 0x3F800000 = 2 ^ 149 ∧
    f32Units 0xC0000000 = -2 ^ 150 ∧ f32Units 0x3E19999A = 5033165 * 2 ^ 124 ∧ f32Units 0x00000001 = 1 ∧
    f32Units 0x7F7FFFFF = (2 ^ 24 - 1) * 2 ^ 253 ∧ f32Units 0x80000001 = -1 ∧
    f32NonFinite 0x7F800000 = true ∧ f32NonFinite 0xFF800000 = true ∧ f32IsNaN 0x7F800000 = false ∧
    f32IsNaN 0x7FC00000 = true ∧ f32IsNaN 0xFFFFFFFF = true ∧ f32NonFinite 0x7F7FFFFF = false := by decide +kernel

/-! ### Single operations and the transport -/

/-- V-K5. -/
theorem test_nop : moved (.command 0x00) (idle 0 1) = some (idle 0 1) := by decide

/-- V-K1. -/
theorem test_open :
    moved (.command 0x01) { idle 0 1 with transportOpen := false } = some (idle 0 1) := by decide

/-- V-K2, V-K3, V-K9. -/
theorem test_open_faults :
    ended .transportUnavailable (moved (.command 0x01)
      { idle 0 1 with transportOpen := false, env := { Env.empty with canOpen := false } }) = true ∧
    ended .illegalCmd (moved (.command 0x01) (idle 0 1)) = true ∧
    ended .configRange (moved (.command 0x01) (idle 0 3)) = true := by decide

/-- V-K4. -/
theorem test_close :
    moved (.command 0x02) (idle 0 1) = some { idle 0 1 with transportOpen := false } ∧
    moved (.command 0x02) { idle 0 1 with transportOpen := false } = some { idle 0 1 with transportOpen := false } := by
  decide

/-- V-E11 and P5 (b). -/
theorem test_reserved_commands :
    ended .illegalCmd (moved (.command 0x0B) (idle 0 1)) = true ∧
    ended .illegalCmd (moved (.command 0x0C) { idle 0 1 with transportOpen := false }) = true ∧
    ended .illegalCmd (moved (.command 0x0D) (idle 0 1)) = true ∧
    ended .illegalCmd (moved (.command 0x0E) (idle 0 1)) = true ∧
    ended .illegalCmd (moved (.command 0x0F) (idle 0 1)) = true ∧
    ended .illegalCmd (moved (.command 0x17) (idle 0 1)) = true ∧
    ended .illegalCmd (moved (.command 0x80) (idle 0 1)) = true := by decide

/-- V-K8 and V-K15: outside `IDLE` a command has no effect. -/
theorem test_commands_outside_idle :
    moved (.command 0x0B) (inStage .analyze (idle 0 1)) = some (inStage .analyze (idle 0 1)) ∧
    moved (.command 0x01) (inStage .stopped (idle 0 1)) = some (inStage .stopped (idle 0 1)) := by decide

/-- The host writes `CFG` in `IDLE` (R21); V-K19: not `VARIANT` while the transport is held. -/
theorem test_cfg_writes :
    moved (.writeCfg (.count 7)) (idle 0 1) = some { idle 0 1 with cfg := { cfg 1 with count := some 7 } } ∧
    step ((idle 0 1).pushMove (.writeCfg (.variant 0))) = .refused .variantWriteWhileOpen ∧
    step ((inStage .analyze (idle 0 1)).pushMove (.writeCfg (.count 7))) = .refused .cfgWriteOutsideIdle :=
  ⟨by decide +kernel, rfl, rfl⟩

/-! ### Variant A -/

/-- V-A10, V-A11, and R253 for `COUNT`. -/
theorem test_acquireA_command :
    ended .transportClosed (moved (.command 0x03) { idle 0 0 with transportOpen := false }) = true ∧
    ended .illegalCmd (moved (.command 0x03) (idle 0 1)) = true ∧
    ended .configRange (after (step { inStage .acquire (idle 0 0) with cfg := { cfg 0 with count := none } })) = true := by
  decide

/-- V-A1: the request; V-A8: five stale bytes are discarded before it; V-A7: `C` above `SAMP_CAP`, before any transport access. -/
theorem test_acquireA_request :
    (after (step { inStage .acquire (idle 0 0) with phase := .write })).map (fun t => (t.env.serOut, t.phase))
      = some ([0x32], .wait) ∧
    (after (step { inStage .acquire (idle 0 0) with
        env := { Env.empty with serIn := [1, 2, 3, 4, 5, 6], serBuffered := 5 } })).map
      (fun t => (t.env.serPos, t.env.serOut, t.phase)) = some (5, [], .write) ∧
    (after (step { State.reset with stage := .acquire, examined := true, cfg := { cfg 0 with count := some 4097 } })).map
      (fun t => (t.fault, t.env)) = some (.configRange, Env.empty) := by decide

/-- V-A8: the stale byte shifts the elements; the second read is the trailing one, `C = 1`. -/
theorem test_aElem :
    (received [0xEE, 0x01, 0x00, 0x00] { blocked (idle 0 0) with cfg := { cfg 0 with count := some 1 } }).map
      (fun t => (t.samp, t.consumed, t.sampValid, t.env.serPos)) = some ([.i32 494], 4, false, 4) ∧
    (received [0x00, 0x02, 0x00, 0x00]
      { blocked (idle 0 0) with cfg := { cfg 0 with count := some 1 }, samp := [.i32 494], consumed := 4 }).map
      (fun t => (t.samp, t.sampLen, t.trailing, t.sampValid && t.trailingValid, t.consumed))
      = some ([.i32 494], 1, 512, true, 0) := by decide +kernel

/-- V-A2: with `C = 0` the only read is the trailing one. -/
theorem test_aElem_count_zero :
    (received [0x10, 0x27, 0x00, 0x00] { blocked (idle 0 0) with cfg := { cfg 0 with count := some 0 } }).map
      (fun t => (t.samp, t.sampLen, t.trailing, t.sampValid)) = some ([], 0, 10000, true) := by decide +kernel

/-- V-A4: the second read returns `FF FF`. -/
theorem test_aShort :
    (received [0xFF, 0xFF] { blocked (idle 0 0) with samp := [.i32 1], consumed := 4 }).map
      (fun t => (t.fault.code, t.stage, t.sampValid || t.trailingValid || t.transportOpen, t.consumed, t.env.serPos))
      = some (2, .faulted, false, 0, 2) := by decide

/-- V-D3, V-D13 as elements of Variant A, in order (V-A9). -/
theorem test_decI32_and_elemI32 :
    (after (exec (.decI32 0x80000000) (blocked (idle 0 0)))).map State.samp = some [.i32 (-2147483648)] ∧
    (after (exec (.decI32 0x7FFFFFFF) { blocked (idle 0 0) with samp := [.i32 (-2147483648)], consumed := 4 })).map State.samp
      = some [.i32 (-2147483648), .i32 2147483647] ∧
    (after (exec (.decI32 0) { blocked (idle 0 0) with samp := [.i32 3, .i32 4], consumed := 8, trailing := 9 })).map
      (fun t => (t.samp, t.trailing)) = some ([.i32 3, .i32 4], 0) ∧
    (after (exec (.elemI32 0xC0000000) (blocked (idle 0 0)))).map State.samp = some [.i32 (-1073741824)] := by
  decide +kernel

/-! ### Variant B, `N = 2`, marker A5 -/

/-- V-B12, and the first transition of the operation (R119). -/
theorem test_nextframeB :
    ended .transportClosed (moved (.command 0x04) { idle 0 1 with transportOpen := false }) = true ∧
    (after (step { inStage .acquire (idle 0 1) with sampValid := true, nonfinite := true })).map
      (fun t => (t.sampValid, t.nonfinite, t.phase, t.mode)) = some (false, false, .wait, .searchingHeader) := by decide

/-- V-B1, first token. -/
theorem test_bMarker :
    (received [0xA5] (blocked (idle 0 1))).map (fun t => (t.mode, t.raw, t.rawValid, t.env.serPos))
      = some (.collectingPayload, [], false, 1) := by decide

/-- V-B2, first token: a byte other than the marker is gone and counted nowhere. -/
theorem test_bNoise :
    (received [0x17] (blocked (idle 0 1))).map (fun t => (t.mode, t.consumed, t.env.serPos, t.status))
      = some (.searchingHeader, 0, 1, (blocked (idle 0 1)).status) := by decide

/-- V-B7, first token. -/
theorem test_bEmpty : received [] (blocked (idle 0 1)) = some (blocked (idle 0 1)) := by decide +kernel

/-- V-B3: the byte after the marker is payload byte 0, marker value or not. -/
theorem test_bPayload :
    (received [0xA5, 0x01, 0x02, 0x03, 0x04, 0x05, 0x06, 0x07] { blocked (idle 0 1) with mode := .collectingPayload }).map
      (fun t => (t.raw, t.rawValid, t.mode, t.consumed, t.stage))
      = some ([0xA5, 0x01, 0x02, 0x03, 0x04, 0x05, 0x06, 0x07], true, .searchingHeader, 0, .idle) := by decide

/-- V-B5 and V-B10: three bytes, and none. -/
theorem test_bShort :
    (received [0x01, 0x02, 0x03] { blocked (idle 0 1) with mode := .collectingPayload }).map
      (fun t => (t.raw, t.mode, t.env.serPos, t.status))
      = some ([], .searchingHeader, 3, (blocked (idle 0 1)).status) ∧
    received [] { blocked (idle 0 1) with mode := .collectingPayload } = some (blocked (idle 0 1)) := by decide +kernel

/-! ### Variant C, `N = 2` -/

/-- The accumulator is emptied whatever it held (R135). -/
theorem test_nextframeC :
    (after (step { inStage .acquire (idle 0 2) with acc := [1, 2] })).map (fun t => (t.acc, t.phase)) = some ([], .wait) ∧
    ended .illegalCmd (moved (.command 0x05) (idle 0 1)) = true := by decide

/-- V-C4: the first, the empty and the last datagram. -/
theorem test_cDgram :
    (receivedDgram [1, 2, 3] (blocked (idle 0 2))).map (fun t => (t.acc, t.consumed)) = some ([1, 2, 3], 3) ∧
    (receivedDgram [] { blocked (idle 0 2) with acc := [1, 2, 3], consumed := 3 }).map (fun t => (t.acc, t.consumed, t.phase))
      = some ([1, 2, 3], 3, .wait) ∧
    (receivedDgram [4, 5, 6, 7, 8, 9, 10] { blocked (idle 0 2) with acc := [1, 2, 3], consumed := 3 }).map
      (fun t => (t.raw, t.acc, t.consumed, t.rawValid)) = some ([1, 2, 3, 4, 5, 6, 7, 8], [], 0, true) := by decide

/-- V-C6 and a payload one byte short of the frame. -/
theorem test_cDgram_boundary :
    (receivedDgram [1, 2, 3, 4, 5, 6, 7] (blocked (idle 0 2))).map (fun t => (t.acc, t.rawValid))
      = some ([1, 2, 3, 4, 5, 6, 7], false) ∧
    (receivedDgram [1, 2, 3, 4, 5, 6, 7, 8] (blocked (idle 0 2))).map (fun t => (t.raw, t.acc))
      = some ([1, 2, 3, 4, 5, 6, 7, 8], []) := by decide

/-! ### The sample decoder -/

/-- V-D1, `N = 4`: `1.0, -2.0, 0.5, 0.0`. -/
theorem test_decodeF32 :
    (after (step { inStage .decode (idle 1 1) with
      rawValid := true
      raw := [0x00, 0x00, 0x80, 0x3F, 0x00, 0x00, 0x00, 0xC0, 0x00, 0x00, 0x00, 0x3F, 0x00, 0x00, 0x00, 0x00] })).map
      (fun t => (t.samp, t.sampLen, t.sampValid, t.rawValid, t.stage))
      = some ([.f32 0x3F800000, .f32 0xC0000000, .f32 0x3F000000, .f32 0], 4, true, false, .idle) := by decide

/-- V-D15. -/
theorem test_decodeF32_faults :
    ended .bufferNotValid (after (step (inStage .decode (idle 1 1)))) = true ∧
    ended .illegalCmd (moved (.command 0x06) (idle 1 0)) = true := by decide

/-- V-D11: a NaN's bits are kept. -/
theorem test_elemF32 :
    (after (exec (.elemF32 0x7FC00000) (idle 1 1))).map State.samp = some [.f32 0x7FC00000] := by decide

/-! ### The spectral analyzer -/

/-- V-S2, `N = 4`: `SPEC.MAG = [1.5, 0.75*sqrt(2), 0]`, `SPEC.BIN = [0, 1, 2]` at 4 Hz. -/
theorem test_analyze :
    (after (step { framed 1 [1, 1, 1, 1] with cfg := { cfg 0 with sampleRate := some 4 } })).map
      (fun t => (t.bin, t.specValid, t.nonfinite, squareIs (magAt t.mag 0) 9 4, squareIs (magAt t.mag 1) 9 8,
        squareIs (magAt t.mag 2) 0 1)) = some (hertz [0, 1, 2], true, false, true, true, true) := by decide +kernel

/-- V-S15 to V-S19. -/
theorem test_analyze_corners :
    ended .bufferNotValid (after (step { framed 3 [1, 1] with sampValid := false })) = true ∧
    ended .lengthMismatch (after (step (framed 3 [1, 1]))) = true ∧
    ended .configRange (after (step { framed 0 [1, 1] with cfg := { cfg 0 with sampleRate := some 0 } })) = true ∧
    (after (step { framed 1 [1, 1, 1, 1] with
        cfg := { cfg 1 with sampleRate := some 4 }
        samp := [.f32 0x7F800000, .f32 0, .f32 0, .f32 0] })).map
      (fun t => (t.nonfinite, t.mag.length, t.bin, t.specValid, t.fault)) = some (true, 3, hertz [0, 1, 2], true, .none) := by
  decide +kernel

/-- V-S1 and V-S13, `N = 8`: all zero; only the end samples are not. -/
theorem test_spectrum_zero :
    (Machine.spectrum (params 3) 0 (ints [0, 0, 0, 0, 0, 0, 0, 0])).map (squareIs · 0 1) = [true, true, true, true, true] ∧
    (Machine.spectrum (params 3) 0 (ints [7, 0, 0, 0, 0, 0, 0, 9])).map (squareIs · 0 1) = [true, true, true, true, true] := by
  decide +kernel

/-- V-S8, `N = 8`: bin 2 is 1.75 exactly and strictly above its neighbours, which are equal. -/
theorem test_spectrum_peak :
    let m := Machine.spectrum (params 3) 0 (ints [1, 0, -1, 0, 1, 0, -1, 0])
    squareIs (magAt m 2) 49 16 = true ∧ isCandidate m 2 = true ∧ (magAt m 1).lt (magAt m 3) = false ∧
      (magAt m 3).lt (magAt m 1) = false := by
  decide +kernel

/-- V-S2's frame under the Hamming page, by hand from R168: `WIN = [0.08, 0.77, 0.77, 0.08]`, so bin 0 is 1.7. -/
theorem test_spectrum_hamming :
    squareIs (magAt (Machine.spectrum (params 1) 1 (ints [1, 1, 1, 1])) 0) 289 100 = true := by decide +kernel

/-! ### The peak extractor -/

/-- V-P2. -/
theorem test_extract :
    (after (step (spectral 7 [0, 1, 0, 3, 0, 2, 0, 0, 0] 0x3E19999A 3))).map
      (fun t => (t.peaks, t.peakCount, t.peakValid, t.specValid, t.stage))
      = some ([⟨3, .exact 3, mag 3⟩], 1, true, true, .idle) := by decide +kernel

/-- V-P20 and V-P21. -/
theorem test_extract_faults :
    ended .bufferNotValid (after (step { spectral 1 [0, 1, 0] 0 1 with specValid := false })) = true ∧
    ended .configRange (after (step (spectral 1 [0, 1, 0] 0x7FC00000 1))) = true ∧
    ended .configRange (after (step (spectral 1 [0, 1, 0] 0x7F800000 1))) = true := by decide

/-- V-P1, V-P3, V-P4, V-P5, V-P18, V-P19: the distance rule. -/
theorem test_select_distance :
    selected 7 [0, 1, 0, 3, 0, 2, 0, 0, 0] 0x3E19999A 1 = [1, 3, 5] ∧
    selected 7 [0, 3, 0, 2, 0, 1, 0, 0, 0] 0x3E19999A 3 = [1, 5] ∧
    selected 7 [0, 3, 0, 2, 0, 1, 0, 0, 0] 0x3E19999A 4 = [1, 5] ∧
    selected 7 [0, 3, 0, 2, 0, 1, 0, 0, 0] 0x3E19999A 5 = [1] ∧
    selected 7 [0, 2, 0, 2, 0, 0, 0, 0, 0] 0x3E19999A 3 = [1] ∧
    selected 7 [0, 2, 0, 2, 0, 0, 0, 0, 0] 0x3E19999A 2 = [1, 3] ∧
    selected 7 [0, 1, 0, 3, 0, 2, 0, 0, 0] 0x3E19999A 0 = [1, 3, 5] ∧
    selected 7 [0, 1, 0, 3, 0, 2, 0, 0, 0] 0x3E19999A 0xFFFFFFFF = [3] := by decide +kernel

/-- V-P6, V-P8, V-P9 (0.1 as a binary32 datum is above 0.1), V-P13: the threshold. -/
theorem test_select_threshold :
    selected 3 [0, 1, 0, 2, 0] 0x3F000000 1 = [1, 3] ∧ selected 3 [0, 1, 0, 2, 0] 0x3F400000 1 = [3] ∧
    selected 3 [5, 1, 2, 1, 9] 0x3E000000 1 = [2] ∧
    selected 7 [0, 10, 0, 1, 0, 5, 0, 0, 0] 0x3D800000 1 = [1, 3, 5] ∧
    selected 7 [0, 10, 0, 1, 0, 5, 0, 0, 0] 0x3DCCCCCD 1 = [1, 5] ∧
    selected 7 [0, 10, 0, 1, 0, 5, 0, 0, 0] 0x3F400000 1 = [1] ∧
    selected 3 [0, 1, 0, 2, 0] 0xBF800000 1 = [1, 3] ∧ selected 3 [0, 1, 0, 2, 0] 0x00000000 1 = [1, 3] ∧
    selected 3 [0, 1, 0, 2, 0] 0x3F800000 1 = [3] ∧ selected 3 [0, 1, 0, 2, 0] 0x3FC00000 1 = [] := by decide +kernel

/-- V-P7, V-P14 to V-P17: no candidate. -/
theorem test_select_none :
    selected 3 [0, 1, 1, 0, 0] 0x3E000000 1 = [] ∧ selected 3 [5, 4, 3, 2, 1] 0x3E19999A 1 = [] ∧
    selected 3 [0, 0, 0, 0, 0] 0x3E19999A 1 = [] ∧ selected 3 [3, 3, 3, 3, 3] 0x3E19999A 1 = [] ∧
    selected 0 [0, 0] 0x3E19999A 1 = [] := by decide +kernel

/-- R186 and R187 (P3) under an implementation's `NUM`: candidates by the places of its `MagT`, and a threshold of zero
for an all-zero spectrum. -/
theorem test_implementation_order :
    candidates ([0, 1, 0, 2, 2, 0].map .impl) 5 = [1] ∧
    reachesThreshold 0x3F800000 (.impl 0) (.impl 0) = true := by decide +kernel

/-! ### The hand-off, RUN, the interrupt and reset -/

/-- A held zero frame of `N = 2` with its spectrum and its empty peak list. -/
def complete : State :=
  { inStage .handoff (idle 0 1) with
    samp := [.f32 0, .f32 0], sampLen := 2, sampValid := true, mag := mags [0, 0], bin := hertz [0, 4], specValid := true
    peakValid := true, trailingValid := true }

/-- V-K6 at `N = 2`; `TRAILING_VALID` outlives it (R29). -/
theorem test_handoff :
    (moved .sinkReturns { complete with phase := .wait }).map
      (fun t => (t.env.sink, t.sampValid || t.specValid || t.peakValid, t.trailingValid, t.stage))
      = some ([⟨[.f32 0, .f32 0], hertz [0, 4], mags [0, 0], []⟩], false, true, .idle) := by decide +kernel

/-- V-K7. -/
theorem test_handoff_fault :
    ended .bufferNotValid (after (step { complete with peakValid := false })) = true := by decide

/-- V-K9 to V-K12. -/
theorem test_run_checks :
    ended .configRange (moved (.command 0x0A) (idle 3 3)) = true ∧
    ended .lengthMismatch (moved (.command 0x0A) { idle 3 0 with cfg := { cfg 0 with count := some 4 } }) = true ∧
    ended .transportClosed (moved (.command 0x0A) { idle 3 1 with transportOpen := false }) = true ∧
    ended .configRange (moved (.command 0x0A) { idle 3 3 with transportOpen := false }) = true := by decide +kernel

/-- RUN accepted (R212); the loop goes from HANDOFF back to ACQUIRE. -/
theorem test_run :
    (moved (.command 0x0A) (idle 3 1)).map (fun t => (t.loop, t.stage, t.phase)) = some (true, .acquire, .start) ∧
    (moved .sinkReturns { complete with phase := .wait, loop := true }).map State.stage = some .acquire := by decide +kernel

/-- V-K14; V-C8 and V-K13: a blocked core may be cancelled; P4: at the stage boundary; R237 (3): not after a fault. -/
theorem test_interrupt :
    (after (step { idle 0 1 with cancelPending := true })).map (fun t => (t.stage, t.transportOpen, t.fault))
      = some (.stopped, false, .none) ∧
    (after (step { blocked (idle 0 2) with acc := [1, 2, 3], consumed := 3, cancelPending := true })).map
      (fun t => (t.stage, t.acc, t.consumed, t.transportOpen)) = some (.stopped, [], 0, false) ∧
    (after (step { complete with phase := .wait, cancelPending := true })).map
      (fun t => (t.stage, t.env.sink, t.sampValid, t.trailingValid)) = some (.stopped, [], false, true) ∧
    (after (step { inStage .extract (idle 0 1) with loop := true, cancelPending := true, examined := false })).map State.stage
      = some .stopped ∧
    moved .interrupt (inStage .faulted (idle 0 1)) = some { inStage .faulted (idle 0 1) with cancelPending := true } := by
  decide +kernel

/-- R233 (b): with the interrupt latched before the hand-off blocks, the sink may return, or cancellation is taken; the
same for the first read of NEXTFRAME_B. -/
theorem test_interrupt_at_first_block :
    (after (step { complete with cancelPending := true })).map
      (fun t => ((moved .sinkReturns t).map (fun u => u.env.sink.length), (after (step t)).map State.stage))
      = some (some 1, some .stopped) ∧
    (after (step { (inStage .acquire (idle 0 1)).placeSerial [0xA5] with cancelPending := true })).map
      (fun t => ((moved (.serialReturns 1) t).map State.mode, (after (step t)).map State.stage))
      = some (some .collectingPayload, some .stopped) := by decide +kernel

/-- R29, C9: `TRAILING` is readable in a RUN loop and in `STOPPED`, while its valid bit is 1; the other buffers are not. -/
theorem test_trailing_outside_idle :
    ({ complete with stage := .acquire, loop := true, trailing := 512 }).readTrailing = some 512 ∧
    ({ complete with stage := .stopped, trailing := 512 }).readTrailing = some 512 ∧
    ({ complete with trailingValid := false }).readTrailing = none ∧ complete.readSamp = none := by decide

/-- V-K16: the streams stay where they are (R251). -/
theorem test_reset :
    (moved .reset { inStage .faulted (idle 0 1) with
        fault := .insufficientData, cancelPending := true, sampValid := true
        env := { Env.empty with serIn := [1, 2], serPos := 1 } })
      = some { State.resetIn (params 0) Env.empty with env := { Env.empty with serIn := [1, 2], serPos := 1 } } := by
  decide

/-- The very next step runs a placed word (log entry 23). -/
theorem test_withFetchWord :
    (after (step (State.reset.withFetchWord 8 0x07))).map State.stage = some .analyze ∧
    (after (step (State.reset.withFetchWord 32 0xFFFFFFFF))).map State.samp = some [.i32 (-1)] := by decide +kernel

/-! ### Witnesses: for each obligation with hypotheses, states and operands that meet them, one for each clause -/

/-- The same machine with `ms` as the moves to come. -/
def scripted (ms : List Move) (s : State) : State := { s with env := { s.env with script := ms } }

theorem test_witness_DecodeOfEncodeIsIdentity :
    Instr.wellFormed (params 0) 0xA5 (.bPayload [1, 2, 3, 4, 5, 6, 7, 8]) = true ∧
    Instr.wellFormed (params 0) 0xA5 (.bShort [1, 2, 3, 4, 5, 6, 7]) = true ∧
    Instr.wellFormed (params 0) 0xA5 (.bShort []) = true ∧ Instr.wellFormed (params 0) 0xA5 (.bNoise 0xA4) = true ∧
    Instr.wellFormed { params 0 with dgramMax := 2 } 0xA5 (.cDgram [1, 2]) = true ∧
    Instr.wellFormed (params 0) 0xA5 (.aShort [1, 2, 3]) = true := by decide

theorem test_witness_TokenTableIsCompleteAndSound :
    decode (params 0) .collecting [1] = some (.bShort [1]) ∧
    serialRequest (blocked (idle 0 1)) = some (.searching 0xA5, 1) ∧
    (blocked (idle 0 1)).serMayReturn 1 0 = true ∧ ((blocked (idle 0 1)).placeSerial [7]).serMayReturn 1 1 = true := by
  decide

theorem test_witness_WrittenOutWordsDecode : 0x10 ≤ (0x10 : Byte).toNat ∧ 0x10 ≤ (0xFF : Byte).toNat ∧
    (params 0).N = 2 ∧ 2 ≤ { params 0 with dgramMax := 2 }.dgramMax := by decide

theorem test_witness_ElementsAreLittleEndian :
    (le32 0xFF 0xFF 0xFF 0x7F).toNat < 2 ^ 31 ∧ 2 ^ 31 ≤ (le32 0 0 0 0x80).toNat := by decide

theorem test_witness_RequestIsShortestDecimal : (1 : Nat) ≠ 0 ∧
    ∃ (s : State) (c : Word), s.stage = .acquire ∧ s.phase = .write ∧ s.cfg.count = some c :=
  ⟨by decide, { inStage .acquire (idle 0 0) with phase := .write }, 2, by decide⟩

theorem test_witness_NopAndCloseComplete : (idle 0 1).stage = .idle := by decide

theorem test_witness_OpenFollowsItsPseudocode :
    (idle 0 1).stage = .idle ∧ (idle 0 1).cfg.variant = some 1 ∧ (idle 0 3).cfg.variant = some 3 := by decide

theorem test_witness_AcceptedOperationsEnterTheirStage :
    (idle 0 0).stage = .idle ∧ (idle 0 0).cfg.variant = some 0 ∧ (idle 0 0).transportOpen = true ∧
    (idle 0 1).cfg.variant = some 1 ∧ (idle 0 1).transportOpen = true ∧
    (idle 0 2).cfg.variant = some 2 ∧ (idle 0 2).transportOpen = true := by decide

theorem test_witness_CommandDecodeChecksInOrder :
    State.reset.stage = .idle ∧ State.reset.cfg.variant = none ∧
    (idle 0 3).cfg.variant = some 3 ∧ (3 : BitVec 2) ≠ 2 ∧ (idle 0 0).cfg.variant = some 0 ∧
    { idle 0 2 with transportOpen := false }.cfg.variant = some 2 ∧
    { idle 0 2 with transportOpen := false }.transportOpen = false := by decide

theorem test_witness_ReservedCommandsFault :
    (idle 0 1).stage = .idle ∧ (idle 0 1).cancelPending = false ∧
    (scripted [.command 0x0B] (idle 0 1)).env.script = [.command 0x0B] ∧ 0x0B ≤ (0x0B : Byte).toNat ∧
    0x0B ≤ (0xFF : Byte).toNat := by decide

theorem test_witness_CommandsOutsideIdleHaveNoEffect : ∃ (s : State) (w : Byte) (rest : List Move),
    s.stage ≠ .idle ∧ cancelDue s = false ∧ s.env.script = .command w :: rest :=
  ⟨scripted [.command 1] (inStage .faulted (idle 0 1)), 1, [], by decide⟩

theorem test_witness_StepRunsTheCommand : ∃ (s : State) (w : Byte) (rest : List Move) (i : Instr),
    s.stage = .idle ∧ s.cancelPending = false ∧ s.env.script = .command w :: rest ∧
    decode s.par .command [w] = some i :=
  ⟨scripted [.command 7] (idle 0 1), 7, [], .analyze, by decide⟩

theorem test_witness_StepRunsTheToken_serial : ∃ (s : State) (c : Context) (n len : Nat) (rest : List Move) (i : Instr),
    cancelDue s = false ∧ s.env.script = .serialReturns len :: rest ∧ serialRequest s = some (c, n) ∧
    s.serMayReturn n len = true ∧ decode s.par c (s.serBytes len) = some i :=
  ⟨scripted [.serialReturns 1] ((blocked (idle 0 1)).placeSerial [0xA5]), .searching 0xA5, 1, 1, [], .bMarker 0xA5, by decide⟩

theorem test_witness_StepRunsTheToken_dgram : ∃ (s : State) (d : List Byte) (rest : List Move),
    cancelDue s = false ∧ s.env.script = .dgramReturns :: rest ∧ s.stage = .acquire ∧ s.phase = .wait ∧
    s.cfg.variant = some 2 ∧ s.env.dgramIn[s.env.dgramPos]? = some d ∧ d.length ≤ s.par.dgramMax :=
  ⟨{ blocked (idle 0 2) with env := { Env.empty with script := [.dgramReturns], dgramIn := [[1, 2]] } }, [1, 2], [],
    by decide⟩

theorem test_witness_StepRunsTheStage :
    (∀ st ∈ [Stage.idle, .acquire, .decode, .analyze, .extract, .handoff, .stopped, .faulted], ∀ v ∈ [0, 1, 2],
      (inStage st (idle 0 v)).env.script = [] ∧ cancelDue (inStage st (idle 0 v)) = false ∧
      (inStage st (idle 0 v)).stage = st ∧ (inStage st (idle 0 v)).phase ≠ .wait ∧
      (inStage st (idle 0 v)).cfg.variant = some v) ∧
    (blocked (idle 0 1)).env.script = [] ∧ cancelDue (blocked (idle 0 1)) = false ∧
    (blocked (idle 0 1)).phase = .wait ∧ (blocked (idle 0 1)).cancelPending = false ∧
    cancelDue { blocked (idle 0 1) with cancelPending := true } = false ∧
    { complete with phase := .wait }.env.script = [] ∧ cancelDue { complete with phase := .wait } = false ∧
    cancelDue { complete with phase := .wait, cancelPending := true } = false := by decide

theorem test_witness_RunChecksThenStartsTheLoop : ∀ v ∈ [(0 : BitVec 2), 1, 2, 3],
    (idle 0 v).stage = .idle ∧ (idle 0 v).cfg.variant = some v ∧ (idle 0 v).cfg.windowSel = some 0 ∧
    (idle 0 v).cfg.sampleRate = some 8 ∧ (idle 0 v).cfg.minHeightFraction = some 0x3E19999A ∧
    (idle 0 v).cfg.minBinDistance = some 1 ∧ (idle 0 v).cfg.count = some 2 ∧ (idle 0 v).cfg.headerMarker ≠ none := by
  decide +kernel

theorem test_witness_NeverWrittenFieldsFault :
    State.reset.stage = .idle ∧ State.reset.cfg.variant = none ∧
    (inStage .acquire State.reset).phase = .start ∧ (inStage .acquire State.reset).cfg.count = none ∧
    (inStage .acquire State.reset).cfg.headerMarker = none ∧
    (framed 0 [1, 1]).sampValid = true ∧ (framed 0 [1, 1]).sampLen = (framed 0 [1, 1]).par.N ∧
    { framed 0 [1, 1] with cfg := .unwritten }.cfg.windowSel = none ∧
    { spectral 0 [0, 0] 0 1 with cfg := .unwritten }.specValid = true ∧
    { spectral 0 [0, 0] 0 1 with cfg := .unwritten }.cfg.minBinDistance = none := by decide

/-- A looping Variant A acquisition, `N = C = 2`, whose first element read is about to return two bytes. -/
def shortA : State :=
  scripted [.serialReturns 2] { (blocked (idle 0 0)).placeSerial [1, 2] with loop := true }

/-- A Variant B acquisition, `N = 2`, about to read the marker. -/
def markerB : State :=
  scripted [.serialReturns 1] { (blocked (idle 0 1)).placeSerial [0xA5, 1, 2, 3, 4, 5, 6, 7, 8] with loop := true }

/-- The same one byte later, about to read the payload. -/
def payloadB : State :=
  scripted [.serialReturns 8]
    { (blocked (idle 0 1)) with
      mode := .collectingPayload, loop := true, env := { markerB.env with serPos := 1 } }

theorem test_shortA_inv : Inv shortA := by
  have h : runCheck shortA = none := by decide +kernel
  refine ⟨⟨?_, ?_, ?_, ?_, ?_, ?_, ?_, ?_, ?_⟩, ⟨?_, ?_, ?_, ?_, ?_⟩, ?_, ⟨?_, ?_, ?_, ?_, ?_, ?_, ?_⟩, ⟨fun _ => h, ?_, ?_, ?_, ?_⟩⟩ <;>
    simp [shortA, scripted, blocked, idle, cfg, State.resetIn, State.placeSerial, CursorAtRest, MarkerInv, VariantLegal,
      params, Config.Params.sampCap, Config.Params.N, Config.Params.K]

theorem test_markerB_inv : Inv markerB := by
  have h : runCheck markerB = none := by decide +kernel
  refine ⟨⟨?_, ?_, ?_, ?_, ?_, ?_, ?_, ?_, ?_⟩, ⟨?_, ?_, ?_, ?_, ?_⟩, ?_, ⟨?_, ?_, ?_, ?_, ?_, ?_, ?_⟩, ⟨fun _ => h, ?_, ?_, ?_, ?_⟩⟩ <;>
    simp [markerB, scripted, blocked, idle, cfg, State.resetIn, State.placeSerial, CursorAtRest, MarkerInv, VariantLegal]

theorem test_payloadB_inv : Inv payloadB := by
  have h : runCheck payloadB = none := by decide +kernel
  refine ⟨⟨?_, ?_, ?_, ?_, ?_, ?_, ?_, ?_, ?_⟩, ⟨?_, ?_, ?_, ?_, ?_⟩, ?_, ⟨?_, ?_, ?_, ?_, ?_, ?_, ?_⟩, ⟨fun _ => h, ?_, ?_, ?_, ?_⟩⟩ <;>
    simp [payloadB, markerB, scripted, blocked, idle, cfg, State.resetIn, State.placeSerial, Env.empty, CursorAtRest, MarkerInv,
      VariantLegal]

theorem test_witness_LoopRaisesOnlyInsufficientData : ∃ s t : State,
    Inv s ∧ s.loop = true ∧ step s = .next t ∧ t.stage = .faulted :=
  ⟨shortA, _, test_shortA_inv, rfl, rfl, rfl⟩

theorem test_witness_StageTransitionsAreTheTable : ∃ s t : State, Inv s ∧ step s = .next t ∧ t.stage ≠ s.stage :=
  ⟨payloadB, _, test_payloadB_inv, rfl, by decide⟩

theorem test_witness_AcquisitionsBeginByClearing :
    (inStage .acquire (idle 0 0)).stage = .acquire ∧ (inStage .acquire (idle 0 0)).phase = .start ∧
    (inStage .acquire (idle 0 0)).cfg.count = some 2 ∧ (inStage .acquire (idle 0 1)).cfg.headerMarker = some 0xA5 := by
  decide

theorem test_witness_AcquireAFlushesThenWrites : ∃ (s : State) (c : Word) (bs : List Byte),
    s.stage = .acquire ∧ s.phase = .start ∧ s.cfg.variant = some 0 ∧ s.cfg.count = some c ∧ c.toNat ≤ s.par.sampCap ∧
    s.env.script = [.core, .serialDelivers bs, .core] ∧ s.examined = true ∧ s.cancelPending = false ∧ s.env.serPos + s.env.serBuffered ≤ s.env.serIn.length :=
  ⟨{ inStage .acquire (idle 0 0) with
      env := { Env.empty with serIn := [1, 2, 3], serBuffered := 3, script := [.core, .serialDelivers [0xEE], .core] } },
    2, [0xEE], by decide⟩

theorem test_witness_AElemStoresSampleOrTrailing :
    (idle 0 0).cfg.count = some 2 ∧ 4 / 4 < (2 : Word).toNat ∧ (2 : Word).toNat ≤ 8 / 4 ∧ (0 : Word).toNat ≤ 0 / 4 := by
  decide

theorem test_witness_AcquireAReadsWholeResponse :
    ∃ (s : State) (c : Word) (words : List Word) (last : Word) (before after : List Byte),
    s.stage = .acquire ∧ s.phase = .wait ∧ s.cfg.variant = some 0 ∧ s.cfg.count = some c ∧ s.consumed = 0 ∧ s.samp = [] ∧
    s.cancelPending = false ∧ s.examined = true ∧ s.env.serBuffered = 0 ∧ words.length = c.toNat ∧
    s.env.serIn = before ++ (words ++ [last]).flatMap wordBytes ++ after ∧ s.env.serPos = before.length ∧
    s.env.script = List.replicate (c.toNat + 1) (.serialReturns 4) :=
  ⟨scripted (List.replicate 3 (.serialReturns 4))
      ((blocked (idle 0 0)).placeSerial [1, 0, 0, 0, 0xFF, 0xFF, 0xFF, 0xFF, 0x10, 0x27, 0, 0]),
    2, [1, 0xFFFFFFFF], 10000, [], [], by decide⟩

theorem test_witness_HeaderSearchTokens : ∃ (s : State) (m : Byte) (rest : List Move),
    s.stage = .acquire ∧ s.phase = .wait ∧ s.cfg.variant = some 1 ∧ s.cfg.headerMarker = some m ∧
    s.mode = .searchingHeader ∧ s.cancelPending = false ∧ s.env.script = .serialReturns 1 :: rest ∧
    s.env.serIn[s.env.serPos]? = some m :=
  ⟨markerB, 0xA5, [], by decide⟩

theorem test_witness_BShortDropsSilently : ∃ (s : State) (m : Byte) (len : Nat) (rest : List Move),
    s.stage = .acquire ∧ s.phase = .wait ∧ s.cfg.variant = some 1 ∧ s.cfg.headerMarker = some m ∧
    s.mode = .collectingPayload ∧ s.cancelPending = false ∧ s.env.script = .serialReturns len :: rest ∧
    len < s.par.frameBytes ∧ s.env.serPos + len ≤ s.env.serIn.length :=
  ⟨scripted [.serialReturns 7] payloadB, 0xA5, 7, [], by decide⟩

theorem test_witness_CursorModeTransitions :
    (∃ s t : State, Inv s ∧ step s = .next t ∧ s.mode = .searchingHeader ∧ t.mode ≠ s.mode) ∧
    ∃ s t : State, Inv s ∧ step s = .next t ∧ s.mode = .collectingPayload ∧ t.mode ≠ s.mode :=
  ⟨⟨markerB, _, test_markerB_inv, rfl, rfl, by decide⟩, ⟨payloadB, _, test_payloadB_inv, rfl, rfl, by decide⟩⟩

theorem test_witness_FramesFollowAMarker : ∃ s t : State,
    Inv s ∧ step s = .next t ∧ s.cfg.variant = some 1 ∧ s.rawValid = false ∧ t.rawValid = true :=
  ⟨payloadB, _, test_payloadB_inv, rfl, rfl, rfl, rfl⟩

theorem test_witness_FirstMarkerStartsTheFrame :
    ∃ (s : State) (m : Byte) (before noise payload after : List Byte),
    s.stage = .acquire ∧ s.phase = .wait ∧ s.cfg.variant = some 1 ∧ s.cfg.headerMarker = some m ∧
    s.mode = .searchingHeader ∧ s.consumed = 0 ∧ s.cancelPending = false ∧ s.examined = true ∧ s.env.serBuffered = 0 ∧
    m ∉ noise ∧ payload.length = s.par.frameBytes ∧ s.env.serIn = before ++ noise ++ m :: payload ++ after ∧
    s.env.serPos = before.length ∧
    s.env.script = List.replicate (noise.length + 1) (.serialReturns 1) ++ [.serialReturns s.par.frameBytes] :=
  ⟨scripted [.serialReturns 1, .serialReturns 1, .serialReturns 8]
      ((blocked (idle 0 1)).placeSerial [0x17, 0xA5, 1, 2, 3, 4, 5, 6, 7, 8]),
    0xA5, [], [0x17], [1, 2, 3, 4, 5, 6, 7, 8], [], by decide⟩

theorem test_witness_CDgramAppendsOrEmits :
    ((idle 0 2).acc ++ [1, 2, 3, 4, 5, 6, 7]).length < (idle 0 2).par.frameBytes ∧
    (idle 0 2).par.frameBytes ≤ ((idle 0 2).acc ++ [1, 2, 3, 4, 5, 6, 7, 8]).length := by decide

theorem test_witness_FrameIsPrefixOfDatagrams :
    ∃ (s : State) (ds : List (List Byte)) (last : List Byte) (before after : List (List Byte)),
    s.stage = .acquire ∧ s.phase = .wait ∧ s.cfg.variant = some 2 ∧ s.mode = .searchingHeader ∧ s.acc = [] ∧
    s.consumed = 0 ∧ s.cancelPending = false ∧ s.examined = true ∧ ds.flatten.length < s.par.frameBytes ∧
    s.par.frameBytes ≤ ds.flatten.length + last.length ∧ (∀ d ∈ last :: ds, d.length ≤ s.par.dgramMax) ∧
    s.env.dgramIn = before ++ ds ++ last :: after ∧ s.env.dgramPos = before.length ∧
    s.env.script = List.replicate (ds.length + 1) .dgramReturns :=
  ⟨{ blocked (idle 0 2) with
      env := { Env.empty with
        dgramIn := [[1, 2, 3], [], [4, 5, 6, 7, 8, 9, 10]]
        script := [.dgramReturns, .dgramReturns, .dgramReturns] } },
    [[1, 2, 3], []], [4, 5, 6, 7, 8, 9, 10], [], [], by decide⟩

theorem test_witness_DecodeRoundTrip : ∃ (s : State) (us : List Word),
    s.stage = .decode ∧ s.rawValid = true ∧ us.length = s.par.N ∧ s.raw = us.flatMap wordBytes :=
  ⟨{ inStage .decode (idle 0 1) with rawValid := true, raw := [0, 0, 0x80, 0x3F, 0, 0, 0xC0, 0x7F] },
    [0x3F800000, 0x7FC00000], by decide⟩

theorem test_witness_ElementStepsStoreOneSample :
    (idle 0 0).cfg.count = some 2 ∧ 7 / 4 < (2 : Word).toNat ∧ (2 : Word).toNat ≤ 8 / 4 := by decide

theorem test_witness_InvalidBuffersFault :
    (∀ st ∈ [Stage.decode, .analyze, .extract, .handoff], (inStage st (idle 0 1)).stage = st) ∧
    (inStage .decode (idle 0 1)).rawValid = false ∧ (inStage .analyze (idle 0 1)).sampValid = false ∧
    (inStage .extract (idle 0 1)).specValid = false ∧ (inStage .handoff (idle 0 1)).phase = .start ∧
    (inStage .handoff (idle 0 1)).peakValid = false := by decide

theorem test_witness_AnalyzePreconditionsInOrder :
    (framed 3 [1]).stage = .analyze ∧ (framed 3 [1]).sampValid = true ∧ (framed 3 [1]).cfg.sampleRate = some 8 ∧
    (framed 3 [1]).cfg.windowSel = some 0 ∧ (framed 3 [1]).sampLen ≠ (framed 3 [1]).par.N ∧
    (framed 0 [1, 1]).sampLen = (framed 0 [1, 1]).par.N ∧ (0 : Rat) ≤ 0 ∧ (0 : Rat) < 8 ∧
    { params 0 with hammingPresent := false }.hammingPresent = false := by decide +kernel

theorem test_witness_AnalyzeIsTheReferenceSpectrum : ∃ (s : State) (fs : Rat) (w : BitVec 1),
    s.stage = .analyze ∧ s.sampValid = true ∧ s.sampLen = s.par.N ∧ s.samp.length = s.par.N ∧
    s.cfg.sampleRate = some fs ∧ 0 < fs ∧ s.cfg.windowSel = some w ∧ (w = 1 → s.par.hammingPresent = true) ∧
    s.par.num = .exact ∧ ∀ x ∈ s.samp, sampleNonFinite x = false :=
  ⟨framed 1 [1, 1, 1, 1], 8, 0, by decide +kernel⟩

theorem test_witness_AnalyzeIsTheReferenceSpectrum_implementation : ∃ (s : State) (fs : Rat) (w : BitVec 1),
    s.stage = .analyze ∧ s.sampValid = true ∧ s.sampLen = s.par.N ∧ s.samp.length = s.par.N ∧
    s.cfg.sampleRate = some fs ∧ 0 < fs ∧ s.cfg.windowSel = some w ∧ (w = 1 → s.par.hammingPresent = true) ∧
    s.par.num = .implementation ∧ ∀ x ∈ s.samp, sampleNonFinite x = false :=
  ⟨{ framed 1 [1, 1, 1, 1] with par := { params 1 with num := .implementation } }, 8, 0, by decide +kernel⟩

theorem test_witness_NonFiniteFramesGoOn : ∃ (s : State) (fs : Rat) (w : BitVec 1),
    s.stage = .analyze ∧ s.sampValid = true ∧ s.sampLen = s.par.N ∧ s.samp.length = s.par.N ∧
    s.cfg.sampleRate = some fs ∧ 0 < fs ∧ s.cfg.windowSel = some w ∧ (w = 1 → s.par.hammingPresent = true) ∧
    ∃ x ∈ s.samp, sampleNonFinite x = true :=
  ⟨{ framed 0 [0, 0] with samp := [.f32 0x7F800000, .f32 0] }, 8, 0, by decide +kernel⟩

theorem test_witness_ZeroFrameGivesZeroSpectrum : ∃ (s : State) (fs : Rat) (w : BitVec 1),
    s.stage = .analyze ∧ s.sampValid = true ∧ s.sampLen = s.par.N ∧ s.samp.length = s.par.N ∧
    s.cfg.sampleRate = some fs ∧ 0 < fs ∧ s.cfg.windowSel = some w ∧ (w = 1 → s.par.hammingPresent = true) ∧
    ∀ x ∈ s.samp, sampleNonFinite x = false ∧ Reference.sampleValue x = 0 :=
  ⟨framed 0 [0, 0], 8, 0, rfl, rfl, by decide, by decide, rfl, by decide +kernel, rfl, by decide, by
    simp [framed, ints, sampleNonFinite, Reference.sampleValue]⟩

theorem test_witness_HannIgnoresEndSamples : ∃ (s : State) (y : List Sample) (fs : Rat),
    s.stage = .analyze ∧ s.sampValid = true ∧ s.sampLen = s.par.N ∧ s.samp.length = s.par.N ∧ y.length = s.par.N ∧
    s.cfg.sampleRate = some fs ∧ 0 < fs ∧ s.cfg.windowSel = some 0 ∧ s.par.num = .exact ∧
    (∀ x ∈ s.samp, sampleNonFinite x = false) ∧ (∀ x ∈ y, sampleNonFinite x = false) ∧
    (∀ n, 1 ≤ n → n + 1 < s.par.N → s.samp[n]? = y[n]?) ∧ s.samp ≠ y :=
  ⟨framed 1 [1, 2, 3, 4], ints [9, 2, 3, 8], 8, rfl, rfl, by decide, by decide, by decide, rfl, by decide +kernel, rfl,
    rfl, by decide, by decide, fun n h1 h2 => by
      have hN : (framed 1 [1, 2, 3, 4]).par.N = 4 := rfl
      have : n = 1 ∨ n = 2 := by omega
      rcases this with rfl | rfl <;> rfl, by decide⟩

theorem test_witness_HannIgnoresEndSamples_two :
    (framed 0 [5, 7]).stage = .analyze ∧ (framed 0 [5, 7]).par.N = 2 ∧ (framed 0 [5, 7]).sampLen = 2 ∧
    (framed 0 [5, 7]).par.num = .exact ∧ (ints [1, 1]).length = 2 := by decide

theorem test_spectral_held (h : Nat) (l : List Rat) (f d : Word) (hl : l.length = (params h).K + 1) :
    SpectrumHeld (spectral h l f d) :=
  ⟨rfl, by simpa [spectral, mags, idle, inStage, State.resetIn] using hl,
    by simpa [spectral, idle, inStage, State.resetIn] using hl, fun m hm => by
      obtain ⟨r, -, rfl⟩ := List.mem_map.1 (show m ∈ l.map mag from hm)
      exact ExactMag.ofRat_legal r⟩

theorem test_witness_ExactThresholdIsTheRealOne : ∃ (s : State) (frac : Word) (mx : ℝ),
    SpectrumHeld s ∧ s.par.num = .exact ∧ f32NonFinite frac = false ∧ IsSpectrumMax s mx :=
  ⟨spectral 1 [0, 0, 0] 0x3F000000 1, 0x3F000000, magReal (spectral 1 [0, 0, 0] 0x3F000000 1) 0,
    test_spectral_held 1 _ _ _ rfl, rfl, rfl, ⟨0, by decide, rfl⟩, fun j hj => by
      have : j = 0 ∨ j = 1 ∨ j = 2 := by
        have : (spectral 1 [0, 0, 0] 0x3F000000 1).par.K = 2 := rfl
        omega
      rcases this with rfl | rfl | rfl <;> exact le_refl _⟩

theorem test_witness_ExtractReportsQualifyingBinsAscending : ∃ (s : State) (frac d : Word),
    s.stage = .extract ∧ SpectrumHeld s ∧ s.cfg.minHeightFraction = some frac ∧ f32NonFinite frac = false ∧
    s.cfg.minBinDistance = some d :=
  ⟨spectral 1 [0, 1, 0] 0 1, 0, 1, rfl, test_spectral_held 1 _ _ _ rfl, rfl, rfl, rfl⟩

theorem test_witness_ExtractResolvesDistanceByRank : ∃ (s t : State) (frac d : Word),
    s.stage = .extract ∧ SpectrumHeld s ∧ s.cfg.minHeightFraction = some frac ∧ f32NonFinite frac = false ∧
    s.cfg.minBinDistance = some d ∧ exec .extract s = .next t :=
  ⟨spectral 7 [0, 1, 0, 3, 0, 2, 0, 0, 0] 0 3, _, 0, 3, rfl, test_spectral_held 7 _ _ _ rfl, rfl, rfl, rfl, rfl⟩

theorem test_witness_RaisingTheFractionOnlyRemovesPeaks : ∃ (s : State) (f g d : Word) (i : Nat),
    SpectrumHeld s ∧ s.par.num = .exact ∧ f32NonFinite f = false ∧ f32NonFinite g = false ∧
    Reference.f32Value f ≤ Reference.f32Value g ∧ i ∈ survivors s.par g d.toNat s.mag :=
  ⟨spectral 3 [0, 1, 0, 2, 0] 0 1, 0, 0x3F800000, 1, 3, test_spectral_held 3 _ _ _ rfl, rfl, rfl, rfl, by
    simp [Reference.f32Value, f32Exponent, f32Fraction, f32Sign], by decide +kernel⟩

theorem test_witness_PeakCapacityIsNeverExceeded : ∃ s : State, SpectrumHeld s ∧
    ∀ i j, i ≤ s.par.K → j ≤ s.par.K → magPlace s i = magPlace s j :=
  ⟨spectral 0 [0, 0] 0 1, test_spectral_held 0 _ _ _ rfl, fun i j hi hj => by
    have hk : (spectral 0 [0, 0] 0 1).par.K = 1 := rfl
    have h1 : i = 0 ∨ i = 1 := by omega
    have h2 : j = 0 ∨ j = 1 := by omega
    rcases h1 with rfl | rfl <;> rcases h2 with rfl | rfl <;> rfl⟩

theorem test_witness_HandoffDeliversTheBundle :
    complete.stage = .handoff ∧ complete.phase = .start ∧ complete.sampValid = true ∧ complete.specValid = true ∧
    complete.peakValid = true ∧ { complete with peakValid := false }.peakValid = false ∧
    { complete with phase := .wait }.phase = .wait := by decide

theorem test_witness_TransportsAreReadOnlyInAcquire : ∃ s t : State, step s = .next t ∧ s.stage ≠ .acquire :=
  ⟨complete, _, rfl, by decide⟩

theorem test_witness_FaultEntryReleasesAndStops : ∃ s t : State,
    s.stage = .faulted ∧ step s = .next t ∧ ∀ rest, s.env.script ≠ .reset :: rest :=
  ⟨scripted [.command 1] (inStage .faulted (idle 0 1)), _, rfl, rfl, nofun⟩

theorem test_witness_FirstFaultIsKept : ∃ s t : State, step s = .next t ∧ s.fault ≠ .none ∧ t.fault ≠ s.fault :=
  ⟨scripted [.reset] { inStage .faulted (idle 0 1) with fault := .illegalCmd }, _, rfl, by decide, by decide⟩

theorem test_witness_CancellationReleasesAndStops : ∃ s : State,
    s.stage = .idle ∧ s.cancelPending = true ∧ cancelDue s = true ∧ ∀ rest, s.env.script ≠ .reset :: rest :=
  ⟨{ idle 0 1 with cancelPending := true }, rfl, rfl, rfl, nofun⟩

theorem test_witness_InterruptIsTakenWithinTwoSteps : ∃ s : State,
    Inv s ∧ s.cancelPending = true ∧ s.stage ≠ .stopped ∧ s.stage ≠ .faulted ∧ s.env.script = [] :=
  ⟨scripted [] { markerB with cancelPending := true },
    ⟨⟨test_markerB_inv.control.1, test_markerB_inv.control.2, test_markerB_inv.control.3, test_markerB_inv.control.4,
      test_markerB_inv.control.5, test_markerB_inv.control.6, test_markerB_inv.control.7, test_markerB_inv.control.8,
      test_markerB_inv.control.9⟩,
     ⟨test_markerB_inv.cursor.1, test_markerB_inv.cursor.2, test_markerB_inv.cursor.3, test_markerB_inv.cursor.4,
      test_markerB_inv.cursor.5⟩, test_markerB_inv.marker,
     ⟨test_markerB_inv.buffer.1, test_markerB_inv.buffer.2, test_markerB_inv.buffer.3, test_markerB_inv.buffer.4,
      test_markerB_inv.buffer.5, test_markerB_inv.buffer.6, test_markerB_inv.buffer.7⟩,
     ⟨test_markerB_inv.loop.1, test_markerB_inv.loop.2, test_markerB_inv.loop.3, test_markerB_inv.loop.4,
      test_markerB_inv.loop.5⟩⟩, rfl, by decide, by decide, rfl⟩

theorem test_witness_InterruptStaysLatched :
    (∃ (s : State) (rest : List Move), cancelDue s = false ∧ s.env.script = .interrupt :: rest) ∧
    ∃ s t : State, step s = .next t ∧ s.cancelPending = true ∧ t.cancelPending = false :=
  ⟨⟨scripted [.interrupt] (idle 0 1), [], rfl, rfl⟩,
    ⟨scripted [.reset] { inStage .stopped (idle 0 1) with cancelPending := true }, _, rfl, rfl, rfl⟩⟩

theorem test_witness_TerminalStagesAreLeftOnlyByReset :
    (∃ s t : State, s.stage = .stopped ∧ step s = .next t) ∧ ∃ s t : State, s.stage = .faulted ∧ step s = .next t :=
  ⟨⟨inStage .stopped (idle 0 1), _, rfl, rfl⟩, ⟨inStage .faulted (idle 0 1), _, rfl, rfl⟩⟩

theorem test_witness_ResetRestoresEveryField : ∃ (s : State) (rest : List Move), s.env.script = .reset :: rest :=
  ⟨scripted [.reset, .core] (inStage .faulted (idle 0 1)), [.core], rfl⟩

theorem test_witness_CfgIsConstantOutsideIdle : ∃ s t : State, step s = .next t ∧ t.cfg ≠ s.cfg :=
  ⟨scripted [.writeCfg (.count 7)] (idle 0 1), _, rfl, by decide +kernel⟩

theorem test_witness_CfgIsConstantOutsideIdle_writes :
    (scripted [.writeCfg (.count 7)] (idle 0 1)).env.script = [.writeCfg (.count 7)] ∧
    (scripted [.writeCfg (.count 7)] (idle 0 1)).stage = .idle ∧
    cancelDue (scripted [.writeCfg (.count 7)] (idle 0 1)) = false ∧ State.reset.stage = .idle ∧
    State.reset.transportOpen = false ∧ cancelDue State.reset = false ∧ (idle 0 1).transportOpen = true ∧
    (inStage .analyze (idle 0 1)).stage ≠ .idle ∧ cancelDue (inStage .analyze (idle 0 1)) = false := by decide +kernel

theorem test_witness_StatusMirrorsTheState :
    (idle 0 1).stage = .idle ∧ { complete with stage := .idle }.sampValid = true ∧
    complete.trailingValid = true ∧ (idle 0 1).trailingValid = false ∧ { complete with stage := .idle }.specValid = true ∧
    { complete with stage := .idle }.peakValid = true ∧ (idle 0 1).sampValid = false ∧ (idle 0 1).specValid = false ∧
    (idle 0 1).peakValid = false ∧ complete.stage ≠ .idle := by decide

theorem test_witness_invariants : ∃ s t : State,
    Inv s ∧ ControlInv s ∧ CursorInv s ∧ BufferInv s ∧ step s = .next t :=
  ⟨payloadB, _, test_payloadB_inv, test_payloadB_inv.control, test_payloadB_inv.cursor, test_payloadB_inv.buffer, rfl⟩

end Sys2Proof.Tests
end

section
/-! PROOFS. The family 30_encoding.md: a command outside `IDLE` (R101) and the whole response of ACQUIRE_A (R91).
The general facts come first: the step that makes the host's or the oracle's next move, and a run step by step. -/

namespace Sys2Proof.Machine

/-! ### The next move -/

/-- With no cancellation due, a step makes the move named first in the script, reset apart (R200). -/
theorem step_eq_agentMove {s : State} {m : Move} {rest : List Move} (hscript : s.env.script = m :: rest)
    (hm : m ≠ .reset) (hdue : cancelDue s = false) : step s = agentMove m s.popMove := by
  unfold step advance
  split
  · rename_i hreset
    exact absurd (List.cons.inj (hscript.symm.trans hreset)).1 hm
  · simp [hscript, hdue]

theorem popMove_eq {s : State} {m : Move} {rest : List Move} (hscript : s.env.script = m :: rest) :
    s.popMove = { s with env := { s.env with script := rest } } := by
  simp [State.popMove, hscript]

theorem cancelDue_of_not_pending {s : State} (h : s.cancelPending = false) : cancelDue s = false := by
  simp [cancelDue, h]

theorem run_succ_of_step {s t : State} (h : step s = .next t) (k : Nat) :
    Host.Core.run core (k + 1) s = Host.Core.run core k t := by
  have h' : core.step s = .next t := h
  simp only [Host.Core.run, h']

/-! ### The command port -/

theorem commandMove_outside_idle {s : State} (h : s.stage ≠ .idle) (w : Byte) : commandMove w s = .next s := by
  unfold commandMove
  cases hs : s.stage with
  | idle => exact absurd hs h
  | acquire | decode | analyze | extract | handoff | stopped | faulted => rfl

/-- Settles O11: the move made is the host's, and the command port does nothing outside `IDLE`. -/
theorem commandsOutsideIdleHaveNoEffect : Obligations.CommandsOutsideIdleHaveNoEffect := by
  intro s w rest hstage hdue hscript
  calc step s
      = commandMove w s.popMove := step_eq_agentMove hscript (by simp) hdue
    _ = .next s.popMove := commandMove_outside_idle (s := s.popMove) hstage w
    _ = _ := by rw [popMove_eq hscript]

/-! ### One element read of Variant A -/

theorem serMayReturn_of_serBytes_length {s : State} {n : Nat} (h : (s.serBytes n).length = n) (hn : 0 < n) :
    s.serMayReturn n n = true := by
  simp only [State.serBytes, List.length_take, List.length_drop] at h
  simp only [State.serMayReturn, le_refl, decide_true, Bool.true_and, decide_eq_true_iff]
  omega

theorem serialRequest_response {s : State} (hstage : s.stage = .acquire) (hphase : s.phase = .wait)
    (hvariant : s.cfg.variant = some 0) : serialRequest s = some (.response, 4) := by
  simp [serialRequest, blockedOnTransport_iff.2 ⟨hstage, hphase⟩, hvariant]

/-- A full read of four bytes in a Variant A response is the token A_ELEM of their word (R97). -/
theorem serialMove_element {s : State} {u : Word} (hrequest : serialRequest s = some (.response, 4))
    (hbytes : s.serBytes 4 = wordBytes u) : serialMove 4 s = exec (.aElem u) (s.serAdvance 4) := by
  have hmay : s.serMayReturn 4 4 = true := serMayReturn_of_serBytes_length (by rw [hbytes]; rfl) (by decide)
  simp [serialMove, hrequest, hmay, decode, hbytes, oneWord_wordBytes]

theorem exec_aElem_sample {s : State} (u : Word) (h : s.elementIndex < s.requestedCount) :
    exec (.aElem u) s = .next (State.examine { putI32 u s with consumed := s.consumed + 4 }) := by
  simp [exec, execAElem, deliverI32, h]

theorem exec_aElem_trailing {s : State} (u : Word) (h : s.requestedCount ≤ s.elementIndex) :
    exec (.aElem u) s = .next (State.finishStage .analyze { s with
      trailing := sext32 u, sampLen := s.requestedCount, sampValid := true, trailingValid := true,
      consumed := 0 }) := by
  simp [exec, execAElem, deliverI32, h.not_gt]

/-! ### The whole response -/

/-- ACQUIRE_A is blocked in its element read, no interrupt is latched, the words `us` are the next of `ser_in`, and the
oracle returns each of them whole, four bytes in each read, with nothing else to come. -/
structure AwaitsWords (s : State) (us : List Word) : Prop where
  stage : s.stage = .acquire
  phase : s.phase = .wait
  variant : s.cfg.variant = some 0
  notPending : s.cancelPending = false
  examined : s.examined = true
  unbuffered : s.env.serBuffered = 0
  stream : ∃ after, s.env.serIn.drop s.env.serPos = us.flatMap wordBytes ++ after
  script : s.env.script = List.replicate us.length (.serialReturns 4)

/-- The state when the element `u` has been read and kept as the next sample (R123). -/
def State.afterSample (u : Word) (s : State) : State :=
  State.examine { putI32 u (s.popMove.serAdvance 4) with consumed := s.consumed + 4 }

/-- The state when `words` and then `last` have been read as samples and elapsed time, and the acquisition is complete
(R123, R125). -/
def State.afterResponse (words : List Word) (last : Word) (s : State) : State :=
  { s with
    samp := s.samp ++ words.map (fun u => .i32 (sext32 u)), sampLen := s.requestedCount, sampValid := true,
    trailing := sext32 last, trailingValid := true, consumed := 0,
    stage := if s.loop then .analyze else .idle, phase := .start,
    env := { s.env with serPos := s.env.serPos + (4 * words.length + 4), script := [] } }

section

variable {s : State} {u last : Word} {us words : List Word}

/-- The step in which the next word of the response is read makes it the token A_ELEM. -/
theorem AwaitsWords.step_eq (h : AwaitsWords s (u :: us)) :
    step s = exec (.aElem u) (s.popMove.serAdvance 4) := by
  obtain ⟨after, hstream⟩ := h.stream
  have hbytes : s.popMove.serBytes 4 = wordBytes u := by
    simp [State.serBytes, hstream, wordBytes]
  calc step s
      = serialMove 4 s.popMove := step_eq_agentMove h.script (by simp) (cancelDue_of_not_pending h.notPending)
    _ = _ := serialMove_element (serialRequest_response h.stage h.phase h.variant) hbytes

theorem AwaitsWords.step_sample (h : AwaitsWords s (u :: us)) (hk : s.elementIndex < s.requestedCount) :
    step s = .next (s.afterSample u) :=
  h.step_eq.trans (exec_aElem_sample u hk)

/-- After a sample the rest of the response is still awaited. -/
theorem AwaitsWords.afterSample (h : AwaitsWords s (u :: us)) : AwaitsWords (s.afterSample u) us where
  stage := h.stage
  phase := h.phase
  variant := h.variant
  notPending := h.notPending
  examined := by simp [State.afterSample, putI32, h.notPending]
  unbuffered := by simp [State.afterSample, putI32, h.unbuffered]
  stream := by
    obtain ⟨after, hstream⟩ := h.stream
    refine ⟨after, ?_⟩
    simp [State.afterSample, putI32, ← List.drop_drop, hstream, wordBytes]
  script := by simp [State.afterSample, putI32, h.script, List.replicate_succ]

/-- The element after the last sample is the elapsed-time word, and the acquisition completes. -/
theorem AwaitsWords.step_trailing (h : AwaitsWords s [last]) (hk : s.requestedCount ≤ s.elementIndex) :
    step s = .next (s.afterResponse [] last) := by
  rw [h.step_eq, exec_aElem_trailing (s := s.popMove.serAdvance 4) last hk]
  have hscript : s.env.script = [.serialReturns 4] := h.script
  simp [State.finishStage, State.enterStage, State.examine, State.afterResponse, State.serAdvance, State.popMove,
    State.requestedCount, h.notPending, h.examined, h.unbuffered, hscript]

theorem elementIndex_afterSample (s : State) (u : Word) : (s.afterSample u).elementIndex = s.elementIndex + 1 :=
  Nat.add_div_right s.consumed (by decide)

/-- Reading one sample first and then the others is reading them all. -/
theorem afterResponse_afterSample (hexamined : s.examined = true) (hpending : s.cancelPending = false)
    (hbuffered : s.env.serBuffered = 0) :
    (s.afterSample u).afterResponse words last = s.afterResponse (u :: words) last := by
  simp [State.afterResponse, State.afterSample, State.examine, putI32, State.pushSample, State.serAdvance,
    State.popMove, State.requestedCount, hexamined, hpending, hbuffered]
  omega

/-- Reads of the remaining samples and of the elapsed-time word complete the acquisition, from whatever element it has
reached (R123, R125). -/
theorem run_response (words : List Word) : ∀ s : State, AwaitsWords s (words ++ [last]) →
    s.elementIndex + words.length = s.requestedCount →
    Host.Core.run core (words.length + 1) s = .next (s.afterResponse words last) := by
  induction words with
  | nil =>
    intro s h hcount
    rw [run_succ_of_step (h.step_trailing hcount.ge)]
    rfl
  | cons u words ih =>
    intro s h hcount
    rw [List.length_cons] at hcount
    have hnext : (s.afterSample u).elementIndex + words.length = s.requestedCount := by
      rw [elementIndex_afterSample]
      omega
    rw [List.length_cons, run_succ_of_step (h.step_sample (by omega)), ih _ h.afterSample hnext,
      afterResponse_afterSample h.examined h.notPending h.unbuffered]

end

/-- Settles O23, by `run_response` from the first element. -/
theorem acquireAReadsWholeResponse : Obligations.AcquireAReadsWholeResponse := by
  intro s c words last before after hstage hphase hvariant hcount hconsumed hsamp hpending hexamined hbuffered
    hlength hstream hpos hscript
  have hrequested : s.requestedCount = words.length := by simp [State.requestedCount, hcount, hlength]
  have hawaits : AwaitsWords s (words ++ [last]) :=
    { stage := hstage, phase := hphase, variant := hvariant, notPending := hpending, examined := hexamined,
      unbuffered := hbuffered
      stream := ⟨after, by rw [hstream, hpos, List.append_assoc, List.drop_left]⟩
      script := by rw [hscript, List.length_append, hlength, List.length_singleton] }
  rw [← hlength, run_response words s hawaits (by simp [State.elementIndex, hconsumed, hrequested])]
  simp [State.afterResponse, hrequested, hsamp, hconsumed]

end Sys2Proof.Machine
end

section
/-! PROOFS. The family 40_frame_synchronizer.md: a marker byte in the header search (R128) and a payload read that
returns too few bytes (R131). The general facts come first: the step that answers a serial read, the read in progress
of Variant B, and what the bytes of one answer are. -/

namespace Sys2Proof.Machine

/-! ### The answer of a serial read -/

theorem serMayReturn_iff {s : State} {n len : Nat} :
    s.serMayReturn n len = true ↔ len ≤ n ∧ s.env.serPos + len ≤ s.env.serIn.length := by
  simp [State.serMayReturn]

theorem serBytes_one {s : State} {b : Byte} (h : s.env.serIn[s.env.serPos]? = some b) : s.serBytes 1 = [b] := by
  obtain ⟨hlt, hb⟩ := List.getElem?_eq_some_iff.1 h
  rw [State.serBytes, List.drop_eq_getElem_cons hlt, hb]
  rfl

/-- With no cancellation due, the answer of the read in progress is consumed, and the token it makes is executed
(R63, R97). -/
theorem step_eq_exec_token {s : State} {c : Context} {n len : Nat} {rest : List Move} {i : Instr}
    (hdue : cancelDue s = false) (hscript : s.env.script = .serialReturns len :: rest)
    (hrequest : serialRequest s = some (c, n)) (hmay : s.serMayReturn n len = true)
    (hdecode : decode s.par c (s.serBytes len) = some i) : step s = exec i (s.popMove.serAdvance len) := by
  have hrequest' : serialRequest s.popMove = some (c, n) := hrequest
  have hmay' : s.popMove.serMayReturn n len = true := hmay
  have hdecode' : decode s.popMove.par c (s.popMove.serBytes len) = some i := hdecode
  calc step s
      = serialMove len s.popMove := step_eq_agentMove hscript (by simp) hdue
    _ = _ := by simp only [serialMove, hrequest', hmay', hdecode', if_true]

theorem popMove_serAdvance_eq {s : State} {m : Move} {rest : List Move} (hscript : s.env.script = m :: rest)
    (len : Nat) : s.popMove.serAdvance len = { s with env := { s.env with
      serPos := s.env.serPos + len, serBuffered := s.env.serBuffered - len, script := rest } } := by
  rw [popMove_eq hscript]
  rfl

/-! ### The reads of Variant B and their tokens -/

theorem serialRequest_searching {s : State} {m : Byte} (hstage : s.stage = .acquire) (hphase : s.phase = .wait)
    (hvariant : s.cfg.variant = some 1) (hmarker : s.cfg.headerMarker = some m) (hmode : s.mode = .searchingHeader) :
    serialRequest s = some (.searching m, 1) := by
  simp [serialRequest, blockedOnTransport_iff.2 ⟨hstage, hphase⟩, hvariant, hmarker, hmode]

theorem serialRequest_collecting {s : State} (hstage : s.stage = .acquire) (hphase : s.phase = .wait)
    (hvariant : s.cfg.variant = some 1) (hmode : s.mode = .collectingPayload) :
    serialRequest s = some (.collecting, s.par.frameBytes) := by
  simp [serialRequest, blockedOnTransport_iff.2 ⟨hstage, hphase⟩, hvariant, hmode]

theorem decode_searching_marker (p : Config.Params) (m : Byte) : decode p (.searching m) [m] = some (.bMarker m) := by
  simp [decode]

theorem decode_collecting_short {p : Config.Params} {bs : List Byte} (h : bs.length < p.frameBytes) :
    decode p .collecting bs = some (.bShort bs) := by
  simp [decode, h.ne, h]

theorem exec_bMarker (b : Byte) (s : State) :
    exec (.bMarker b) s = .next { s with mode := .collectingPayload, examined := !s.cancelPending } := rfl

theorem exec_bShort (p : List Byte) (s : State) :
    exec (.bShort p) s = .next { s with mode := .searchingHeader, consumed := 0, examined := !s.cancelPending } := rfl

/-! ### The steps -/

/-- Settles O24: the byte read is the token B_MARKER, and the state after it is blocked in the payload read. -/
theorem headerSearchTokens : Obligations.HeaderSearchTokens := by
  refine ⟨fun s b => ⟨exec_bMarker b s, rfl, rfl⟩, ?_⟩
  intro s m rest hstage hphase hvariant hmarker hmode hpending hscript hbyte
  have hbytes : s.serBytes 1 = [m] := serBytes_one hbyte
  have hstep : step s = exec (.bMarker m) (s.popMove.serAdvance 1) :=
    step_eq_exec_token (cancelDue_of_not_pending hpending) hscript
      (serialRequest_searching hstage hphase hvariant hmarker hmode)
      (serMayReturn_of_serBytes_length (by rw [hbytes]; rfl) Nat.one_pos)
      (by rw [hbytes, decode_searching_marker])
  refine ⟨_, ?_, rfl, serialRequest_collecting hstage hphase hvariant rfl⟩
  rw [hstep, exec_bMarker, popMove_serAdvance_eq hscript]
  simp [hpending]

/-- Settles O26: the bytes read are the token B_SHORT, and the state after it is blocked in the header search. -/
theorem bShortDropsSilently : Obligations.BShortDropsSilently := by
  refine ⟨fun s p => exec_bShort p s, ?_⟩
  intro s m len rest hstage hphase hvariant hmarker hmode hpending hscript hshort hstream
  have hmay : s.serMayReturn s.par.frameBytes len = true := serMayReturn_iff.2 ⟨hshort.le, hstream⟩
  have hstep : step s = exec (.bShort (s.serBytes len)) (s.popMove.serAdvance len) :=
    step_eq_exec_token (cancelDue_of_not_pending hpending) hscript
      (serialRequest_collecting hstage hphase hvariant hmode) hmay
      (decode_collecting_short (by rwa [serBytes_length hmay]))
  refine ⟨_, ?_, rfl, rfl, serialRequest_searching hstage hphase hvariant hmarker rfl⟩
  rw [hstep, exec_bShort, popMove_serAdvance_eq hscript]
  simp [hpending]

end Sys2Proof.Machine
end

section
/-! PROOFS. The family 41_sample_decoder.md: the round trip of DECODE_F32 (R154). The general facts come first: the
element words of a string of encoded words, and what DECODE_F32 does to a valid payload. -/

namespace Sys2Proof

theorem elementWords_wordBytes_append (u : Word) (bs : List Byte) :
    elementWords (wordBytes u ++ bs) = u :: elementWords bs :=
  congrArg (· :: elementWords bs) (Option.some.inj (oneWord_wordBytes u))

/-- Splitting a byte string into its element words inverts encoding them one after another (R69, R94). -/
theorem elementWords_flatMap_wordBytes (us : List Word) : elementWords (us.flatMap wordBytes) = us := by
  induction us with
  | nil => rfl
  | cons u us ih => rw [List.flatMap_cons, elementWords_wordBytes_append, ih]

theorem length_flatMap_wordBytes (us : List Word) : (us.flatMap wordBytes).length = us.length * 4 := by
  simp [List.length_flatMap, wordBytes]

namespace Machine

/-- DECODE_F32 of a valid payload completes in one transition, with the payload's words as samples (R151). -/
theorem exec_decodeF32_valid {s : State} (hstage : s.stage = .decode) (hraw : s.rawValid = true) :
    exec .decodeF32 s = .next { s with
      samp := (elementWords (s.raw.take s.par.frameBytes)).map .f32, sampLen := s.par.N, sampValid := true,
      rawValid := false, stage := if s.loop then .analyze else .idle, phase := .start,
      examined := !s.cancelPending } := by
  simp [exec, execDecodeF32, hstage, hraw, decodeFrame_eq, State.finishStage, State.enterStage, State.examine]

/-- Settles O32: the payload is exactly one frame, and its element words are the words encoded in it. -/
theorem decodeRoundTrip : Obligations.DecodeRoundTrip := by
  intro s us hstage hvalid hlength hraw
  have hframe : s.raw.length = s.par.frameBytes := by
    rw [hraw, length_flatMap_wordBytes, hlength, Config.Params.frameBytes]
  have hwords : elementWords (s.raw.take s.par.frameBytes) = us := by
    rw [List.take_of_length_le hframe.le, hraw, elementWords_flatMap_wordBytes]
  rw [exec_decodeF32_valid hstage hvalid, hwords]

end Machine

end Sys2Proof
end

section
/-! PROOFS. The family 42_spectral_analyzer.md: the spectrum of an all-zero frame (R180). The general facts come first:
what ANALYZE does when its checks pass, and which spectrum it writes for a finite frame. -/

namespace Sys2Proof.Machine

/-! ### ANALYZE when its checks pass -/

theorem analyzeCheck_eq_none {s : State} {fs : Rat} {w : BitVec 1} (hvalid : s.sampValid = true)
    (hlen : s.sampLen = s.par.N) (hrate : s.cfg.sampleRate = some fs) (hpos : 0 < fs)
    (hwindow : s.cfg.windowSel = some w) (hpage : w = 1 → s.par.hammingPresent = true) : analyzeCheck s = none := by
  simpa [analyzeCheck, hvalid, hlen, hrate, hwindow, hpos] using hpage

/-- In its stage, with its checks passed, ANALYZE writes the whole spectrum and completes in one transition (R165). -/
theorem exec_analyze_checked {s : State} {fs : Rat} {w : BitVec 1} (hstage : s.stage = .analyze)
    (hcheck : analyzeCheck s = none) (hrate : s.cfg.sampleRate = some fs) (hwindow : s.cfg.windowSel = some w) :
    exec .analyze s = .next ((analyzed fs w s).finishStage .extract) := by
  simp [exec, execAnalyze, hstage, hcheck, hrate, hwindow]

/-- The magnitudes written for a finite frame are those of `NUM.spectrum` (R165, R176). -/
theorem analyzed_mag_of_finite (fs : Rat) (w : BitVec 1) {s : State} (hlength : s.samp.length = s.par.N)
    (hfinite : ∀ x ∈ s.samp, sampleNonFinite x = false) : (analyzed fs w s).mag = spectrum s.par w s.samp := by
  have hframe : s.samp.take s.par.N = s.samp := List.take_of_length_le hlength.le
  have hgood : s.samp.any sampleNonFinite = false := by simpa [List.any_eq_false] using hfinite
  simp [analyzed, hframe, hgood]

/-! ### The all-zero frame -/

theorem sampleUnits_eq_zero_iff {x : Sample} : sampleUnits x = 0 ↔ Reference.sampleValue x = 0 := by
  rw [← Int.cast_eq_zero (α := ℝ), sampleUnits_value]
  exact mul_eq_zero_iff_left (by positivity)

theorem windowed_eq_zero (sel : BitVec 1) (N : ℕ) {x : List Sample} (hzero : ∀ y ∈ x, Reference.sampleValue y = 0)
    (n : ℕ) : Reference.windowed sel N x n = 0 := by
  have hsample : Reference.sampleValue (x.getD n (.i32 0)) = 0 := by
    rcases lt_or_ge n x.length with hn | hn
    · rw [List.getD_eq_getElem _ _ hn]
      exact hzero _ (List.getElem_mem hn)
    · rw [List.getD_eq_default _ _ hn]
      exact Int.cast_zero
  rw [Reference.windowed, hsample, zero_mul]

/-- Over the real numbers every term of every bin's sum vanishes for an all-zero frame (R166, R170, R171). -/
theorem magnitude_eq_zero (sel : BitVec 1) (N : ℕ) {x : List Sample} (hzero : ∀ y ∈ x, Reference.sampleValue y = 0)
    (k : ℕ) : Reference.magnitude sel N x k = 0 := by
  simp [Reference.magnitude, Reference.rePart, Reference.imPart, windowed_eq_zero sel N hzero]

/-- P2 of R176 for both instances: the exact one by the reference semantics, an implementation's because its value
there is the zero of its `MagT` and `toReal` is 0 at that zero. -/
theorem spectrumAt_toReal_eq_zero (p : Config.Params) (sel : BitVec 1) {x : List Sample} (hlength : x.length = p.N)
    (hzero : ∀ y ∈ x, Reference.sampleValue y = 0) (k : ℕ) : (spectrumAt p sel x k).toReal = 0 := by
  cases hnum : p.num with
  | exact => rw [spectrumAt_toReal hnum sel x hlength, magnitude_eq_zero sel p.N hzero]
  | implementation =>
    have hunits : x.all (fun y => sampleUnits y == 0) = true := by
      simpa [sampleUnits_eq_zero_iff] using hzero
    have hplace : spectrumAt p sel x k = .impl 0 := by simp [spectrumAt, hnum, hunits]
    rw [hplace]
    exact Mag.implToReal_spec.2.2

/-- Settles O38: the checks pass, the frame is finite, and every bin of its spectrum is zero under either `NUM`. -/
theorem zeroFrameGivesZeroSpectrum : Obligations.ZeroFrameGivesZeroSpectrum := by
  intro s fs w hstage hvalid hlen hlength hrate hpos hwindow hpage hsamples
  have hcheck : analyzeCheck s = none := analyzeCheck_eq_none hvalid hlen hrate hpos hwindow hpage
  have hmag : (analyzed fs w s).mag = spectrum s.par w s.samp :=
    analyzed_mag_of_finite fs w hlength fun x hx => (hsamples x hx).1
  refine ⟨_, exec_analyze_checked hstage hcheck hrate hwindow, rfl, ?_, ?_⟩
  · rw [State.finishStage_mag, hmag, spectrum_length]
  · intro m hm
    rw [State.finishStage_mag, hmag] at hm
    obtain ⟨k, -, rfl⟩ := List.mem_map.1 hm
    exact spectrumAt_toReal_eq_zero s.par w hlength (fun x hx => (hsamples x hx).2) k

end Sys2Proof.Machine
end

section
/-! PROOFS. The family 43_peak_extractor.md: the entries of the peak list (R189) and the minimum distance (R188). The
general facts come first: what EXTRACT does when its checks pass, the list functions of the model as the predicates of a
held spectrum, and the two halves of the greedy rule. -/

namespace Sys2Proof.Machine

section

variable {s : State} {frac d : Word} {dist i j : Nat}

/-! ### EXTRACT when its checks pass -/

/-- In its stage, with its checks passed, EXTRACT writes the whole peak list and completes in one transition (R185). -/
theorem exec_extract_checked (hstage : s.stage = .extract) (hvalid : s.specValid = true)
    (hfrac : s.cfg.minHeightFraction = some frac) (hfinite : f32NonFinite frac = false)
    (hdist : s.cfg.minBinDistance = some d) :
    exec .extract s = .next ((extracted frac d.toNat s).finishStage .handoff) := by
  simp [exec, execExtract, hstage, hvalid, hfrac, hfinite, hdist]

/-- The indices of the peak list are the survivors. -/
theorem extracted_peaks_map_idx (frac : Word) (dist : Nat) (s : State) :
    (extracted frac dist s).peaks.map Peak.idx = survivors s.par frac dist s.mag :=
  List.map_map.trans (List.map_id _)

theorem extracted_peaks_length (frac : Word) (dist : Nat) (s : State) :
    (extracted frac dist s).peaks.length = (extracted frac dist s).peakCount :=
  List.length_map _

/-! ### Candidates and qualifying bins of a held spectrum -/

theorem SpectrumHeld.magAt_lt_iff (h : SpectrumHeld s) (hi : i ≤ s.par.K) (hj : j ≤ s.par.K) :
    (magAt s.mag i).lt (magAt s.mag j) = true ↔ magPlace s i < magPlace s j := by
  obtain ⟨-, hlength, -, hlegal⟩ := h
  exact Machine.magAt_lt_iff hlegal (by omega) (by omega)

theorem SpectrumHeld.mem_candidates_iff (h : SpectrumHeld s) : i ∈ candidates s.mag s.par.K ↔ IsPeakCandidate s i := by
  rw [mem_candidates]
  refine and_congr_right fun _ => and_congr_right fun hi => ?_
  rw [h.magAt_lt_iff (by omega) (by omega), h.magAt_lt_iff hi (by omega)]

theorem SpectrumHeld.mem_qualifying_iff (h : SpectrumHeld s) :
    i ∈ qualifying s.par frac s.mag ↔ Qualifies s frac i := by
  rw [qualifying, List.mem_filter, h.mem_candidates_iff, Qualifies]

theorem Qualifies.le_K (h : Qualifies s frac i) : i ≤ s.par.K := by
  obtain ⟨⟨-, hi, -, -⟩, -⟩ := h
  omega

/-- The peak at a bin of the spectrum holds that bin's centre and magnitude (R189). -/
theorem SpectrumHeld.peakAt_copies (h : SpectrumHeld s) (hi : i ≤ s.par.K) :
    s.bin[i]? = some (peakAt s.mag s.bin i).freq ∧ s.mag[i]? = some (peakAt s.mag s.bin i).mag := by
  obtain ⟨-, hmag, hbin, -⟩ := h
  have hbin' : i < s.bin.length := by omega
  have hmag' : i < s.mag.length := by omega
  simp [peakAt, magAt, hbin', hmag']

/-! ### The greedy rule on a held spectrum -/

theorem apart_iff : apart dist i j = true ↔ dist ≤ i - j ∨ dist ≤ j - i := by
  simp [apart]

theorem apart_comm : apart dist i j = apart dist j i := by
  simp [apart, or_comm]

/-- Any two survivors are at least the minimum distance apart (R188). -/
theorem survivors_apart {p : Config.Params} {m : List Mag} (hi : i ∈ survivors p frac dist m)
    (hj : j ∈ survivors p frac dist m) (hne : i ≠ j) : apart dist i j = true := by
  have hsymm : Std.Symm fun a b => apart dist b a = true := ⟨fun _ _ h => apart_comm.trans h⟩
  exact (greedy_apart dist _ [] .nil).forall (mem_survivors.1 hj) (mem_survivors.1 hi) hne.symm

theorem Outranks.ne (h : Outranks s j i) : i ≠ j := by
  rintro rfl
  simp [Outranks] at h

/-- The qualifying bins are visited in the order of R188. -/
theorem SpectrumHeld.rankOrder_outranks (h : SpectrumHeld s) (frac : Word) :
    (rankOrder s.mag (qualifying s.par frac s.mag)).Pairwise (Outranks s) :=
  rankOrder_sorted (fun _ _ hi hj => h.magAt_lt_iff hi hj) _ (qualifying_sorted s.par frac s.mag)
    fun _ hi => (h.mem_qualifying_iff.1 hi).le_K

/-- A qualifying bin that is dropped is too close to a survivor that outranks it (R188). -/
theorem SpectrumHeld.exists_outranking_survivor (h : SpectrumHeld s) (hi : Qualifies s frac i)
    (hdropped : i ∉ survivors s.par frac dist s.mag) :
    ∃ j ∈ survivors s.par frac dist s.mag, Outranks s j i ∧ apart dist i j = false := by
  have hvisited : i ∈ rankOrder s.mag (qualifying s.par frac s.mag) :=
    (rankOrder_perm s.mag _).mem_iff.2 (h.mem_qualifying_iff.2 hi)
  obtain ⟨j, hj, hrank, hclose⟩ := greedy_drops dist _ [] (h.rankOrder_outranks frac) i hvisited
    (mem_survivors.not.1 hdropped)
  exact ⟨j, mem_survivors.2 hj, hrank, hclose⟩

/-- The survivors are fixed by the greedy rule: a qualifying bin is one exactly when it is far enough from every
survivor visited before it (R188). -/
theorem SpectrumHeld.mem_survivors_iff (h : SpectrumHeld s) (hi : Qualifies s frac i) :
    i ∈ survivors s.par frac dist s.mag ↔
      ∀ j ∈ survivors s.par frac dist s.mag, Outranks s j i → apart dist i j = true := by
  refine ⟨fun hmem j hj hrank => survivors_apart hmem hj hrank.ne, fun hfar => ?_⟩
  by_contra hdropped
  obtain ⟨j, hj, hrank, hclose⟩ := h.exists_outranking_survivor hi hdropped
  exact Bool.false_ne_true (hclose.symm.trans (hfar j hj hrank))

end

/-! ### The obligations -/

/-- Settles O41: the list written is the survivors, each with its bin's centre and magnitude. -/
theorem extractReportsQualifyingBinsAscending : Obligations.ExtractReportsQualifyingBinsAscending := by
  intro s frac d hstage hheld hfrac hfinite hdist
  refine ⟨(extracted frac d.toNat s).peaks, ?_, ?_, ?_⟩
  · rw [extracted_peaks_length]
    exact exec_extract_checked hstage hheld.1 hfrac hfinite hdist
  · rw [extracted_peaks_map_idx]
    exact survivors_sorted s.par frac d.toNat s.mag
  · intro p hp
    obtain ⟨i, hi, rfl⟩ := List.mem_map.1 hp
    have hqualifies : Qualifies s frac i := hheld.mem_qualifying_iff.1 (survivors_qualify hi)
    exact ⟨hqualifies, hheld.peakAt_copies hqualifies.le_K⟩

/-- Settles O42: the peak indices are the survivors, which the greedy rule fixes. -/
theorem extractResolvesDistanceByRank : Obligations.ExtractResolvesDistanceByRank := by
  intro s t frac d hstage hheld hfrac hfinite hdist hexec
  have hnext := (exec_extract_checked hstage hheld.1 hfrac hfinite hdist).symm.trans hexec
  have hidx : t.peaks.map Peak.idx = survivors s.par frac d.toNat s.mag := by
    rw [← Host.Outcome.next.inj hnext, State.finishStage_peaks, extracted_peaks_map_idx]
  rw [hidx]
  refine ⟨fun i hi j hj hlt => ?_, fun i hi => ?_⟩
  · have hapart := apart_iff.1 (survivors_apart hi hj hlt.ne)
    omega
  · simpa only [apart_iff] using hheld.mem_survivors_iff (dist := d.toNat) hi

end Sys2Proof.Machine
end

section
/-! PROOFS. The family 44_pipeline_control.md: the two commands that complete in the transition that accepts them, NOP
(R213) and CLOSE (R202). The general facts come first: the word of NOP, and the equation of each command. -/

namespace Sys2Proof.Machine

/-- The all-zero command word is NOP under every parameter record (R100, R213). -/
theorem decode_command_zero (p : Config.Params) : decode p .command [0x00] = some .nop := rfl

@[simp] theorem exec_nop (s : State) : exec .nop s = .next s := rfl

/-- CLOSE in `IDLE` completes at once (R202). -/
theorem exec_closeTransport_idle {s : State} (hidle : s.stage = .idle) :
    exec .closeTransport s = .next { s with transportOpen := false } := by
  simp only [exec, execClose, hidle]

/-- Settles O6: the word of NOP and the equations of the two commands. -/
theorem nopAndCloseComplete : Obligations.NopAndCloseComplete :=
  fun s => ⟨decode_command_zero s.par, exec_nop s, exec_closeTransport_idle⟩

end Sys2Proof.Machine
end

section
/-! PROOFS. The family 60_exceptions.md: fault entry and the stage `FAULTED` (R222, R239). The general facts come first:
in a terminal stage no cancellation is due and the core makes no transition, and a move of another agent leaves the stage
and the fault code. -/

namespace Sys2Proof.Machine

theorem cancelDue_of_terminal {s : State} (hterminal : s.stage = .stopped ∨ s.stage = .faulted) :
    cancelDue s = false := by
  rcases hterminal with hstage | hstage <;> simp [cancelDue, hstage]

/-- In a terminal stage the core stays as it is: every other transition requires another stage (R239). -/
theorem CoreTrans.eq_of_terminal {s t : State} (h : CoreTrans s t)
    (hterminal : s.stage = .stopped ∨ s.stage = .faulted) : t = s := by
  cases h with
  | stay => rfl
  | cancelled _ hs _ => rcases hs with hs | hs <;> simp [hs] at hterminal
  | _ => simp_all only [reduceCtorEq, or_self]

theorem OutsideTrans.stage_eq {s t : State} (h : OutsideTrans s t) : t.stage = s.stage := by
  cases h <;> rfl

theorem OutsideTrans.fault_eq {s t : State} (h : OutsideTrans s t) : t.fault = s.fault := by
  cases h <;> rfl

/-- A step from a terminal stage that is no reset keeps the stage and the fault code (R222 (1), R239). -/
theorem step_of_terminal {s t : State} (hterminal : s.stage = .stopped ∨ s.stage = .faulted)
    (hstep : step s = .next t) (hreset : ∀ rest, s.env.script ≠ .reset :: rest) :
    t.stage = s.stage ∧ t.fault = s.fault := by
  obtain ⟨rest, hscript, -⟩ | ⟨hdue, -⟩ | ⟨-, u, hu, htrans⟩ := step_cases hstep
  · exact absurd hscript (hreset rest)
  · exact absurd hdue (by simp [cancelDue_of_terminal hterminal])
  · have hstage : u.stage = s.stage := by rcases hu with rfl | rfl <;> rfl
    have hfault : u.fault = s.fault := by rcases hu with rfl | rfl <;> rfl
    rw [← hstage, ← hfault]
    rcases htrans with hcore | houtside
    · rw [hcore.eq_of_terminal (by rwa [hstage])]
      exact ⟨rfl, rfl⟩
    · exact ⟨houtside.stage_eq, houtside.fault_eq⟩

/-- Settles O47: fault entry by its definition, and the step from `FAULTED` as one from a terminal stage. -/
theorem faultEntryReleasesAndStops : Obligations.FaultEntryReleasesAndStops := by
  refine ⟨fun _ _ => rfl, fun s t hfaulted hstep hreset => ?_⟩
  obtain ⟨hstage, hfault⟩ := step_of_terminal (.inr hfaulted) hstep hreset
  exact ⟨hstage.trans hfaulted, hfault⟩

end Sys2Proof.Machine
end

section
/-! PROOFS. The family 70_reset_and_hazards.md: the reset input (R250, R251). The general facts come first: what the host
reads of the core just reset, what the next move leaves of the collaborators, and the step in which reset is asserted. -/

namespace Sys2Proof.Machine

/-! ### What the host reads after reset -/

/-- In any stage, a buffer whose valid bit is 0 is not readable (R39). -/
@[simp] theorem State.hostReads_invalid {α : Type} (s : State) (contents : α) :
    s.hostReads false contents = none := by
  simp [State.hostReads]

section
variable (s : State)

@[simp] theorem State.resetCore_readSamp : s.resetCore.readSamp = none := by simp [State.readSamp]
@[simp] theorem State.resetCore_readTrailing : s.resetCore.readTrailing = none := by simp [State.readTrailing]
@[simp] theorem State.resetCore_readMag : s.resetCore.readMag = none := by simp [State.readMag]
@[simp] theorem State.resetCore_readBin : s.resetCore.readBin = none := by simp [State.readBin]
@[simp] theorem State.resetCore_readPeaks : s.resetCore.readPeaks = none := by simp [State.readPeaks]

end

/-! ### The step of reset -/

theorem popMove_env {s : State} {m : Move} {rest : List Move} (hscript : s.env.script = m :: rest) :
    s.popMove.env = { s.env with script := rest } := by
  rw [popMove_eq hscript]

/-- Reset is taken before everything else, a cancellation that is due included (R250, R252). -/
theorem step_reset {s : State} {rest : List Move} (hscript : s.env.script = .reset :: rest) :
    step s = .next s.popMove.resetCore := by
  simp only [step, advance, hscript, agentMove]

/-- Settles O53: the step answers the core just reset, around which only the script has moved on. -/
theorem resetRestoresEveryField : Obligations.ResetRestoresEveryField := by
  intro s rest hscript
  refine ⟨s.popMove.resetCore, step_reset hscript, ?_⟩
  simp [popMove_env hscript, Cfg.unwritten]

end Sys2Proof.Machine
end

section
/-! PROOFS. The invariant of control (O57). First the induction of one step, which every invariant uses. -/

namespace Sys2Proof.Machine

/-! ### One step, once and for all -/

theorem cancelDue_iff {s : State} : cancelDue s = true ↔ s.cancelPending = true ∧
    (s.stage = .idle ∨ s.stage ≠ .stopped ∧ s.stage ≠ .faulted ∧ s.examined = false) := by
  cases hs : s.stage <;> simp [cancelDue, hs]

/-- The state with another script: what no invariant and no transition of the core looks at. -/
def State.withScript (script : List Move) (s : State) : State :=
  { s with env := { s.env with script := script } }

/-- `step_cases`, the state that moves being the one before the step but for the script. -/
theorem step_trans {s t : State} (hstep : step s = .next t) :
    (∃ rest, s.env.script = .reset :: rest ∧ t = (s.withScript rest).resetCore) ∨
      (cancelDue s = true ∧ t = s.enterCancel) ∨
      ∃ script, CoreTrans (s.withScript script) t ∨ OutsideTrans (s.withScript script) t := by
  obtain ⟨rest, hscript, rfl⟩ | ⟨hdue, rfl⟩ | ⟨-, u, rfl | rfl, htrans⟩ := step_cases hstep
  · exact .inl ⟨rest, hscript, by rw [popMove_eq hscript]; rfl⟩
  · exact .inr (.inl ⟨hdue, rfl⟩)
  · exact .inr (.inr ⟨u.env.script, htrans⟩)
  · exact .inr (.inr ⟨s.env.script.tail, htrans⟩)

/-- What a step keeps: `J` of the state before it gives `P` of the state after it, when reset, cancellation entry and
every transition do. -/
theorem step_induction {J P : State → Prop} {s t : State} (hstep : step s = .next t)
    (hs : ∀ script, J (s.withScript script)) (hreset : ∀ script, P (s.withScript script).resetCore)
    (hcancel : cancelDue s = true → P s.enterCancel) (hcore : ∀ u, J u → CoreTrans u t → P t)
    (houtside : ∀ u, J u → OutsideTrans u t → P t) : P t := by
  obtain ⟨rest, -, rfl⟩ | ⟨hdue, rfl⟩ | ⟨script, h | h⟩ := step_trans hstep
  · exact hreset rest
  · exact hcancel hdue
  · exact hcore _ (hs script) h
  · exact houtside _ (hs script) h

/-! ### Control -/

/-- The fields the control invariant speaks of. -/
def State.controlFields (s : State) : Stage × Phase × Bool × Bool × FaultCode × Option (BitVec 2) :=
  (s.stage, s.phase, s.loop, s.transportOpen, s.fault, s.cfg.variant)

section
variable {s t : State}

theorem ControlInv.congr (hi : ControlInv s) (h : t.controlFields = s.controlFields) : ControlInv t := by
  simp only [State.controlFields, Prod.mk.injEq] at h
  obtain ⟨hstage, hphase, hloop, hopen, hfault, hvariant⟩ := h
  obtain ⟨h1, h2, h3, h4, h5, h6, h7, h8, h9⟩ := hi
  constructor <;> simpa only [VariantLegal, hstage, hphase, hloop, hopen, hfault, hvariant]

/-- Outside `FAULTED` no fault is recorded. -/
theorem ControlInv.fault_eq_none (hi : ControlInv s) (hs : s.stage ≠ .faulted) : s.fault = .none :=
  not_not.1 fun h => hs (hi.faulted.1 h)

/-- No loop runs in `IDLE`. -/
theorem ControlInv.loop_of_idle (hi : ControlInv s) (hs : s.stage = .idle) : s.loop = false :=
  Bool.eq_false_iff.2 fun hloop => (hi.looping hloop).2 hs

/-- No operation is in progress in `IDLE`. -/
theorem ControlInv.phase_of_idle (hi : ControlInv s) (hs : s.stage = .idle) : s.phase = .start :=
  not_not.1 fun hp => by simpa [hs] using hi.phases hp

theorem controlInv_resetIn (p : Config.Params) (e : Env) : ControlInv (State.resetIn p e) := by
  constructor <;> simp [State.resetIn]

theorem controlInv_enterFault {c : FaultCode} (hc : c ≠ .none) : ControlInv (s.enterFault c) := by
  constructor <;> simp
  split_ifs with h
  · exact hc
  · exact h

theorem ControlInv.enterCancel (hi : ControlInv s) (hs : s.stage ≠ .faulted) : ControlInv s.enterCancel := by
  constructor <;> simp [hi.fault_eq_none hs]

/-- A stage entered with no fault recorded meets the control invariant when its own conditions hold. -/
theorem controlInv_enterStage {st : Stage} (hfault : s.fault = .none) (hheld : s.transportOpen = true → VariantLegal s)
    (hst : st ≠ .stopped ∧ st ≠ .faulted) (hloop : s.loop = true → s.transportOpen = true ∧ st ≠ .idle)
    (hacquire : st = .acquire → s.transportOpen = true)
    (hdecode : st = .decode → s.cfg.variant = some 1 ∨ s.cfg.variant = some 2) : ControlInv (s.enterStage st) where
  terminal := by simp [hst]
  faulted := by simp [hst, hfault]
  looping := by simpa using hloop
  acquiring := by simpa using hacquire
  held := by simpa [VariantLegal] using hheld
  decoding := by simpa using hdecode
  phases := by simp
  handingOff := by simp
  preamble := by simp

/-- Completion of an operation keeps the control invariant. -/
theorem ControlInv.finishStage {st : Stage} (hi : ControlInv s) (hs : s.stage ≠ .faulted)
    (hst : st ≠ .idle ∧ st ≠ .stopped ∧ st ≠ .faulted)
    (hdecode : st = .decode → s.cfg.variant = some 1 ∨ s.cfg.variant = some 2) : ControlInv (s.finishStage st) := by
  obtain ⟨hidle, hstopped, hfaulted⟩ := hst
  have hfault := hi.fault_eq_none hs
  unfold State.finishStage
  split_ifs with hloop
  · obtain ⟨hopen, -⟩ := hi.looping hloop
    exact controlInv_enterStage hfault hi.held ⟨hstopped, hfaulted⟩ (fun _ => ⟨hopen, hidle⟩) (fun _ => hopen) hdecode
  · exact controlInv_enterStage hfault hi.held (by decide) (fun h => absurd h hloop) nofun nofun

/-- Moving on inside an operation keeps the control invariant; only ACQUIRE_A has a phase before its request. -/
theorem ControlInv.setPhase {ph : Phase} (hi : ControlInv s) (hs : s.stage = .acquire ∨ s.stage = .handoff)
    (hwrite : ph = .write → s.stage = .acquire ∧ s.cfg.variant = some 0) : ControlInv { s with phase := ph } where
  terminal := hi.terminal
  faulted := hi.faulted
  looping := hi.looping
  acquiring := hi.acquiring
  held := hi.held
  decoding := hi.decoding
  phases _ := hs
  handingOff hstage := by
    cases ph with
    | start => exact .inl rfl
    | wait => exact .inr rfl
    | write => cases hstage.symm.trans (hwrite rfl).1
  preamble := hwrite

/-- In `IDLE` no loop runs and no operation is in progress, so the transport may be taken or released. -/
theorem ControlInv.setTransport {o : Bool} (hi : ControlInv s) (hs : s.stage = .idle) (ho : o = true → VariantLegal s) :
    ControlInv { s with transportOpen := o } where
  terminal := by simp [hs]
  faulted := hi.faulted
  looping := by simp [hi.loop_of_idle hs]
  acquiring := by simp [hs]
  held := ho
  decoding := hi.decoding
  phases := hi.phases
  handingOff := hi.handingOff
  preamble := hi.preamble

theorem variant_legal_of_ne_three {v : BitVec 2} (h : v ≠ 3) : v = 0 ∨ v = 1 ∨ v = 2 := by
  revert h v
  decide

theorem analyzeCheck_ne_none {c : FaultCode} (h : analyzeCheck s = some c) : c ≠ .none := by
  rintro rfl
  unfold analyzeCheck at h
  repeat' split at h
  all_goals simp at h

/-- Every transition of the core keeps the control invariant. -/
theorem CoreTrans.keeps_control (h : CoreTrans s t) (hi : ControlInv s) : ControlInv t := by
  cases h with
  | stay => exact hi
  | marker | noise | short | gathered | element => exact hi.congr rfl
  | opened v hs hv h3 =>
    exact hi.setTransport hs fun _ => by
      simpa [VariantLegal, hv] using variant_legal_of_ne_three h3
  | closed hs => exact hi.setTransport hs nofun
  | accepted st hs ha hd hst =>
    exact controlInv_enterStage (hi.fault_eq_none (by simp [hs])) hi.held
      (by rcases hst with rfl | rfl | rfl | rfl | rfl <;> decide) (by simp [hi.loop_of_idle hs])
      (fun h => (ha h).1) hd
  | ran hs _ ho =>
    exact controlInv_enterStage (hi.fault_eq_none (by simp [hs])) hi.held (by decide) (fun _ => ⟨ho, by decide⟩)
      (fun _ => ho) nofun
  | startA c hs _ hv =>
    exact (hi.setPhase (ph := .write) (.inl hs) fun _ => ⟨hs, hv⟩).congr rfl
  | requested hs | startB _ hs | startC hs => exact (hi.setPhase (ph := .wait) (.inl hs) nofun).congr rfl
  | offered hs => exact (hi.setPhase (ph := .wait) (.inr hs) nofun).congr rfl
  | decoded hs =>
    rw [decodeFrame_eq]
    exact .finishStage (hi.congr rfl) (by simp [hs]) (by decide) nofun
  | analyzed _ _ hs | extracted _ _ hs | delivered hs | trailer _ hs =>
    exact .finishStage (hi.congr rfl) (by simp [hs]) (by decide) nofun
  | payload hs _ hv => exact .finishStage (hi.congr rfl) (by simp [hs]) (by decide) fun _ => .inl hv
  | filled _ hs _ hv => exact .finishStage (hi.congr rfl) (by simp [hs]) (by decide) fun _ => .inr hv
  | idleFault _ _ hc => exact controlInv_enterFault hc
  | analyzeFault _ _ hc => exact controlInv_enterFault (analyzeCheck_ne_none hc)
  | extractFault _ _ hc => exact controlInv_enterFault (by rcases hc with ⟨rfl, -⟩ | ⟨rfl, -⟩ <;> decide)
  | variantFault | countFault | markerFault | decodeFault | handoffFault => exact controlInv_enterFault (by decide)
  | insufficient => exact controlInv_enterFault (by decide)
  | cancelled _ hs => exact hi.enterCancel (by rcases hs with hs | hs <;> simp [hs])

/-- A write of another register than `VARIANT` leaves `VARIANT` as it is. -/
theorem Cfg.write_variant_eq (c : Cfg) {w : CfgWrite} (hw : ∀ v, w ≠ .variant v) : (c.write w).variant = c.variant := by
  cases w with
  | variant v => exact absurd rfl (hw v)
  | _ => rfl

/-- Every move of another agent keeps the control invariant. -/
theorem OutsideTrans.keeps_control (h : OutsideTrans s t) (hi : ControlInv s) : ControlInv t := by
  cases h with
  | interrupted | surroundings => exact hi.congr rfl
  | wrote c hs hv =>
    by_cases hc : ∀ v, c ≠ .variant v
    · exact hi.congr (by simp only [State.controlFields, Cfg.write_variant_eq s.cfg hc])
    · push Not at hc
      obtain ⟨v, hc⟩ := hc
      have hclosed := hv v hc
      constructor <;> simp [hs, hclosed, hi.phase_of_idle hs, hi.loop_of_idle hs, hi.fault_eq_none]

end

/-- Settles O57: reset, cancellation entry and every transition keep the control invariant. -/
theorem controlStaysCoherent : Obligations.ControlStaysCoherent := by
  intro s t hi hstep
  refine step_induction (J := ControlInv) hstep (fun _ => hi.congr rfl)
    (fun script => (controlInv_resetIn s.par (s.withScript script).env).congr rfl) (fun hdue => hi.enterCancel ?_)
    (fun _ hi h => h.keeps_control hi) (fun _ hi h => h.keeps_control hi)
  rcases (cancelDue_iff.1 hdue).2 with hs | ⟨-, hs, -⟩
  · simp [hs]
  · exact hs

end Sys2Proof.Machine
end

section
/-! PROOFS. The invariants of the cursor (O58) and of the buffers (O59): how each kind of transition leaves them. -/

namespace Sys2Proof.Machine

/-! ### Cursor and accumulator -/

/-- The fields the cursor invariant speaks of. -/
def State.cursorFields (s : State) : Config.Params × Cfg × Stage × Phase × CursorMode × Nat × List Byte × List Sample :=
  (s.par, s.cfg, s.stage, s.phase, s.mode, s.consumed, s.acc, s.samp)

section
variable {s t : State}

theorem CursorInv.congr (hi : CursorInv s) (h : t.cursorFields = s.cursorFields) : CursorInv t := by
  simp only [State.cursorFields, Prod.mk.injEq] at h
  obtain ⟨hpar, hcfg, hstage, hphase, hmode, hconsumed, hacc, hsamp⟩ := h
  obtain ⟨h1, h2, h3, h4, h5⟩ := hi
  constructor <;> simpa only [CursorAtRest, hpar, hcfg, hstage, hphase, hmode, hconsumed, hacc, hsamp]

/-- A cursor at rest is coherent wherever no acquisition is under way. -/
theorem cursorInv_of_rest (hrest : CursorAtRest s) (h : s.stage = .acquire → s.phase = .start) : CursorInv s where
  rests _ := hrest
  variantA hs hp := by simp [h hs] at hp
  variantB hs hp := by simp [h hs] at hp
  variantC hs hp := by simp [h hs] at hp
  preambleA hs hp := by simp [h hs] at hp

/-- ACQUIRE_A is about to write its request: nothing is counted yet. -/
theorem cursorInv_of_preambleA {c : Word} (hp : s.phase = .write) (hrest : CursorAtRest s) (hsamp : s.samp = [])
    (hc : s.cfg.count = some c) (hcap : c.toNat ≤ s.par.sampCap) : CursorInv s where
  rests _ := hrest
  variantA _ hp' := by simp [hp] at hp'
  variantB _ hp' := by simp [hp] at hp'
  variantC _ hp' := by simp [hp] at hp'
  preambleA _ _ := ⟨hsamp, c, hc, hcap⟩

/-- An element read of Variant A is in progress: `cur.consumed` counts four bytes for each sample kept. -/
theorem cursorInv_of_variantA {c : Word} (hs : s.stage = .acquire) (hp : s.phase = .wait)
    (hv : s.cfg.variant = some 0) (hmode : s.mode = .searchingHeader) (hacc : s.acc = [])
    (hconsumed : s.consumed = 4 * s.samp.length) (hc : s.cfg.count = some c) (hle : s.samp.length ≤ c.toNat)
    (hcap : c.toNat ≤ s.par.sampCap) : CursorInv s where
  rests h := absurd ⟨hs, hp⟩ h
  variantA _ _ _ := ⟨hmode, hacc, hconsumed, c, hc, hle, hcap⟩
  variantB _ _ hv' := by simp [hv] at hv'
  variantC _ _ hv' := by simp [hv] at hv'
  preambleA _ hp' := by simp [hp] at hp'

/-- A read of Variant B is in progress. -/
theorem cursorInv_of_variantB (hs : s.stage = .acquire) (hp : s.phase = .wait) (hv : s.cfg.variant = some 1)
    (hconsumed : s.consumed = 0) (hacc : s.acc = []) (hm : s.cfg.headerMarker ≠ none) : CursorInv s where
  rests h := absurd ⟨hs, hp⟩ h
  variantA _ _ hv' := by simp [hv] at hv'
  variantB _ _ _ := ⟨hconsumed, hacc, hm⟩
  variantC _ _ hv' := by simp [hv] at hv'
  preambleA _ hp' := by simp [hp] at hp'

/-- A receive of Variant C is in progress: `cur.consumed` counts the accumulated bytes, fewer than a frame. -/
theorem cursorInv_of_variantC (hs : s.stage = .acquire) (hp : s.phase = .wait) (hv : s.cfg.variant = some 2)
    (hmode : s.mode = .searchingHeader) (hlt : s.acc.length < s.par.frameBytes)
    (hconsumed : s.consumed = s.acc.length) : CursorInv s where
  rests h := absurd ⟨hs, hp⟩ h
  variantA _ _ hv' := by simp [hv] at hv'
  variantB _ _ hv' := by simp [hv] at hv'
  variantC _ _ _ := ⟨hmode, hlt, hconsumed⟩
  preambleA _ hp' := by simp [hp] at hp'

/-- What the element read in progress has counted: the element index is the number of samples kept, at most `C`. -/
theorem CursorInv.elementIndex_eq (hi : CursorInv s) (hs : s.stage = .acquire) (hp : s.phase = .wait)
    (hv : s.cfg.variant = some 0) : s.elementIndex = s.samp.length ∧ s.samp.length ≤ s.requestedCount := by
  obtain ⟨-, -, hconsumed, c, hc, hle, -⟩ := hi.variantA hs hp hv
  refine ⟨?_, by simpa [State.requestedCount, hc] using hle⟩
  rw [State.elementIndex, hconsumed]
  omega

/-- Every transition of the core keeps the cursor invariant. -/
theorem CoreTrans.keeps_cursor (h : CoreTrans s t) (hi : CursorInv s) : CursorInv t := by
  cases h with
  | stay => exact hi
  | noise => exact hi.congr rfl
  | opened _ hs | closed hs => exact cursorInv_of_rest (hi.rests (by simp [hs])) (by simp [hs])
  | accepted _ hs | ran hs => exact cursorInv_of_rest (hi.rests (by simp [hs])) fun _ => rfl
  | analyzed _ _ hs | delivered hs => exact cursorInv_of_rest (hi.rests (by simp [hs])) fun _ => rfl
  | extracted _ _ hs =>
    have hrest : CursorAtRest s := hi.rests (by simp [hs])
    exact cursorInv_of_rest (by simpa [CursorAtRest] using hrest) (by simp)
  | decoded hs =>
    rw [decodeFrame_eq]
    exact cursorInv_of_rest (hi.rests (by simp [hs])) fun _ => rfl
  | offered hs => exact cursorInv_of_rest (hi.rests (by simp [hs])) (by simp [hs])
  | idleFault | variantFault | countFault | markerFault | decodeFault | analyzeFault | extractFault | handoffFault
  | insufficient | cancelled =>
    exact cursorInv_of_rest ⟨rfl, rfl, rfl⟩ fun _ => rfl
  | startA c _ hp _ hc hl =>
    obtain ⟨hmode, -, hacc⟩ := hi.rests (by simp [hp])
    exact cursorInv_of_preambleA rfl ⟨hmode, rfl, hacc⟩ rfl hc hl
  | requested hs hp hv =>
    obtain ⟨hmode, hconsumed, hacc⟩ := hi.rests (by simp [hp])
    obtain ⟨hsamp, c, hc, hcap⟩ := hi.preambleA hs hp
    exact cursorInv_of_variantA hs rfl hv hmode hacc (by simpa [hsamp] using hconsumed) hc (by simp [hsamp]) hcap
  | startB m hs hp hv hm =>
    obtain ⟨-, hconsumed, hacc⟩ := hi.rests (by simp [hp])
    exact cursorInv_of_variantB hs rfl hv hconsumed hacc (by simp [hm])
  | startC hs hp hv =>
    obtain ⟨hmode, hconsumed, -⟩ := hi.rests (by simp [hp])
    exact cursorInv_of_variantC hs rfl hv hmode (frameBytes_pos s.par) hconsumed
  | marker b hs hp hv =>
    obtain ⟨hconsumed, hacc, hm⟩ := hi.variantB hs hp hv
    exact cursorInv_of_variantB hs hp hv hconsumed hacc hm
  | short len hs hp hv =>
    obtain ⟨-, hacc, hm⟩ := hi.variantB hs hp hv
    exact cursorInv_of_variantB hs hp hv rfl hacc hm
  | payload hs hp hv =>
    obtain ⟨-, hacc, -⟩ := hi.variantB hs hp hv
    exact cursorInv_of_rest ⟨rfl, rfl, hacc⟩ fun _ => rfl
  | gathered d hs hp hv _ hl =>
    obtain ⟨hmode, -, -⟩ := hi.variantC hs hp hv
    exact cursorInv_of_variantC hs hp hv hmode hl (min_eq_left hl.le)
  | filled => exact cursorInv_of_rest ⟨rfl, rfl, rfl⟩ fun _ => rfl
  | element u hs hp hv hk =>
    obtain ⟨hmode, hacc, hconsumed, c, hc, -, hcap⟩ := hi.variantA hs hp hv
    obtain ⟨hindex, -⟩ := hi.elementIndex_eq hs hp hv
    have hlt : s.samp.length < c.toNat := by simpa [hindex, State.requestedCount, hc] using hk
    refine cursorInv_of_variantA hs hp hv hmode hacc ?_ hc ?_ hcap
    · simp [putI32, State.pushSample, hconsumed, mul_add]
    · simpa [putI32, State.pushSample] using hlt
  | trailer u hs hp hv =>
    obtain ⟨hmode, hacc, -⟩ := hi.variantA hs hp hv
    exact cursorInv_of_rest ⟨hmode, rfl, hacc⟩ fun _ => rfl

/-- Every move of another agent keeps the cursor invariant. -/
theorem OutsideTrans.keeps_cursor (h : OutsideTrans s t) (hi : CursorInv s) : CursorInv t := by
  cases h with
  | interrupted | surroundings => exact hi.congr rfl
  | wrote c hs => exact cursorInv_of_rest (hi.rests (by simp [hs])) (by simp [hs])

end

/-- Settles O58: reset and cancellation entry put the cursor at rest, and every transition keeps it coherent. -/
theorem cursorStaysCoherent : Obligations.CursorStaysCoherent := by
  intro s t hi hstep
  exact step_induction (J := CursorInv) hstep (fun _ => hi.congr rfl)
    (fun _ => cursorInv_of_rest ⟨rfl, rfl, rfl⟩ fun _ => rfl)
    (fun _ => cursorInv_of_rest ⟨rfl, rfl, rfl⟩ fun _ => rfl) (fun _ hi h => h.keeps_cursor hi)
    (fun _ hi h => h.keeps_cursor hi)

/-! ### Buffers -/

/-- The fields the buffer invariant speaks of, but for stage and phase. -/
def State.bufferFields (s : State) : Config.Params × (List Byte × Bool) × (List Sample × Nat × Bool) × (Int × Bool) ×
    (List Mag × List Freq × Bool) × (List Peak × Nat × Bool) :=
  (s.par, (s.raw, s.rawValid), (s.samp, s.sampLen, s.sampValid), (s.trailing, s.trailingValid),
    (s.mag, s.bin, s.specValid), (s.peaks, s.peakCount, s.peakValid))

section
variable {s t : State}

theorem BufferInv.congr (hi : BufferInv s) (h : t.bufferFields = s.bufferFields)
    (hclear : t.stage = .acquire → t.phase ≠ .start → s.stage = .acquire ∧ s.phase ≠ .start) : BufferInv t := by
  simp only [State.bufferFields, Prod.mk.injEq] at h
  obtain ⟨hpar, ⟨hraw, hrawValid⟩, ⟨hsamp, hsampLen, hsampValid⟩, ⟨htrailing, htrailingValid⟩,
    ⟨hmag, hbin, hspecValid⟩, hpeaks, hpeakCount, hpeakValid⟩ := h
  obtain ⟨h1, h2, h3, h4, h5, h6, h7⟩ := hi
  constructor
  case clearing =>
    intro hs hp
    obtain ⟨hs', hp'⟩ := hclear hs hp
    simpa only [hrawValid, hsampValid, htrailingValid, hspecValid, hpeakValid] using h1 hs' hp'
  all_goals
    simpa only [hpar, hraw, hrawValid, hsamp, hsampLen, hsampValid, htrailing, hmag, hbin, hspecValid, hpeaks,
      hpeakCount, hpeakValid]

/-- With no valid buffer only the ranges of the stored numbers are left to hold. -/
theorem bufferInv_of_invalid (hclear : s.stage = .acquire → s.trailingValid = false) (hraw : s.rawValid = false)
    (hsamp : s.sampValid = false) (hspec : s.specValid = false) (hpeak : s.peakValid = false)
    (hrange : ∀ x ∈ s.samp, sampleInRange x) (htrailing : -2 ^ 31 ≤ s.trailing ∧ s.trailing < 2 ^ 31) :
    BufferInv s where
  clearing hs _ := ⟨hraw, hsamp, hclear hs, hspec, hpeak⟩
  raw := by simp [hraw]
  samp := by simp [hsamp]
  sampleRange := hrange
  trailingRange := htrailing
  spec := by simp [hspec]
  peaks := by simp [hpeak]

theorem sampleInRange_i32_sext32 (u : Word) : sampleInRange (.i32 (sext32 u)) :=
  sext32_range u

theorem BufferInv.decoded (hi : BufferInv s) (hraw : s.rawValid = true) : BufferInv (State.finishStage .analyze
    { decodeFrame s with sampLen := s.par.N, sampValid := true, rawValid := false }) := by
  have hwords : (elementWords (s.raw.take s.par.frameBytes)).length = s.par.N := by
    refine elementWords_length _ _ ?_
    rw [List.take_of_length_le (hi.raw hraw).le, hi.raw hraw, Config.Params.frameBytes, mul_comm]
  rw [decodeFrame_eq]
  constructor
  case clearing => simp
  case raw => simp
  case samp => simp [hwords]
  case sampleRange => simp [sampleInRange]
  case trailingRange => simpa using hi.trailingRange
  case spec => simpa using hi.spec
  case peaks => simpa using hi.peaks

theorem BufferInv.analyzed (hi : BufferInv s) (fs : Rat) (w : BitVec 1) (hcheck : analyzeCheck s = none) :
    BufferInv ((analyzed fs w s).finishStage .extract) := by
  obtain ⟨hvalid, hlen, -⟩ := analyzeCheck_none hcheck
  have hmag := analyzed_mag fs w s ((hi.samp hvalid).trans hlen)
  constructor
  case clearing => simp
  case raw => simpa using hi.raw
  case samp => simpa using hi.samp
  case sampleRange => simpa using hi.sampleRange
  case trailingRange => simpa using hi.trailingRange
  case spec => simpa using hmag
  case peaks => simpa using hi.peaks

/-- A survivor is an interior bin. -/
theorem survivors_interior {p : Config.Params} {frac : Word} {d : Nat} {m : List Mag} {i : Nat}
    (h : i ∈ survivors p frac d m) : 1 ≤ i ∧ i ≤ p.K - 1 := by
  obtain ⟨hlow, hhigh, -⟩ := mem_candidates.1 (List.mem_filter.1 (survivors_qualify h)).1
  exact ⟨hlow, Nat.le_sub_of_add_le hhigh⟩

theorem BufferInv.extracted (hi : BufferInv s) (f : Word) (d : Nat) (hvalid : s.specValid = true) :
    BufferInv ((extracted f d s).finishStage .handoff) := by
  obtain ⟨hmag, -, hlegal⟩ := hi.spec hvalid
  have hidx := extracted_peaks_map_idx f d s
  rw [extracted_peaks] at hidx
  constructor
  case clearing => simp
  case raw => simpa using hi.raw
  case samp => simpa using hi.samp
  case sampleRange => simpa using hi.sampleRange
  case trailingRange => simpa using hi.trailingRange
  case spec => simpa using hi.spec
  case peaks =>
    simp only [State.finishStage_peaks, State.finishStage_peakCount, State.finishStage_par, extracted_peaks,
      extracted_peakCount, extracted_par, List.length_map, hidx, List.forall_mem_map]
    exact fun _ => ⟨trivial, survivors_length_le hmag hlegal, survivors_sorted _ _ _ _,
      fun _ hi => survivors_interior hi⟩

theorem BufferInv.delivered (hi : BufferInv s) : BufferInv (s.deliver.finishStage .acquire) where
  clearing _ hp := absurd rfl hp
  raw := hi.raw
  samp := nofun
  sampleRange := hi.sampleRange
  trailingRange := hi.trailingRange
  spec := nofun
  peaks := nofun

/-- A frame of the right length becomes `RAW`. -/
theorem BufferInv.emitFrame {p : List Byte} (hi : BufferInv s) (hp : p.length = s.par.frameBytes) :
    BufferInv (s.emitFrame p) where
  clearing _ hp := absurd rfl hp
  raw _ := hp
  samp := hi.samp
  sampleRange := hi.sampleRange
  trailingRange := hi.trailingRange
  spec := hi.spec
  peaks := hi.peaks

/-- The sample that was read is in range, and no buffer is valid while the acquisition is under way. -/
theorem BufferInv.element (hi : BufferInv s) (u : Word) (hs : s.stage = .acquire) (hp : s.phase = .wait) (k : Nat) :
    BufferInv (State.examine { putI32 u (s.serAdvance 4) with consumed := k }) := by
  obtain ⟨hraw, hsamp, htrailing, hspec, hpeak⟩ := hi.clearing hs (by simp [hp])
  refine bufferInv_of_invalid (fun _ => htrailing) hraw hsamp hspec hpeak (fun x hx => ?_) hi.trailingRange
  rcases List.mem_append.1 hx with hx | hx
  · exact hi.sampleRange x hx
  · rw [List.mem_singleton.1 hx]
    exact sampleInRange_i32_sext32 u

theorem BufferInv.trailer (hi : BufferInv s) (hcursor : CursorInv s) (u : Word) (hs : s.stage = .acquire)
    (hp : s.phase = .wait) (hv : s.cfg.variant = some 0) (hk : s.requestedCount ≤ s.elementIndex) :
    BufferInv (State.finishStage .analyze { s.serAdvance 4 with
      trailing := sext32 u, sampLen := s.requestedCount, sampValid := true, trailingValid := true,
      consumed := 0 }) := by
  obtain ⟨hindex, hle⟩ := hcursor.elementIndex_eq hs hp hv
  exact
    { clearing := fun _ hp => absurd rfl hp
      raw := hi.raw
      samp := fun _ => hle.antisymm (hindex ▸ hk)
      sampleRange := hi.sampleRange
      trailingRange := sext32_range u
      spec := hi.spec
      peaks := hi.peaks }

/-- Every transition of the core keeps the buffer invariant, where the cursor counts what was received. -/
theorem CoreTrans.keeps_buffer (h : CoreTrans s t) (hcursor : CursorInv s) (hi : BufferInv s) : BufferInv t := by
  cases h with
  | stay => exact hi
  | opened | closed | marker | noise | short | gathered => exact hi.congr rfl fun hs hp => ⟨hs, hp⟩
  | accepted | ran | idleFault | variantFault | countFault | markerFault | decodeFault | analyzeFault | extractFault
  | handoffFault | insufficient => exact hi.congr rfl fun _ hp => absurd rfl hp
  | requested hs hp => exact hi.congr rfl fun _ _ => ⟨hs, by simp [hp]⟩
  | offered hs => exact hi.congr rfl fun hs' => by simp [hs] at hs'
  | startA => exact bufferInv_of_invalid (fun _ => rfl) rfl rfl rfl rfl nofun hi.trailingRange
  | startB | startC => exact bufferInv_of_invalid (fun _ => rfl) rfl rfl rfl rfl hi.sampleRange hi.trailingRange
  | cancelled => exact bufferInv_of_invalid nofun rfl rfl rfl rfl hi.sampleRange hi.trailingRange
  | decoded _ hr => exact hi.decoded hr
  | analyzed fs w _ hc => exact hi.analyzed fs w hc
  | extracted f d _ hv => exact hi.extracted f d.toNat hv
  | delivered => exact hi.delivered
  | payload _ _ _ _ hl =>
    refine .emitFrame (hi.congr rfl fun hs hp => ⟨hs, hp⟩) (serBytes_length (n := s.par.frameBytes) ?_)
    exact serMayReturn_iff.2 ⟨le_rfl, hl⟩
  | filled d _ _ _ _ hl =>
    exact .emitFrame (hi.congr rfl fun hs hp => ⟨hs, hp⟩) (List.length_take_of_le hl)
  | element u hs hp => exact hi.element u hs hp _
  | trailer u hs hp hv hk => exact hi.trailer hcursor u hs hp hv hk

/-- No move of another agent touches a buffer, a valid bit or the place in the operation. -/
theorem OutsideTrans.keeps_buffer (h : OutsideTrans s t) (hi : BufferInv s) : BufferInv t := by
  cases h <;> exact hi.congr rfl fun hs hp => ⟨hs, hp⟩

end

/-- Settles O59: the cursor invariant is needed where the response of Variant A completes. -/
theorem validBuffersHoldWhatTheyShould : Obligations.ValidBuffersHoldWhatTheyShould := by
  intro s t _ hcursor hi hstep
  refine step_induction (J := fun u => CursorInv u ∧ BufferInv u) hstep ?_ ?_ ?_ ?_ ?_
  · exact fun _ => ⟨hcursor.congr rfl, hi.congr rfl fun hs hp => ⟨hs, hp⟩⟩
  · exact fun _ => bufferInv_of_invalid nofun rfl rfl rfl rfl nofun (by simp)
  · exact fun _ => bufferInv_of_invalid nofun rfl rfl rfl rfl hi.sampleRange hi.trailingRange
  · exact fun _ ⟨hcursor, hi⟩ h => h.keeps_buffer hcursor hi
  · exact fun _ ⟨_, hi⟩ h => h.keeps_buffer hi

end Sys2Proof.Machine
end

section
/-! PROOFS. The invariants of the loop and of the marker, and all invariants together (O56, O60). -/

namespace Sys2Proof.Machine

/-! ### The loop -/

/-- The buffers that stage `st` of a RUN loop works on are there (R208). -/
def State.ReadyFor (s : State) : Stage → Prop
  | .decode => s.rawValid = true
  | .analyze => s.sampValid = true ∧ s.sampLen = s.par.N
  | .extract => s.sampValid = true ∧ s.specValid = true
  | .handoff => s.sampValid = true ∧ s.specValid = true ∧ s.peakValid = true
  | .idle | .acquire | .stopped | .faulted => True

section
variable {s t : State}

theorem loopInv_iff : LoopInv s ↔ (s.loop = true → runCheck s = none ∧ s.ReadyFor s.stage) := by
  constructor
  · intro hi hloop
    refine ⟨hi.checked hloop, ?_⟩
    cases hs : s.stage with
    | decode => exact hi.decode hloop hs
    | analyze => exact hi.analyze hloop hs
    | extract => exact hi.extract hloop hs
    | handoff => exact hi.handoff hloop hs
    | idle | acquire | stopped | faulted => trivial
  · intro h
    exact
      { checked := fun hloop => (h hloop).1
        decode := fun hloop hs => by simpa [hs, State.ReadyFor] using (h hloop).2
        analyze := fun hloop hs => by simpa [hs, State.ReadyFor] using (h hloop).2
        extract := fun hloop hs => by simpa [hs, State.ReadyFor] using (h hloop).2
        handoff := fun hloop hs => by simpa [hs, State.ReadyFor] using (h hloop).2 }

theorem loopInv_of_not_loop (h : s.loop = false) : LoopInv s :=
  loopInv_iff.2 fun hloop => absurd hloop (by simp [h])

theorem loopInv_finishStage {st : Stage} (hcheck : s.loop = true → runCheck s = none)
    (hready : s.loop = true → s.ReadyFor st) : LoopInv (s.finishStage st) := by
  refine loopInv_iff.2 fun (hloop : s.loop = true) => ⟨hcheck hloop, ?_⟩
  have hstage : (s.finishStage st).stage = st := by simp [hloop]
  have hbuffers : s.ReadyFor st := hready hloop
  rw [hstage]
  cases st <;> exact hbuffers

/-- The fields the loop invariant speaks of. -/
def State.loopFields (s : State) : Config.Params × Cfg × Bool × Stage × Bool × Bool × Nat × Bool × Bool :=
  (s.par, s.cfg, s.loop, s.stage, s.rawValid, s.sampValid, s.sampLen, s.specValid, s.peakValid)

theorem runCheck_congr (hpar : t.par = s.par) (hcfg : t.cfg = s.cfg) : runCheck t = runCheck s := by
  simp only [runCheck, hpar, hcfg]

theorem LoopInv.congr (hi : LoopInv s) (h : t.loopFields = s.loopFields) : LoopInv t := by
  simp only [State.loopFields, Prod.mk.injEq] at h
  obtain ⟨hpar, hcfg, hloop, hstage, hraw, hsamp, hlen, hspec, hpeak⟩ := h
  obtain ⟨h1, h2, h3, h4, h5⟩ := hi
  constructor <;> simpa only [runCheck_congr hpar hcfg, hpar, hloop, hstage, hraw, hsamp, hlen, hspec, hpeak]

/-- With the configuration checked for Variant A, the count asked for is `N` (R208). -/
theorem requestedCount_of_runCheck (h : runCheck s = none) (hv : s.cfg.variant = some 0) :
    s.requestedCount = s.par.N := by
  obtain ⟨v, -, -, -, -, hv', -, -, -, -, -, -, -, -, hcount, -⟩ := runCheck_none h
  obtain ⟨c, hc, -, hN⟩ := hcount (Option.some.inj (hv'.symm.trans hv))
  simp [State.requestedCount, hc, hN]

/-- Every transition of the core keeps the loop invariant. -/
theorem CoreTrans.keeps_loop (h : CoreTrans s t) (hcontrol : ControlInv s) (hi : LoopInv s) : LoopInv t := by
  cases h with
  | stay => exact hi
  | opened | closed | requested | offered | marker | noise | short | gathered | element => exact hi.congr rfl
  | accepted _ hs => exact loopInv_of_not_loop (hcontrol.loop_of_idle hs)
  | ran _ hr => exact loopInv_iff.2 fun _ => ⟨hr, trivial⟩
  | startA _ hs | startB _ hs | startC hs =>
    refine loopInv_iff.2 fun hloop => ⟨hi.checked hloop, ?_⟩
    simp [State.ReadyFor, hs]
  | decoded =>
    rw [decodeFrame_eq]
    exact loopInv_finishStage hi.checked fun _ => ⟨rfl, rfl⟩
  | analyzed _ _ hs => exact loopInv_finishStage hi.checked fun hloop => ⟨(hi.analyze hloop hs).1, rfl⟩
  | extracted _ _ hs hv => exact loopInv_finishStage hi.checked fun hloop => ⟨(hi.extract hloop hs).1, hv, rfl⟩
  | delivered => exact loopInv_finishStage hi.checked fun _ => trivial
  | payload | filled => exact loopInv_finishStage hi.checked fun _ => rfl
  | trailer _ _ _ hv =>
    exact loopInv_finishStage hi.checked fun hloop => ⟨rfl, requestedCount_of_runCheck (hi.checked hloop) hv⟩
  | idleFault | variantFault | countFault | markerFault | decodeFault | analyzeFault | extractFault | handoffFault
  | insufficient | cancelled => exact loopInv_of_not_loop rfl

/-- Every move of another agent keeps the loop invariant: `CFG` is written in `IDLE` only. -/
theorem OutsideTrans.keeps_loop (h : OutsideTrans s t) (hcontrol : ControlInv s) (hi : LoopInv s) : LoopInv t := by
  cases h with
  | interrupted | surroundings => exact hi.congr rfl
  | wrote _ hs => exact loopInv_of_not_loop (hcontrol.loop_of_idle hs)

/-! ### The marker -/

/-- Outside `COLLECTING_PAYLOAD` the marker invariant asks nothing. -/
theorem markerInv_of_searching (h : s.stage = .acquire → s.phase = .wait → s.cfg.variant = some 1 →
    s.mode = .searchingHeader) : MarkerInv s :=
  fun hs hp hv hmode => by simp [h hs hp hv] at hmode

/-- Every transition of the core keeps the marker invariant: only the marker byte begins a payload. -/
theorem CoreTrans.keeps_marker (h : CoreTrans s t) (hcursor : CursorInv s) (hi : MarkerInv s) : MarkerInv t := by
  cases h with
  | stay => exact hi
  | opened _ hs | closed hs | offered hs => exact markerInv_of_searching fun hs' => by simp [hs] at hs'
  | accepted | ran | idleFault | variantFault | countFault | markerFault | decodeFault | analyzeFault | extractFault
  | handoffFault | insufficient | cancelled | startA | decoded | analyzed | extracted | delivered | payload | filled
  | trailer => exact markerInv_of_searching fun _ hp => by cases hp
  | startB _ _ hp => exact markerInv_of_searching fun _ _ _ => (hcursor.rests (by simp [hp])).1
  | requested _ _ hv | startC _ _ hv | gathered _ _ _ hv | element _ _ _ hv =>
    exact markerInv_of_searching fun _ _ hv' => by simp [putI32, hv] at hv'
  | short => exact markerInv_of_searching fun _ _ _ => rfl
  | noise _ _ _ _ hmode => exact markerInv_of_searching fun _ _ _ => hmode
  | marker b _ _ _ hm _ hb => exact fun _ _ _ _ => ⟨b, hm, Nat.succ_pos _, hb⟩

/-- Every move of another agent keeps the marker invariant: bytes are placed only after those already there. -/
theorem OutsideTrans.keeps_marker (h : OutsideTrans s t) (hi : MarkerInv s) : MarkerInv t := by
  cases h with
  | interrupted => exact hi
  | wrote _ hs => exact markerInv_of_searching fun hs' => by simp [hs] at hs'
  | surroundings e hpos _ _ _ hin =>
    intro hs hp hv hmode
    obtain ⟨m, hm, hlt, hb⟩ := hi hs hp hv hmode
    obtain ⟨bs, hbs⟩ := hin
    refine ⟨m, hm, hpos ▸ hlt, ?_⟩
    change e.serIn[e.serPos - 1]? = some m
    rw [hbs, hpos, List.getElem?_append_left (List.getElem?_eq_some_iff.1 hb).1, hb]

/-! ### All of them -/

theorem Inv.withScript (hi : Inv s) (script : List Move) : Inv (s.withScript script) where
  control := hi.control.congr rfl
  cursor := hi.cursor.congr rfl
  marker := hi.marker
  buffer := hi.buffer.congr rfl fun hs hp => ⟨hs, hp⟩
  loop := hi.loop.congr rfl

theorem inv_resetIn (p : Config.Params) (e : Env) : Inv (State.resetIn p e) where
  control := controlInv_resetIn p e
  cursor := cursorInv_of_rest ⟨rfl, rfl, rfl⟩ fun _ => rfl
  marker := markerInv_of_searching fun _ _ _ => rfl
  buffer := bufferInv_of_invalid nofun rfl rfl rfl rfl nofun (by simp [State.resetIn])
  loop := loopInv_of_not_loop rfl

end

/-- Settles O56: after reset nothing is valid, nothing runs and the cursor is at rest. -/
theorem invariantsHoldAtReset : Obligations.InvariantsHoldAtReset :=
  inv_resetIn

theorem step_keeps_marker {s t : State} (hi : Inv s) (hstep : step s = .next t) : MarkerInv t :=
  step_induction (J := Inv) hstep hi.withScript (fun _ => markerInv_of_searching fun _ _ _ => rfl)
    (fun _ => markerInv_of_searching fun _ _ _ => rfl) (fun _ hi h => h.keeps_marker hi.cursor hi.marker)
    fun _ hi h => h.keeps_marker hi.marker

theorem step_keeps_loop {s t : State} (hi : Inv s) (hstep : step s = .next t) : LoopInv t :=
  step_induction (J := Inv) hstep hi.withScript (fun _ => loopInv_of_not_loop rfl) (fun _ => loopInv_of_not_loop rfl)
    (fun _ hi h => h.keeps_loop hi.control hi.loop) fun _ hi h => h.keeps_loop hi.control hi.loop

/-- Settles O60, from the statements about each invariant. -/
theorem everyStepKeepsTheInvariants : Obligations.EveryStepKeepsTheInvariants := by
  intro s t hi hstep
  exact
    { control := controlStaysCoherent s t hi.control hstep
      cursor := cursorStaysCoherent s t hi.cursor hstep
      marker := step_keeps_marker hi hstep
      buffer := validBuffersHoldWhatTheyShould s t hi.control hi.cursor hi.buffer hstep
      loop := step_keeps_loop hi hstep }

end Sys2Proof.Machine
end

section
/-! PROOFS. Encoding and decoding (30_encoding.md): the round trip, the token table, elements and requests. -/

namespace Sys2Proof

/-! ### The round trip -/

theorem decode_response_wordBytes (p : Config.Params) (u : Word) :
    decode p .response (wordBytes u) = some (.aElem u) := by
  simp [decode, oneWord_wordBytes]

theorem decode_response_short (p : Config.Params) {bs : List Byte} (h : bs.length < 4) :
    decode p .response bs = some (.aShort bs) := by
  have hnone : oneWord bs = none := by
    cases hw : oneWord bs with
    | none => rfl
    | some u => exact absurd (Machine.oneWord_eq_some hw) h.ne
  simp [decode, hnone, h]

theorem decode_collecting_payload {p : Config.Params} {bs : List Byte} (h : bs.length = p.frameBytes) :
    decode p .collecting bs = some (.bPayload bs) := by
  simp [decode, h]

theorem decode_searching_noise (p : Config.Params) {m b : Byte} (h : b ≠ m) :
    decode p (.searching m) [b] = some (.bNoise b) := by
  simp [decode, h]

theorem decode_datagram {p : Config.Params} {d : List Byte} (h : d.length ≤ p.dgramMax) :
    decode p .datagram d = some (.cDgram d) := by
  simp [decode, h]

/-- Settles O1, row by row of the table. -/
theorem decodeOfEncodeIsIdentity : Obligations.DecodeOfEncodeIsIdentity := by
  intro p m i hwf
  cases i with
  | nop | openTransport | closeTransport | acquireA | nextframeB | nextframeC | decodeF32 | analyze | extract | handoff
  | run | reservedB | reservedC | reservedD | reservedE | reservedF | bEmpty => rfl
  | decI32 u | elemF32 u | elemI32 u => simp [decode, Instr.context, encode, oneWord_wordBytes]
  | bMarker b =>
    have hb : b = m := by simpa [Instr.wellFormed] using hwf
    rw [hb]
    exact Machine.decode_searching_marker p m
  | bNoise b => exact decode_searching_noise p (by simpa [Instr.wellFormed, encode] using hwf)
  | bPayload bs => exact decode_collecting_payload (by simpa [Instr.wellFormed, encode] using hwf)
  | bShort bs => exact Machine.decode_collecting_short (by simpa [Instr.wellFormed, encode] using hwf)
  | cDgram d => exact decode_datagram (by simpa [Instr.wellFormed, encode] using hwf)
  | aElem u => exact decode_response_wordBytes p u
  | aShort bs => exact decode_response_short p (by simpa [Instr.wellFormed, encode] using hwf)

/-! ### The token table -/

/-- A command word decodes to a command or to a reserved word, which is read at the command port. -/
theorem decodeCommand_context {w : Byte} {i : Instr} (h : decodeCommand w = some i) (p : Config.Params) (m : Byte) :
    i.context m = .command ∧ i.wellFormed p m = true := by
  unfold decodeCommand at h
  split at h <;> cases h <;> exact ⟨rfl, rfl⟩

/-- The decoder gives an instruction of the context it reads in, one that can occur there. -/
theorem decode_context {p : Config.Params} {c : Context} {bs : List Byte} {i : Instr} (h : decode p c bs = some i) :
    ∃ m, i.context m = c ∧ i.wellFormed p m = true := by
  cases c with
  | command =>
    simp only [decode] at h
    split at h
    · exact ⟨0, decodeCommand_context h p 0⟩
    · cases h
  | searching marker =>
    refine ⟨marker, ?_⟩
    simp only [decode] at h
    split at h
    · cases h; exact ⟨rfl, rfl⟩
    · split_ifs at h with hb <;> cases h <;> simp [Instr.context, Instr.wellFormed, hb]
    · cases h
  | collecting =>
    simp only [decode] at h
    split_ifs at h with hlen hlt <;> cases h <;> simp [Instr.context, Instr.wellFormed, *]
  | response =>
    simp only [decode] at h
    split at h
    · cases h; exact ⟨0, rfl, rfl⟩
    · split_ifs at h with hlt
      cases h
      simp [Instr.context, Instr.wellFormed, hlt]
  | datagram =>
    simp only [decode] at h
    split_ifs at h with hle
    cases h
    simp [Instr.context, Instr.wellFormed, hle]
  | payloadElement | responseElement | micro =>
    obtain ⟨u, -, rfl⟩ := Option.map_eq_some_iff.1 h
    exact ⟨0, rfl, rfl⟩

/-- At most one byte, read in the header search, is always a token. -/
theorem exists_decode_searching (p : Config.Params) (m : Byte) {bs : List Byte} (h : bs.length ≤ 1) :
    ∃ i, decode p (.searching m) bs = some i := by
  match bs, h with
  | [], _ => exact ⟨.bEmpty, rfl⟩
  | [b], _ =>
    by_cases hb : b = m
    · exact ⟨.bMarker b, by simp [decode, hb]⟩
    · exact ⟨.bNoise b, decode_searching_noise p hb⟩

theorem exists_decode_collecting {p : Config.Params} {bs : List Byte} (h : bs.length ≤ p.frameBytes) :
    ∃ i, decode p .collecting bs = some i := by
  rcases h.eq_or_lt with h | h
  · exact ⟨_, decode_collecting_payload h⟩
  · exact ⟨_, Machine.decode_collecting_short h⟩

theorem exists_decode_response (p : Config.Params) {bs : List Byte} (h : bs.length ≤ 4) :
    ∃ i, decode p .response bs = some i := by
  rcases h.eq_or_lt with h | h
  · obtain ⟨u, hu⟩ := Machine.oneWord_of_length h
    exact ⟨.aElem u, by simp [decode, hu]⟩
  · exact ⟨_, decode_response_short p h⟩

/-- Settles O2: soundness by the encoder's uniqueness and `decode_context`, completeness by the reads there are. -/
theorem tokenTableIsCompleteAndSound : Obligations.TokenTableIsCompleteAndSound := by
  refine ⟨fun p c bs i h => ⟨(Laws.EncodeUnique.all i p c bs h).symm, decode_context h⟩, ?_⟩
  intro s c n len hrequest hmay
  have hle : (s.serBytes len).length ≤ n := by
    rw [Machine.serBytes_length hmay]
    exact (Machine.serMayReturn_iff.1 hmay).1
  obtain ⟨-, -, ⟨-, rfl, rfl⟩ | ⟨m, -, -, -, rfl, rfl⟩ | ⟨-, -, rfl, rfl⟩⟩ := Machine.serialRequest_cases hrequest
  · exact exists_decode_response s.par hle
  · exact exists_decode_searching s.par m hle
  · exact exists_decode_collecting hle

/-! ### Words written out -/

theorem decodeCommand_high {w : Byte} (h : 0x10 ≤ w.toNat) : decodeCommand w = none := by
  obtain ⟨k, hk⟩ := Nat.exists_eq_add_of_le' h
  simp [decodeCommand, hk]

/-- Settles O3: each word by running the decoder, with `N` and `DGRAM_MAX` only where a length is compared to them. -/
theorem writtenOutWordsDecode : Obligations.WrittenOutWordsDecode := by
  intro p
  have hframe : 8 ≤ p.frameBytes := Nat.mul_le_mul_right 4 (Machine.N_ge_two p)
  refine ⟨rfl, rfl, rfl, rfl, rfl, rfl, rfl, rfl, rfl, rfl, rfl, rfl, rfl, rfl, rfl, rfl,
    fun w hw => decodeCommand_high hw, rfl, rfl, rfl, fun hN => ?_, ?_, ?_, fun hmax => decode_datagram hmax, ?_,
    rfl, rfl, rfl, rfl, rfl⟩
  · exact decode_collecting_payload (by simp [Config.Params.frameBytes, hN])
  · exact Machine.decode_collecting_short (lt_of_lt_of_le (by decide) hframe)
  · exact Machine.decode_collecting_short (lt_of_lt_of_le (by decide) hframe)
  · exact decode_datagram (Nat.zero_le _)

/-! ### Elements -/

theorem toNat_append_eq_add {n k : Nat} (x : BitVec n) (y : BitVec k) :
    (x ++ y).toNat = x.toNat * 2 ^ k + y.toNat := by
  rw [BitVec.toNat_append, ← Nat.shiftLeft_add_eq_or_of_lt y.isLt, Nat.shiftLeft_eq]

theorem le32_toNat (b0 b1 b2 b3 : Byte) :
    (le32 b0 b1 b2 b3).toNat = b0.toNat + 2 ^ 8 * b1.toNat + 2 ^ 16 * b2.toNat + 2 ^ 24 * b3.toNat := by
  simp only [le32, toNat_append_eq_add]
  omega

/-- Settles O4: the bytes by the inverse of `le32`, the fields by their places in the word. -/
theorem elementsAreLittleEndian : Obligations.ElementsAreLittleEndian := by
  intro b0 b1 b2 b3 u
  obtain ⟨h0, h1, h2, h3⟩ : u.extractLsb' 0 8 = b0 ∧ u.extractLsb' 8 8 = b1 ∧ u.extractLsb' 16 8 = b2 ∧
      u.extractLsb' 24 8 = b3 := by simpa [wordBytes] using wordBytes_le32 b0 b1 b2 b3
  refine ⟨le32_toNat b0 b1 b2 b3, h0, h1, h2, h3, fun h => if_pos h, fun h => if_neg h.not_gt, ?_, ?_, ?_⟩
  · exact BitVec.msb_eq_decide u
  · simp [Machine.f32Exponent, BitVec.extractLsb'_toNat, Nat.shiftRight_eq_div_pow]
  · simp [Machine.f32Fraction, BitVec.extractLsb'_toNat]

/-! ### The request -/

namespace Machine

/-- With enough fuel the digits are those of the standard decimal representation, most significant first. -/
theorem decimalDigits_eq {fuel : Nat} :
    ∀ {n : Nat}, n ≠ 0 → n < fuel → decimalDigits fuel n = (Nat.digits 10 n).reverse := by
  induction fuel with
  | zero => intro n _ h; omega
  | succ fuel ih =>
    intro n hn hlt
    unfold decimalDigits
    split_ifs with h10
    · rw [Nat.digits_of_lt 10 n hn h10]
      rfl
    · rw [ih (by omega) (by omega), Nat.digits_def' (by decide) (Nat.pos_of_ne_zero hn), List.reverse_cons]

theorem exec_acquireA_write {s : State} {c : Word} (hstage : s.stage = .acquire) (hphase : s.phase = .write)
    (hcount : s.cfg.count = some c) : exec .acquireA s = .next { s with
      phase := .wait, examined := !s.cancelPending,
      env := { s.env with serOut := s.env.serOut ++ (request c.toNat ++ s.par.reqTerminator) } } := by
  simp [exec, execAcquireA, hstage, hphase, State.requestedCount, hcount, State.serWrite, State.examine]

/-- Settles O5: the digits by induction on the fuel, the transmit stream by the phase of ACQUIRE_A that writes it. -/
theorem requestIsShortestDecimal : Obligations.RequestIsShortestDecimal := by
  refine ⟨rfl, rfl, fun c hc => ?_, fun s c => exec_acquireA_write⟩
  rw [request, decimalDigits_eq hc (Nat.lt_succ_self c)]

end Machine

end Sys2Proof
end

section
/-! PROOFS. Which move a step makes (O12, O13, O14), and what interrupt and reset have to say about it (O49 to O51). -/

namespace Sys2Proof.Machine

section
variable {s t : State}

/-! ### The move of a step -/

/-- With nobody outside moving and no cancellation due, a step is the core's own move (R200). -/
theorem step_eq_coreMove (hscript : s.env.script = []) (hdue : cancelDue s = false) : step s = coreMove s := by
  simp [step, advance, hscript, hdue]

/-- A cancellation that is due is taken before any move but reset (R233, R252). -/
theorem step_eq_enterCancel (hdue : cancelDue s = true) (hreset : ∀ rest, s.env.script ≠ .reset :: rest) :
    step s = .next s.enterCancel := by
  unfold step advance
  split
  · rename_i rest hscript
    exact absurd hscript (hreset rest)
  · simp [hdue]

/-- Which move a step made: reset, cancellation entry, the core's, or the one named first in the script. -/
theorem step_moves (h : step s = .next t) :
    (∃ rest, s.env.script = .reset :: rest) ∨ (cancelDue s = true ∧ t = s.enterCancel) ∨
      (s.env.script = [] ∧ coreMove s = .next t) ∨
      ∃ m rest, s.env.script = m :: rest ∧ m ≠ .reset ∧ agentMove m s.popMove = .next t := by
  by_cases hreset : ∃ rest, s.env.script = .reset :: rest
  · exact .inl hreset
  refine .inr ?_
  cases hdue : cancelDue s with
  | true =>
    rw [step_eq_enterCancel hdue fun rest hscript => hreset ⟨rest, hscript⟩] at h
    exact .inl ⟨rfl, (Host.Outcome.next.inj h).symm⟩
  | false =>
    refine .inr ?_
    cases hscript : s.env.script with
    | nil => exact .inl ⟨rfl, (step_eq_coreMove hscript hdue).symm.trans h⟩
    | cons m rest =>
      have hm : m ≠ .reset := fun hm => hreset ⟨rest, hm ▸ hscript⟩
      exact .inr ⟨m, rest, rfl, hm, (step_eq_agentMove hscript hm hdue).symm.trans h⟩

/-! ### Commands, tokens, stages -/

theorem commandMove_idle {w : Byte} {i : Instr} (hs : s.stage = .idle) (hi : decode s.par .command [w] = some i) :
    commandMove w s = exec i s := by
  simp [commandMove, hs, hi]

theorem dgramMove_token {d : List Byte} (hs : s.stage = .acquire) (hp : s.phase = .wait) (hv : s.cfg.variant = some 2)
    (hd : s.env.dgramIn[s.env.dgramPos]? = some d) (hmax : d.length ≤ s.par.dgramMax) :
    dgramMove s = exec (.cDgram d) s.dgramAdvance := by
  simp [dgramMove, blockedOnTransport_iff.2 ⟨hs, hp⟩, hv, State.nextDgram, hd, decode_datagram hmax]

/-- A blocked core takes the interrupt where one is latched, and waits otherwise (R233 (b), R246). -/
theorem coreMove_blocked (hs : s.stage = .acquire ∨ s.stage = .handoff) (hp : s.phase = .wait) :
    coreMove s = if s.cancelPending then .next s.enterCancel else .next s := by
  rcases hs with hs | hs <;> simp [coreMove, hs, blockedOnTransport, blockedOnSink, hp, waitMove]

theorem coreMove_acquire (hs : s.stage = .acquire) (hp : s.phase ≠ .wait) : coreMove s = acquisition s := by
  simp [coreMove, hs, blockedOnTransport, hp]

theorem coreMove_handoff (hs : s.stage = .handoff) (hp : s.phase ≠ .wait) : coreMove s = exec .handoff s := by
  simp [coreMove, hs, blockedOnSink, hp]

/-- In `IDLE` and after the end of a run the core has no move of its own. -/
theorem coreMove_resting (hs : s.stage = .idle ∨ s.stage = .stopped ∨ s.stage = .faulted) : coreMove s = .next s := by
  rcases hs with hs | hs | hs <;> simp [coreMove, hs]

end

/-- Settles O12: with no interrupt latched the host's move is made, and in `IDLE` the word is decoded and run. -/
theorem stepRunsTheCommand : Obligations.StepRunsTheCommand := by
  intro s w rest i hs hpending hscript hi
  calc step s
      = commandMove w s.popMove := step_eq_agentMove hscript (by simp) (cancelDue_of_not_pending hpending)
    _ = exec i s.popMove := commandMove_idle (s := s.popMove) hs hi

/-- Settles O13: the oracle's move is made, and what it returns is decoded in the context of the read. -/
theorem stepRunsTheToken : Obligations.StepRunsTheToken := by
  refine ⟨fun s c n len rest i hdue hscript hrequest hmay hi => step_eq_exec_token hdue hscript hrequest hmay hi, ?_⟩
  intro s d rest hdue hscript hs hp hv hd hmax
  calc step s
      = dgramMove s.popMove := step_eq_agentMove hscript (by simp) hdue
    _ = _ := dgramMove_token (s := s.popMove) hs hp hv hd hmax

/-- Settles O14: the step is the core's move, which is that of its stage. -/
theorem stepRunsTheStage : Obligations.StepRunsTheStage := by
  intro s hscript hdue
  rw [step_eq_coreMove hscript hdue]
  refine ⟨fun hs hp hv => ?_, fun hs hp hv => ?_, fun hs hp hv => ?_, fun hs => ?_, fun hs => ?_, fun hs => ?_,
    coreMove_handoff, fun hs hp hc => ?_, fun hs hp hc => ?_, coreMove_resting⟩
  · simp [coreMove_acquire hs hp, acquisition, hv]
  · simp [coreMove_acquire hs hp, acquisition, hv]
  · simp [coreMove_acquire hs hp, acquisition, hv]
  · simp [coreMove, hs]
  · simp [coreMove, hs]
  · simp [coreMove, hs]
  · simp [coreMove_blocked hs hp, hc]
  · simp [coreMove_blocked hs hp, hc]

/-! ### Interrupt and cancellation -/

theorem cancelDue_of_idle {s : State} (hs : s.stage = .idle) (hpending : s.cancelPending = true) : cancelDue s = true :=
  cancelDue_iff.2 ⟨hpending, .inl hs⟩

/-- Settles O49: when a cancellation is due, and that the step takes it before anyone moves. -/
theorem cancellationReleasesAndStops : Obligations.CancellationReleasesAndStops :=
  ⟨fun _ => cancelDue_of_idle, fun _ => step_eq_enterCancel⟩

section
variable {s t : State}

theorem CoreTrans.cancelPending_eq (h : CoreTrans s t) : t.cancelPending = s.cancelPending := by
  cases h with
  | decoded => simp [decodeFrame_eq]
  | _ => rfl

theorem OutsideTrans.cancelPending_of (h : OutsideTrans s t) (hs : s.cancelPending = true) :
    t.cancelPending = true := by
  cases h with
  | interrupted => rfl
  | wrote | surroundings => exact hs

end

/-- Settles O51: the interrupt's own move, and that no other move but reset clears what it latched. -/
theorem interruptStaysLatched : Obligations.InterruptStaysLatched := by
  constructor
  · intro s rest hdue hscript
    rw [step_eq_agentMove hscript (by simp) hdue, popMove_eq hscript]
    rfl
  · intro s t hstep hlatched hcleared
    obtain ⟨rest, hscript, -⟩ | ⟨-, rfl⟩ | ⟨script, htrans⟩ := step_trans hstep
    · exact ⟨rest, hscript⟩
    · exact absurd hlatched (by simpa using hcleared)
    · have ht : t.cancelPending = true :=
        htrans.elim (fun h => h.cancelPending_eq.trans hlatched) fun h => h.cancelPending_of hlatched
      exact absurd ht (by simp [hcleared])

/-! ### The end of a run -/

/-- The core's next step, left alone, ends the run: a cancellation is due, or the core is blocked with an interrupt
latched, or the run has ended already. -/
def State.EndsNext (s : State) : Prop :=
  (s.stage = .stopped ∨ s.stage = .faulted) ∨ cancelDue s = true ∨
    (s.stage = .acquire ∨ s.stage = .handoff) ∧ s.phase = .wait ∧ s.cancelPending = true

section
variable {s t : State}

theorem State.EndsNext.step (h : s.EndsNext) (hscript : s.env.script = []) :
    ∃ t, step s = .next t ∧ (t.stage = .stopped ∨ t.stage = .faulted) ∧ t.env.script = [] := by
  cases hdue : cancelDue s with
  | true => exact ⟨_, step_eq_enterCancel hdue (by simp [hscript]), .inl rfl, hscript⟩
  | false =>
    rw [step_eq_coreMove hscript hdue]
    rcases h with hs | hdue' | ⟨hs, hp, hpending⟩
    · exact ⟨s, coreMove_resting (.inr hs), hs, hscript⟩
    · simp [hdue] at hdue'
    · exact ⟨s.enterCancel, by simp [coreMove_blocked hs hp, hpending], .inl rfl, hscript⟩

/-- An examination point passed with the interrupt latched makes the cancellation due. -/
theorem cancelDue_examine (hpending : s.cancelPending = true) (hs : s.stage ≠ .stopped ∧ s.stage ≠ .faulted) :
    cancelDue s.examine = true :=
  cancelDue_iff.2 ⟨hpending, .inr ⟨hs.1, hs.2, by simp [hpending]⟩⟩

theorem cancelDue_finishStage {st : Stage} (hpending : s.cancelPending = true) (hst : st ≠ .stopped ∧ st ≠ .faulted) :
    cancelDue (s.finishStage st) = true := by
  refine cancelDue_examine hpending ?_
  cases s.loop <;> simp [hst]

/-- The core answers a next state in which the run has ended or ends with the next step, the script as it was. -/
def EndsBy (script : List Move) (r : Result) : Prop :=
  ∃ t, r = .next t ∧ t.EndsNext ∧ t.env.script = script

theorem endsBy_raiseFault (c : FaultCode) (s : State) : EndsBy s.env.script (raiseFault c s) :=
  ⟨s.enterFault c, rfl, .inl (.inr rfl), rfl⟩

theorem endsBy_finishStage {st : Stage} (hpending : s.cancelPending = true) (hst : st ≠ .stopped ∧ st ≠ .faulted) :
    EndsBy s.env.script (.next (s.finishStage st)) :=
  ⟨_, rfl, .inr (.inl (cancelDue_finishStage hpending hst)), rfl⟩

theorem endsBy_examine (hpending : s.cancelPending = true) (hs : s.stage ≠ .stopped ∧ s.stage ≠ .faulted) :
    EndsBy s.env.script (.next s.examine) :=
  ⟨_, rfl, .inr (.inl (cancelDue_examine hpending hs)), rfl⟩

theorem endsBy_block (hpending : s.cancelPending = true) (hs : s.stage = .acquire ∨ s.stage = .handoff) :
    EndsBy s.env.script (.next s.block) :=
  ⟨_, rfl, .inr (.inr ⟨hs, rfl, hpending⟩), rfl⟩

theorem execAcquireA_ends (hpending : s.cancelPending = true) (hs : s.stage = .acquire) (hp : s.phase ≠ .wait) :
    EndsBy s.env.script (execAcquireA s) := by
  simp only [execAcquireA, hs]
  cases hphase : s.phase with
  | start =>
    simp only
    split
    · exact endsBy_raiseFault _ s
    · split_ifs
      · exact endsBy_raiseFault _ s
      · exact endsBy_examine (s := { s.clearForAcquire.serFlush with samp := [], consumed := 0, phase := .write })
          hpending (by simp [hs])
  | write =>
    exact endsBy_examine (s := { s.serWrite (request s.requestedCount ++ s.par.reqTerminator) with phase := .wait })
      hpending (by simp [hs])
  | wait => exact absurd hphase hp

theorem execNextframeB_ends (hpending : s.cancelPending = true) (hs : s.stage = .acquire) (hp : s.phase = .start) :
    EndsBy s.env.script (execNextframeB s) := by
  simp only [execNextframeB, hs, hp]
  split
  · exact endsBy_raiseFault _ s
  · exact endsBy_block (s := s.clearForAcquire) hpending (.inl hs)

theorem execNextframeC_ends (hpending : s.cancelPending = true) (hs : s.stage = .acquire) (hp : s.phase = .start) :
    EndsBy s.env.script (execNextframeC s) := by
  simp only [execNextframeC, hs, hp]
  exact endsBy_block (s := { s.clearForAcquire with acc := [] }) hpending (.inl hs)

theorem acquisition_ends (hi : ControlInv s) (hpending : s.cancelPending = true) (hs : s.stage = .acquire)
    (hp : s.phase ≠ .wait) : EndsBy s.env.script (acquisition s) := by
  have hstart : s.cfg.variant ≠ some 0 → s.phase = .start := fun hv => by
    cases hphase : s.phase with
    | start => rfl
    | write => exact absurd (hi.preamble hphase).2 hv
    | wait => exact absurd hphase hp
  unfold acquisition
  split
  · exact execAcquireA_ends hpending hs hp
  · rename_i hv
    exact execNextframeB_ends hpending hs (hstart (by simp [hv]))
  · rename_i hv
    exact execNextframeC_ends hpending hs (hstart (by simp [hv]))
  · exact endsBy_raiseFault _ s

theorem execDecodeF32_ends (hpending : s.cancelPending = true) (hs : s.stage = .decode) :
    EndsBy s.env.script (execDecodeF32 s) := by
  simp only [execDecodeF32, hs]
  split_ifs
  · rw [decodeFrame_eq]
    exact endsBy_finishStage (s := { s with
      samp := (elementWords (s.raw.take s.par.frameBytes)).map .f32, sampLen := s.par.N, sampValid := true,
      rawValid := false }) hpending (by decide)
  · exact endsBy_raiseFault _ s

theorem execAnalyze_ends (hpending : s.cancelPending = true) (hs : s.stage = .analyze) :
    EndsBy s.env.script (execAnalyze s) := by
  simp only [execAnalyze, hs]
  split
  · rename_i fs w _ _ _
    exact endsBy_finishStage (s := analyzed fs w s) hpending (by decide)
  · exact endsBy_raiseFault _ s
  · exact endsBy_raiseFault _ s

theorem execExtract_ends (hpending : s.cancelPending = true) (hs : s.stage = .extract) :
    EndsBy s.env.script (execExtract s) := by
  simp only [execExtract, hs]
  split_ifs
  · split
    · rename_i f d _ _
      split_ifs
      · exact endsBy_raiseFault _ s
      · exact endsBy_finishStage (s := extracted f d.toNat s) hpending (by decide)
    · exact endsBy_raiseFault _ s
  · exact endsBy_raiseFault _ s

theorem execHandoff_ends (hpending : s.cancelPending = true) (hs : s.stage = .handoff) (hp : s.phase = .start) :
    EndsBy s.env.script (execHandoff s) := by
  simp only [execHandoff, hs, hp]
  split_ifs
  · exact endsBy_block hpending (.inr hs)
  · exact endsBy_raiseFault _ s

/-- With an interrupt latched, one move of the core in the stage of an operation ends the run, or the next will. -/
theorem coreMove_ends (hi : ControlInv s) (hpending : s.cancelPending = true) (hidle : s.stage ≠ .idle)
    (hstopped : s.stage ≠ .stopped) (hfaulted : s.stage ≠ .faulted) : EndsBy s.env.script (coreMove s) := by
  by_cases hblocked : (s.stage = .acquire ∨ s.stage = .handoff) ∧ s.phase = .wait
  · obtain ⟨hs, hp⟩ := hblocked
    exact ⟨s.enterCancel, by simp [coreMove_blocked hs hp, hpending], .inl (.inl rfl), rfl⟩
  cases hs : s.stage with
  | idle => exact absurd hs hidle
  | stopped => exact absurd hs hstopped
  | faulted => exact absurd hs hfaulted
  | acquire =>
    have hp : s.phase ≠ .wait := fun h => hblocked ⟨.inl hs, h⟩
    rw [coreMove_acquire hs hp]
    exact acquisition_ends hi hpending hs hp
  | decode => simpa [coreMove, hs, exec] using execDecodeF32_ends hpending hs
  | analyze => simpa [coreMove, hs, exec] using execAnalyze_ends hpending hs
  | extract => simpa [coreMove, hs, exec] using execExtract_ends hpending hs
  | handoff =>
    have hp : s.phase ≠ .wait := fun h => hblocked ⟨.inr hs, h⟩
    rw [coreMove_handoff hs hp]
    exact execHandoff_ends hpending hs ((hi.handingOff hs).resolve_right hp)

end

/-- Settles O50: the first step ends the run or prepares its end, the second one ends it; the transport is released by
the control invariant. -/
theorem interruptIsTakenWithinTwoSteps : Obligations.InterruptIsTakenWithinTwoSteps := by
  intro s hi hpending hstopped hfaulted hscript
  have hfirst : ∃ t, step s = .next t ∧ t.EndsNext ∧ t.env.script = [] := by
    cases hdue : cancelDue s with
    | true => exact ⟨_, step_eq_enterCancel hdue (by simp [hscript]), .inl (.inl rfl), hscript⟩
    | false =>
      have hidle : s.stage ≠ .idle := fun hs => by simp [cancelDue_of_idle hs hpending] at hdue
      rw [step_eq_coreMove hscript hdue, ← hscript]
      exact coreMove_ends hi.control hpending hidle hstopped hfaulted
  obtain ⟨t, ht, hends, htscript⟩ := hfirst
  obtain ⟨u, hu, hterminal, -⟩ := hends.step htscript
  have hcontrol : ControlInv u := controlStaysCoherent t u (controlStaysCoherent s t hi.control ht) hu
  refine ⟨u, ?_, hterminal, (hcontrol.terminal hterminal).2⟩
  rw [run_succ_of_step ht, run_succ_of_step hu]
  rfl

end Sys2Proof.Machine
end

section
/-! PROOFS. What a step leaves alone: the streams outside ACQUIRE (O46), a recorded fault (O48), the core in a terminal
stage (O52), `CFG` outside `IDLE` (O54). -/

namespace Sys2Proof.Machine

section
variable {s t : State}

/-! ### Transports and sink -/

/-- Outside stage ACQUIRE no transition of the core uses a transport (R210). -/
theorem CoreTrans.transports_eq (h : CoreTrans s t) (hs : s.stage ≠ .acquire) :
    t.env.serPos = s.env.serPos ∧ t.env.dgramPos = s.env.dgramPos ∧ t.env.serOut = s.env.serOut := by
  cases h with
  | startA _ hs' | requested hs' | startB _ hs' | startC hs' | marker _ hs' | noise _ hs' | payload hs' | short _ hs'
  | gathered _ hs' | filled _ hs' | element _ hs' | trailer _ hs' | insufficient _ hs' => exact absurd hs' hs
  | decoded => simp [decodeFrame_eq]
  | _ => exact ⟨rfl, rfl, rfl⟩

/-- Only the return of `SinkHandoff` delivers a bundle, and it delivers one (R206). -/
theorem CoreTrans.sink_cases (h : CoreTrans s t) : t.env.sink = s.env.sink ∨
    s.stage = .handoff ∧ s.phase = .wait ∧ t.env.sink = s.env.sink ++ [s.bundle] := by
  cases h with
  | delivered hs hp => exact .inr ⟨hs, hp, rfl⟩
  | decoded => simp [decodeFrame_eq]
  | _ => exact .inl rfl

theorem OutsideTrans.transports_eq (h : OutsideTrans s t) : t.env.serPos = s.env.serPos ∧
    t.env.dgramPos = s.env.dgramPos ∧ t.env.serOut = s.env.serOut ∧ t.env.sink = s.env.sink := by
  cases h with
  | surroundings e hp ho hd hk => exact ⟨hp, hd, ho, hk⟩
  | _ => exact ⟨rfl, rfl, rfl, rfl⟩

end

/-- Settles O46: what each kind of transition does to the streams and to the sink. -/
theorem transportsAreReadOnlyInAcquire : Obligations.TransportsAreReadOnlyInAcquire := by
  intro s t hstep
  obtain ⟨rest, -, rfl⟩ | ⟨-, rfl⟩ | ⟨script, h | h⟩ := step_trans hstep
  · exact ⟨fun _ => ⟨rfl, rfl, rfl⟩, .inl rfl⟩
  · exact ⟨fun _ => ⟨rfl, rfl, rfl⟩, .inl rfl⟩
  · exact ⟨h.transports_eq, h.sink_cases⟩
  · obtain ⟨hpos, hdgram, hout, hsink⟩ := h.transports_eq
    exact ⟨fun _ => ⟨hpos, hdgram, hout⟩, .inl hsink⟩

/-! ### The fault code -/

section
variable {s t : State}

/-- A recorded code outlives every transition of the core, fault entry among them (R222 (1)). -/
theorem CoreTrans.fault_eq (h : CoreTrans s t) (hs : s.fault ≠ .none) : t.fault = s.fault := by
  cases h with
  | idleFault | variantFault | countFault | markerFault | decodeFault | analyzeFault | extractFault | handoffFault
  | insufficient => exact if_neg hs
  | decoded => simp [decodeFrame_eq]
  | _ => rfl

end

/-- Settles O48: only reset makes a recorded code another one. -/
theorem firstFaultIsKept : Obligations.FirstFaultIsKept := by
  intro s t hstep hs hchanged
  obtain ⟨rest, hscript, -⟩ | ⟨-, rfl⟩ | ⟨script, htrans⟩ := step_trans hstep
  · exact ⟨rest, hscript⟩
  · exact absurd rfl hchanged
  · exact absurd (htrans.elim (fun h => h.fault_eq hs) fun h => h.fault_eq) hchanged

/-! ### Terminal stages -/

/-- Settles O52: in a terminal stage the core makes no transition, and the other agents reach `cancel_pending` and the
collaborators only. -/
theorem terminalStagesAreLeftOnlyByReset : Obligations.TerminalStagesAreLeftOnlyByReset := by
  intro s t hterminal hstep
  obtain ⟨rest, hscript, -⟩ | ⟨hdue, -⟩ | ⟨script, htrans⟩ := step_trans hstep
  · exact .inl ⟨rest, hscript⟩
  · simp [cancelDue_of_terminal hterminal] at hdue
  refine .inr ?_
  rcases htrans with h | h
  · rw [h.eq_of_terminal hterminal]
    exact ⟨_, s.cancelPending, rfl, id, rfl, rfl, rfl, rfl⟩
  · cases h with
    | wrote _ hs => simp [show s.stage = .idle from hs] at hterminal
    | interrupted => exact ⟨_, true, rfl, fun _ => rfl, rfl, rfl, rfl, rfl⟩
    | surroundings e hpos hout hdgram hsink => exact ⟨e, s.cancelPending, rfl, id, hpos, hout, hdgram, hsink⟩

/-! ### Configuration -/

section
variable {s t : State}

theorem CoreTrans.cfg_eq (h : CoreTrans s t) : t.cfg = s.cfg := by
  cases h with
  | decoded => simp [decodeFrame_eq]
  | _ => rfl

/-- No move but reset and the host's write changes `CFG` (R21). -/
theorem agentMove_cfg_eq {m : Move} (hreset : m ≠ .reset) (hwrite : ∀ c, m ≠ .writeCfg c)
    (h : agentMove m s = .next t) : t.cfg = s.cfg := by
  cases m with
  | reset => exact absurd rfl hreset
  | writeCfg c => exact absurd rfl (hwrite c)
  | core => exact (coreMove_cases h).cfg_eq
  | command w => exact (commandMove_cases h).cfg_eq
  | serialReturns len => exact (serialMove_cases h).cfg_eq
  | dgramReturns => exact (dgramMove_cases h).cfg_eq
  | sinkReturns => exact (sinkMove_cases h).cfg_eq
  | interrupt | serialDelivers | serialBuffers | dgramArrives | portAvailable => cases h; rfl

theorem writeCfg_idle {c : CfgWrite} (hs : s.stage = .idle) (hopen : ∀ v, c = .variant v → s.transportOpen = false) :
    writeCfg c s = .next { s with cfg := s.cfg.write c } := by
  cases c with
  | variant v => simp [writeCfg, hs, hopen v rfl]
  | _ => simp [writeCfg, hs]

theorem writeCfg_variant_open {v : BitVec 2} (hs : s.stage = .idle) (hopen : s.transportOpen = true) :
    writeCfg (.variant v) s = .refused .variantWriteWhileOpen := by
  simp [writeCfg, hs, hopen]

theorem writeCfg_outside_idle (c : CfgWrite) (hs : s.stage ≠ .idle) : writeCfg c s = .refused .cfgWriteOutsideIdle := by
  simp [writeCfg, hs]

/-- A write that was performed was one that R21 and R258 admit, and changed one register. -/
theorem writeCfg_next {c : CfgWrite} (h : writeCfg c s = .next t) : s.stage = .idle ∧
    (t.cfg.variant = s.cfg.variant ∨ s.transportOpen = false) ∧ t = { s with cfg := s.cfg.write c } := by
  by_cases hs : s.stage = .idle
  · refine ⟨hs, ?_⟩
    by_cases hopen : ∀ v, c = .variant v → s.transportOpen = false
    · rw [writeCfg_idle hs hopen] at h
      cases h
      refine ⟨?_, rfl⟩
      by_cases hc : ∀ v, c ≠ .variant v
      · exact .inl (Cfg.write_variant_eq s.cfg hc)
      · push Not at hc
        obtain ⟨v, hc⟩ := hc
        exact .inr (hopen v hc)
    · push Not at hopen
      obtain ⟨v, rfl, hopen⟩ := hopen
      rw [writeCfg_variant_open hs (by simpa using hopen)] at h
      cases h
  · rw [writeCfg_outside_idle c hs] at h
    cases h

end

/-- Settles O54: which move the step made, and what the host's write does where it is admitted and where it is not. -/
theorem cfgIsConstantOutsideIdle : Obligations.CfgIsConstantOutsideIdle := by
  constructor
  · intro s t hstep hchanged
    obtain hreset | ⟨-, rfl⟩ | ⟨-, hmove⟩ | ⟨m, rest, hscript, hm, hmove⟩ := step_moves hstep
    · exact .inl hreset
    · exact absurd rfl hchanged
    · exact absurd (coreMove_cases hmove).cfg_eq hchanged
    · by_cases hwrite : ∃ c, m = .writeCfg c
      · obtain ⟨c, rfl⟩ := hwrite
        obtain ⟨hs, hvariant, ht⟩ := writeCfg_next hmove
        exact .inr ⟨hs, hvariant, c, rest, hscript, by rw [ht, popMove_eq hscript]⟩
      · exact absurd (agentMove_cfg_eq hm (fun c hc => hwrite ⟨c, hc⟩) hmove) hchanged
  · intro s c rest hscript hdue
    have hstep : step s = writeCfg c s.popMove := step_eq_agentMove hscript (by simp) hdue
    rw [hstep, popMove_eq hscript]
    refine ⟨fun hs hopen => writeCfg_idle hs hopen, ?_, fun hs => writeCfg_outside_idle c hs, ?_⟩
    · rintro v rfl hs hopen
      exact writeCfg_variant_open hs hopen
    · cases c <;> rfl

end Sys2Proof.Machine
end

section
/-! PROOFS. What a step does under the invariants: the faults of a RUN loop (O17), the stage transition table (O18), the
cursor mode (O27), and the frames of Variant B (O28). -/

namespace Sys2Proof.Machine

section
variable {s t : State}

/-! ### Faults inside a RUN loop -/

theorem analyzeCheck_of_runCheck (hcheck : runCheck s = none) (hsamp : s.sampValid = true)
    (hlen : s.sampLen = s.par.N) : analyzeCheck s = none := by
  obtain ⟨_, w, fs, _, _, -, hw, hfs, -, -, -, hpage, hpos, -⟩ := runCheck_none hcheck
  exact analyzeCheck_eq_none hsamp hlen hfs hpos hw hpage

/-- Where the configuration has been checked and each stage finds its buffers, the core can only fault in an element
read of Variant A (R208). -/
theorem CoreTrans.fault_in_loop (h : CoreTrans s t) (hcontrol : ControlInv s) (hi : LoopInv s) (hloop : s.loop = true)
    (ht : t.stage = .faulted) : t.fault = .insufficientData ∧ s.stage = .acquire ∧ s.cfg.variant = some 0 := by
  have hidle : s.stage ≠ .idle := (hcontrol.looping hloop).2
  have hfaulted : s.stage ≠ .faulted := fun hs => by simp [hcontrol.terminal (.inr hs)] at hloop
  obtain ⟨v, w, fs, f, d, hv, hw, hfs, hf, hd, hne, -, -, hfinite, hcount, hmarker⟩ := runCheck_none (hi.checked hloop)
  cases h with
  | insufficient len hs _ hv' => exact ⟨by simp [hcontrol.fault_eq_none hfaulted], hs, hv'⟩
  | stay | opened | closed => exact absurd ht hfaulted
  | idleFault _ hs => exact absurd hs hidle
  | variantFault _ _ hv' =>
    obtain ⟨h0, h1, h2⟩ := hv'
    rcases variant_legal_of_ne_three hne with rfl | rfl | rfl
    · exact absurd hv h0
    · exact absurd hv h1
    · exact absurd hv h2
  | countFault _ _ hv' hc =>
    obtain ⟨c, hc', hcap, -⟩ := hcount (Option.some.inj (hv.symm.trans hv'))
    exact absurd (hc c hc') hcap.not_gt
  | markerFault _ _ hv' hm => exact absurd hm (hmarker (Option.some.inj (hv.symm.trans hv')))
  | decodeFault hs hr => simp [hi.decode hloop hs] at hr
  | analyzeFault c hs hc =>
    obtain ⟨hsamp, hlen⟩ := hi.analyze hloop hs
    simp [analyzeCheck_of_runCheck (hi.checked hloop) hsamp hlen] at hc
  | extractFault c hs hc =>
    obtain ⟨-, hspec⟩ | ⟨-, hfrac⟩ := hc
    · simp [(hi.extract hloop hs).2] at hspec
    · simp [hfrac f d hf hd] at hfinite
  | handoffFault hs _ hv' => simp [hi.handoff hloop hs] at hv'
  | accepted _ hs | ran hs => exact absurd hs hidle
  | startA _ hs | requested hs | startB _ hs | startC hs | offered hs | marker _ hs | noise _ hs | short _ hs
  | gathered _ hs | element _ hs => exact absurd ht (by simp [putI32, hs])
  | cancelled => simp at ht
  | decoded | analyzed | extracted | delivered | payload | filled | trailer =>
    simp [State.emitFrame, decodeFrame_eq, hloop] at ht

end

/-- Settles O17: no other fault passes the checks that the invariants keep true inside the loop. -/
theorem loopRaisesOnlyInsufficientData : Obligations.LoopRaisesOnlyInsufficientData := by
  intro s t hi hloop hstep ht
  obtain ⟨rest, -, rfl⟩ | ⟨-, rfl⟩ | ⟨script, h | h⟩ := step_trans hstep
  · simp at ht
  · simp at ht
  · exact h.fault_in_loop (hi.withScript script).control (hi.withScript script).loop hloop ht
  · have hs : s.stage = .faulted := h.stage_eq.symm.trans ht
    simp [hi.control.terminal (.inr hs)] at hloop

/-! ### The stage transition table -/

section
variable {s t : State}

/-- The rows of the stage transition table that the core takes (R212). -/
theorem CoreTrans.stage_row (h : CoreTrans s t) (hi : ControlInv s) (hne : t.stage ≠ s.stage) :
    (t.stage = .stopped ∧ s.stage ≠ .faulted ∧ s.cancelPending = true) ∨
    (t.stage = .faulted ∧ s.stage ≠ .stopped) ∨
    (s.stage = .idle ∧ t.stage = .acquire) ∨
    (s.stage = .idle ∧ t.loop = false ∧
      (t.stage = .decode ∨ t.stage = .analyze ∨ t.stage = .extract ∨ t.stage = .handoff)) ∨
    (s.stage = .acquire ∧ (s.cfg.variant = some 1 ∨ s.cfg.variant = some 2) ∧
      t.stage = (if s.loop then .decode else .idle)) ∨
    (s.stage = .acquire ∧ s.cfg.variant = some 0 ∧ t.stage = (if s.loop then .analyze else .idle)) ∨
    (s.stage = .decode ∧ t.stage = (if s.loop then .analyze else .idle)) ∨
    (s.stage = .analyze ∧ t.stage = (if s.loop then .extract else .idle)) ∨
    (s.stage = .extract ∧ t.stage = (if s.loop then .handoff else .idle)) ∨
    (s.stage = .handoff ∧ t.stage = (if s.loop then .acquire else .idle)) := by
  cases h with
  | stay | opened | closed | startA | requested | startB | startC | offered | marker | noise | short | gathered
  | element => exact absurd rfl hne
  | accepted st hs _ _ hst =>
    rcases hst with rfl | hst
    · simp [hs]
    · simp [hs, hi.loop_of_idle hs, hst]
  | ran hs => simp [hs]
  | idleFault _ hs | variantFault hs | countFault hs | markerFault hs | decodeFault hs | analyzeFault _ hs
  | extractFault _ hs | handoffFault hs | insufficient _ hs => exact .inr (.inl ⟨rfl, by simp [hs]⟩)
  | cancelled hc hs => exact .inl ⟨rfl, by rcases hs with hs | hs <;> simp [hs], hc⟩
  | decoded hs => simp [hs, decodeFrame_eq]
  | analyzed _ _ hs | extracted _ _ hs | delivered hs => cases hloop : s.loop <;> simp [hs, hloop]
  | payload hs _ hv | filled _ hs _ hv => simp [hs, hv, State.emitFrame]
  | trailer _ hs _ hv => simp [hs, hv]

end

/-- Settles O18: reset and cancellation entry are rows of their own, the others are those of the core. -/
theorem stageTransitionsAreTheTable : Obligations.StageTransitionsAreTheTable := by
  intro s t hi hstep hne
  obtain ⟨rest, hscript, rfl⟩ | ⟨hdue, rfl⟩ | ⟨script, h | h⟩ := step_trans hstep
  · exact .inl ⟨rfl, rest, hscript⟩
  · obtain ⟨hpending, hs⟩ := cancelDue_iff.1 hdue
    exact .inr (.inl ⟨rfl, by rcases hs with hs | ⟨-, hs, -⟩ <;> simp [hs], hpending⟩)
  · exact .inr (h.stage_row (hi.withScript script).control hne)
  · exact absurd h.stage_eq hne

/-! ### The cursor of Variant B -/

section
variable {s t : State}

/-- A payload is collected only in a blocked acquisition of Variant B (R127). -/
theorem Inv.collecting (hi : Inv s) (hmode : s.mode = .collectingPayload) :
    s.stage = .acquire ∧ s.phase = .wait ∧ s.cfg.variant = some 1 := by
  by_cases hblocked : s.stage = .acquire ∧ s.phase = .wait
  · obtain ⟨hs, hp⟩ := hblocked
    refine ⟨hs, hp, ?_⟩
    rcases hi.control.held (hi.control.acquiring hs) with hv | hv | hv
    · simp [(hi.cursor.variantA hs hp hv).1] at hmode
    · exact hv
    · simp [(hi.cursor.variantC hs hp hv).1] at hmode
  · simp [(hi.cursor.rests hblocked).1] at hmode

/-- Only the marker byte starts a payload (R128). -/
theorem CoreTrans.begins_payload (h : CoreTrans s t) (hs : s.mode = .searchingHeader)
    (ht : t.mode = .collectingPayload) : s.stage = .acquire ∧ s.cfg.variant = some 1 ∧ t.env.serPos = s.env.serPos + 1 ∧
      ∃ m, s.cfg.headerMarker = some m ∧ s.env.serIn[s.env.serPos]? = some m := by
  cases h with
  | marker b hstage _ hv hm _ hb => exact ⟨hstage, hv, rfl, b, hm, hb⟩
  | payload | short | filled | idleFault | variantFault | countFault | markerFault | decodeFault | analyzeFault
  | extractFault | handoffFault | insufficient | cancelled => cases ht
  | decoded => simp [decodeFrame_eq, hs] at ht
  | _ => cases hs.symm.trans ht

/-- While a payload is collected, the answer to the payload read ends that, or cancellation does (R130, R131). -/
theorem CoreTrans.ends_payload (h : CoreTrans s t) (hi : Inv s) (hs : s.mode = .collectingPayload)
    (ht : t.mode = .searchingHeader) :
    (t.env.serPos = s.env.serPos + s.par.frameBytes ∧ t.rawValid = true) ∨
      (t.env.serPos < s.env.serPos + s.par.frameBytes ∧ t.stage = .acquire ∧ t.raw = s.raw ∧ t.rawValid = s.rawValid) ∨
      t.stage = .stopped := by
  obtain ⟨hstage, hphase, hvariant⟩ := hi.collecting hs
  cases h with
  | payload => exact .inl ⟨rfl, rfl⟩
  | short len _ _ _ _ hl => exact .inr (.inl ⟨Nat.add_lt_add_left hl _, hstage, rfl, rfl⟩)
  | cancelled => exact .inr (.inr rfl)
  | stay | noise => cases hs.symm.trans ht
  | marker => cases ht
  | opened _ hs' | closed hs' | accepted _ hs' | ran hs' | idleFault _ hs' | decoded hs' | decodeFault hs'
  | analyzed _ _ hs' | analyzeFault _ hs' | extracted _ _ hs' | extractFault _ hs' | offered hs' | handoffFault hs'
  | delivered hs' => cases hstage.symm.trans hs'
  | variantFault _ hp => exact absurd hphase hp
  | startA _ _ hp | countFault _ hp | requested _ hp | startB _ _ hp | markerFault _ hp | startC _ hp =>
    cases hphase.symm.trans hp
  | gathered _ _ _ hv | filled _ _ _ hv | element _ _ _ hv | trailer _ _ _ hv | insufficient _ _ _ hv =>
    simp [hvariant] at hv

theorem OutsideTrans.mode_eq (h : OutsideTrans s t) : t.mode = s.mode := by
  cases h <;> rfl

end

/-- Settles O27: into the payload by the marker byte alone, out of it from a blocked acquisition of Variant B alone. -/
theorem cursorModeTransitions : Obligations.CursorModeTransitions := by
  intro s t hi hstep hne
  cases hmode : s.mode with
  | searchingHeader =>
    have ht : t.mode = .collectingPayload := by
      cases ht : t.mode with
      | searchingHeader => exact absurd (ht.trans hmode.symm) hne
      | collectingPayload => rfl
    obtain ⟨rest, -, rfl⟩ | ⟨-, rfl⟩ | ⟨script, h | h⟩ := step_trans hstep
    · cases ht
    · cases ht
    · obtain ⟨hs, hv, hpos, hm⟩ := h.begins_payload hmode ht
      exact .inl ⟨rfl, hs, hv, hpos, hm⟩
    · exact absurd h.mode_eq hne
  | collectingPayload =>
    have ht : t.mode = .searchingHeader := by
      cases ht : t.mode with
      | searchingHeader => rfl
      | collectingPayload => exact absurd (ht.trans hmode.symm) hne
    obtain ⟨hs, -, hv⟩ := hi.collecting hmode
    refine .inr ⟨rfl, hs, hv, ?_⟩
    obtain ⟨rest, hscript, rfl⟩ | ⟨-, rfl⟩ | ⟨script, h | h⟩ := step_trans hstep
    · exact .inr (.inr (.inr ⟨rfl, rest, hscript⟩))
    · exact .inr (.inr (.inl rfl))
    · rcases h.ends_payload (hi.withScript script) hmode ht with h | h | h
      · exact .inl h
      · exact .inr (.inl h)
      · exact .inr (.inr (.inl h))
    · exact absurd h.mode_eq hne

/-! ### Frames -/

section
variable {s t : State}

/-- A frame of Variant B is made valid by the payload read only (R130). -/
theorem CoreTrans.frame_of_variantB (h : CoreTrans s t) (hv : s.cfg.variant = some 1) (hinvalid : s.rawValid = false)
    (hvalid : t.rawValid = true) : s.stage = .acquire ∧ s.phase = .wait ∧ s.mode = .collectingPayload ∧
      s.env.serPos + s.par.frameBytes ≤ s.env.serIn.length ∧ t.raw = s.serBytes s.par.frameBytes ∧
      t.env.serPos = s.env.serPos + s.par.frameBytes := by
  cases h with
  | payload hs hp _ hmode hl => exact ⟨hs, hp, hmode, hl, rfl, rfl⟩
  | filled _ _ _ hv' => simp [hv] at hv'
  | startA | startB | startC | cancelled => cases hvalid
  | decoded => simp [decodeFrame_eq] at hvalid
  | _ => cases hinvalid.symm.trans hvalid

theorem OutsideTrans.rawValid_eq (h : OutsideTrans s t) : t.rawValid = s.rawValid := by
  cases h <;> rfl

end

/-- Settles O28: the byte before the payload read is the marker, by the marker invariant. -/
theorem framesFollowAMarker : Obligations.FramesFollowAMarker := by
  intro s t hi hstep hv hinvalid hvalid
  obtain ⟨rest, -, rfl⟩ | ⟨-, rfl⟩ | ⟨script, h | h⟩ := step_trans hstep
  · cases hvalid
  · cases hvalid
  · obtain ⟨hs, hp, hmode, hfit, hraw, hpos⟩ := h.frame_of_variantB hv hinvalid hvalid
    obtain ⟨m, hm, hlt, hb⟩ := hi.marker hs hp hv hmode
    have hsucc : s.env.serPos - 1 + 1 = s.env.serPos := Nat.succ_pred_eq_of_pos hlt
    refine ⟨m, s.env.serPos - 1, hm, hb, ?_, ?_, ?_⟩
    · rw [hsucc]; exact hfit
    · rw [hsucc]; exact hraw
    · rw [hsucc]; exact hpos
  · rw [h.rawValid_eq] at hvalid
    cases hinvalid.symm.trans hvalid

end Sys2Proof.Machine
end

section
/-! PROOFS. What each instruction does in the stage and phase that run it: commands in `IDLE`, the transitions of the
operations, and the wire tokens. -/

namespace Sys2Proof.Machine

section
variable {s : State}

/-! ### Commands in `IDLE` -/

theorem acceptAcquisition_unwritten {v : BitVec 2} (hv : s.cfg.variant = none) :
    acceptAcquisition v s = .next (s.enterFault .configRange) := by
  simp [acceptAcquisition, hv, raiseFault]

theorem acceptAcquisition_wrong {v w : BitVec 2} (hv : s.cfg.variant = some w) (hne : w ≠ v) :
    acceptAcquisition v s = .next (s.enterFault .illegalCmd) := by
  simp [acceptAcquisition, hv, hne, raiseFault]

theorem acceptAcquisition_closed {v : BitVec 2} (hv : s.cfg.variant = some v) (hclosed : s.transportOpen = false) :
    acceptAcquisition v s = .next (s.enterFault .transportClosed) := by
  simp [acceptAcquisition, hv, hclosed, raiseFault]

theorem acceptAcquisition_accepted {v : BitVec 2} (hv : s.cfg.variant = some v) (hopen : s.transportOpen = true) :
    acceptAcquisition v s = .next (s.enterStage .acquire) := by
  simp [acceptAcquisition, hv, hopen]

/-- The three acquisitions, presented in `IDLE`, make the checks of command decode for their variant. -/
theorem exec_acquisition_idle (hs : s.stage = .idle) : exec .acquireA s = acceptAcquisition 0 s ∧
    exec .nextframeB s = acceptAcquisition 1 s ∧ exec .nextframeC s = acceptAcquisition 2 s := by
  simp [exec, execAcquireA, execNextframeB, execNextframeC, hs]

theorem illegalCommand_idle (hs : s.stage = .idle) : illegalCommand s = .next (s.enterFault .illegalCmd) := by
  simp [illegalCommand, hs, raiseFault]

theorem exec_reserved_idle {i : Instr} (hs : s.stage = .idle)
    (hi : i = .reservedB ∨ i = .reservedC ∨ i = .reservedD ∨ i = .reservedE ∨ i = .reservedF) :
    exec i s = .next (s.enterFault .illegalCmd) := by
  rcases hi with rfl | rfl | rfl | rfl | rfl <;> exact illegalCommand_idle hs

theorem exec_decodeF32_wrong (hs : s.stage = .idle) (hv : s.cfg.variant = some 0 ∨ s.cfg.variant = some 3) :
    exec .decodeF32 s = .next (s.enterFault .illegalCmd) := by
  rcases hv with hv | hv <;> simp [exec, execDecodeF32, hs, hv, raiseFault]

end

/-- Settles O7, along OPEN's pseudocode. -/
theorem openFollowsItsPseudocode : Obligations.OpenFollowsItsPseudocode := by
  intro s v hs hv
  cases hopen : s.transportOpen with
  | true => simp [exec, execOpen, hs, hv, hopen, raiseFault]
  | false => cases hcan : s.env.canOpen <;> simp [exec, execOpen, hs, hv, hopen, hcan, raiseFault]

/-- Settles O8: the acquisitions by the checks they pass, the other operations by what they do in `IDLE`. -/
theorem acceptedOperationsEnterTheirStage : Obligations.AcceptedOperationsEnterTheirStage := by
  intro s hs
  obtain ⟨hA, hB, hC⟩ := exec_acquisition_idle hs
  refine ⟨fun hv ho => hA.trans (acceptAcquisition_accepted hv ho),
    fun hv ho => hB.trans (acceptAcquisition_accepted hv ho),
    fun hv ho => hC.trans (acceptAcquisition_accepted hv ho), fun hv => ?_, ?_, ?_, ?_⟩
  · rcases hv with hv | hv <;> simp [exec, execDecodeF32, hs, hv, State.enterStage, State.examine]
  · simp [exec, execAnalyze, hs, State.enterStage, State.examine]
  · simp [exec, execExtract, hs, State.enterStage, State.examine]
  · simp [exec, execHandoff, hs, State.enterStage, State.examine]

/-- Settles O9: the checks are those of `acceptAcquisition`, and DECODE_F32's own. -/
theorem commandDecodeChecksInOrder : Obligations.CommandDecodeChecksInOrder := by
  intro s i v hs hiv
  obtain ⟨hA, hB, hC⟩ := exec_acquisition_idle hs
  have hexec : exec i s = acceptAcquisition v s := by
    rcases hiv with ⟨rfl, rfl⟩ | ⟨rfl, rfl⟩ | ⟨rfl, rfl⟩
    · exact hA
    · exact hB
    · exact hC
  rw [hexec]
  refine ⟨acceptAcquisition_unwritten, fun w => acceptAcquisition_wrong, acceptAcquisition_closed,
    exec_decodeF32_wrong hs, fun hv => ?_⟩
  simp [exec, execDecodeF32, hs, hv, raiseFault]

/-- Every command word from 0x0B up decodes to a reserved word or to nothing (R102). -/
theorem decodeCommand_reserved {w : Byte} (h : 0x0B ≤ w.toNat) : decodeCommand w = none ∨
    ∃ i, decodeCommand w = some i ∧
      (i = .reservedB ∨ i = .reservedC ∨ i = .reservedD ∨ i = .reservedE ∨ i = .reservedF) := by
  by_cases hhigh : 0x10 ≤ w.toNat
  · exact .inl (decodeCommand_high hhigh)
  · have hrow : w.toNat = 0x0B ∨ w.toNat = 0x0C ∨ w.toNat = 0x0D ∨ w.toNat = 0x0E ∨ w.toNat = 0x0F := by omega
    rcases hrow with hw | hw | hw | hw | hw <;> simp [decodeCommand, hw]

/-- Settles O10: at the port a reserved word runs its row, a word of no row raises the same fault. -/
theorem reservedCommandsFault : Obligations.ReservedCommandsFault := by
  refine ⟨fun s i hs hi => exec_reserved_idle hs hi, ?_⟩
  intro s w rest hs hpending hscript hw
  have hstep : step s = commandMove w s.popMove :=
    step_eq_agentMove hscript (by simp) (cancelDue_of_not_pending hpending)
  have hs' : s.popMove.stage = .idle := hs
  rw [hstep]
  rcases decodeCommand_reserved hw with hnone | ⟨i, hi, hreserved⟩
  · simp [commandMove, hs, decode, hnone, illegalCommand_idle hs']
  · rw [commandMove_idle hs' hi, exec_reserved_idle hs' hreserved]

/-! ### RUN -/

section
variable {s : State}

/-- RUN in `IDLE`: the first fault of the configuration check, else the transport check, else the loop starts. -/
theorem exec_run_idle (hs : s.stage = .idle) : exec .run s = (runCheck s).elim
    (if s.transportOpen = false then .next (s.enterFault .transportClosed)
      else .next { s with loop := true, stage := .acquire, phase := .start, examined := !s.cancelPending })
    fun c => .next (s.enterFault c) := by
  cases hc : runCheck s with
  | some c => simp [exec, execRun, hs, hc, raiseFault]
  | none => cases ho : s.transportOpen <;> simp [exec, execRun, hs, hc, ho, raiseFault, State.enterStage, State.examine]

/-- The configuration check of RUN with every field it reads written, as a chain of conditions (R208). -/
theorem runCheck_written {v : BitVec 2} {w : BitVec 1} {fs : Rat} {f d c : Word} (hv : s.cfg.variant = some v)
    (hw : s.cfg.windowSel = some w) (hfs : s.cfg.sampleRate = some fs) (hf : s.cfg.minHeightFraction = some f)
    (hd : s.cfg.minBinDistance = some d) (hc : v = 0 → s.cfg.count = some c) (hm : v = 1 → s.cfg.headerMarker ≠ none) :
    runCheck s =
      if v = 3 then some .configRange
      else if w = 1 ∧ s.par.hammingPresent = false then some .configRange
      else if fs ≤ 0 then some .configRange
      else if f32Exponent f = 255 then some .configRange
      else if v = 0 ∧ s.par.sampCap < c.toNat then some .configRange
      else if v = 0 ∧ c.toNat ≠ s.par.N then some .lengthMismatch
      else none := by
  simp only [runCheck, hv, hw, hfs, hf, hd, not_lt, f32NonFinite, beq_iff_eq]
  by_cases h0 : v = 0
  · simp [h0, hc h0]
  · have hmarker : ¬(v = 1 ∧ s.cfg.headerMarker = none) := fun h => hm h.1 h.2
    simp only [h0, hmarker, if_false, false_and]

theorem runCheck_unwritten (h : s.cfg.variant = none ∨ s.cfg.windowSel = none ∨ s.cfg.sampleRate = none ∨
    s.cfg.minHeightFraction = none ∨ s.cfg.minBinDistance = none ∨ (s.cfg.variant = some 0 ∧ s.cfg.count = none) ∨
    (s.cfg.variant = some 1 ∧ s.cfg.headerMarker = none)) : runCheck s = some .configRange := by
  unfold runCheck
  split
  · rename_i v w fs f d hv hw hfs hf hd
    rcases h with h | h | h | h | h | ⟨h, hc⟩ | ⟨h, hm⟩
    · simp [hv] at h
    · simp [hw] at h
    · simp [hfs] at h
    · simp [hf] at h
    · simp [hd] at h
    · cases hv.symm.trans h
      simp [hc]
    · cases hv.symm.trans h
      simp [hm]
  · rfl

end

/-- Settles O15: the configuration check as a chain of conditions, and what RUN makes of it. -/
theorem runChecksThenStartsTheLoop : Obligations.RunChecksThenStartsTheLoop := by
  intro s v w fs f d c hs hv hw hfs hf hd hc hm
  rw [exec_run_idle hs, runCheck_written hv hw hfs hf hd hc hm]
  split_ifs <;> rfl

/-! ### The transitions of the operations -/

theorem exec_analyze_fault {s : State} {c : FaultCode} (hs : s.stage = .analyze) (hc : analyzeCheck s = some c) :
    exec .analyze s = .next (s.enterFault c) := by
  simp [exec, execAnalyze, hs, hc, raiseFault]

/-- Settles O16, each operation at the line that reads the field. -/
theorem neverWrittenFieldsFault : Obligations.NeverWrittenFieldsFault := by
  intro s
  refine ⟨fun hs h => ?_, fun hs hv => ?_, fun hs hp hc => ?_, fun hs hp hm => ?_, fun hs hsamp hlen h => ?_,
    fun hs hspec h => ?_⟩
  · rw [exec_run_idle hs, runCheck_unwritten h]
    rfl
  · simp [exec, execOpen, hs, hv, raiseFault]
  · simp [exec, execAcquireA, hs, hp, hc, raiseFault]
  · simp [exec, execNextframeB, hs, hp, hm, raiseFault]
  · refine exec_analyze_fault hs ?_
    rcases h with h | h <;> simp [analyzeCheck, hsamp, hlen, h]
  · rcases h with h | h <;> simp [exec, execExtract, hs, hspec, h, raiseFault]

/-- The first transition of ACQUIRE_A with an admissible count: clearing and flush (R119, R122). -/
theorem exec_acquireA_start {s : State} {c : Word} (hs : s.stage = .acquire) (hp : s.phase = .start)
    (hc : s.cfg.count = some c) (hcap : c.toNat ≤ s.par.sampCap) : exec .acquireA s = .next { s with
      rawValid := false, sampValid := false, trailingValid := false, specValid := false, peakValid := false,
      nonfinite := false, samp := [], consumed := 0, phase := .write, examined := !s.cancelPending,
      env := { s.env with
        serPos := s.env.serPos + min s.env.serBuffered (s.env.serIn.length - s.env.serPos), serBuffered := 0 } } := by
  simp [exec, execAcquireA, hs, hp, hc, hcap.not_gt, State.examine, State.clearForAcquire, State.serFlush]

/-- Settles O19: the three acquisitions in stage ACQUIRE, not begun. -/
theorem acquisitionsBeginByClearing : Obligations.AcquisitionsBeginByClearing := by
  intro s hs hp
  refine ⟨fun c hc => ?_, fun m hm => ?_, ?_⟩
  · split_ifs with hcap
    · simp [exec, execAcquireA, hs, hp, hc, hcap, raiseFault]
    · exact exec_acquireA_start hs hp hc (not_lt.1 hcap)
  · simp [exec, execNextframeB, hs, hp, hm, State.clearForAcquire, State.block]
  · simp [exec, execNextframeC, hs, hp, State.clearForAcquire, State.block]

/-- Settles O21: the two branches of A_ELEM, with the requested count as `CFG` has it. -/
theorem aElemStoresSampleOrTrailing : Obligations.AElemStoresSampleOrTrailing := by
  intro s u c hc
  have hcount : s.requestedCount = c.toNat := by simp [State.requestedCount, hc]
  refine ⟨fun hlt => ?_, fun hle => ?_⟩
  · rw [exec_aElem_sample u (by rwa [hcount])]
    rfl
  · rw [exec_aElem_trailing u (by rwa [hcount]), hcount]
    rfl

/-- Settles O22: A_SHORT is fault entry, which leaves the valid bits. -/
theorem aShortRaisesInsufficientData : Obligations.AShortRaisesInsufficientData :=
  fun _ _ => ⟨rfl, State.enterFault_sampValid .., State.enterFault_trailingValid ..⟩

/-- Settles O25: the equation of the token. -/
theorem bPayloadEmitsFrame : Obligations.BPayloadEmitsFrame :=
  fun _ _ => rfl

/-- Settles O30: the two branches of the token, by the length accumulated. -/
theorem cDgramAppendsOrEmits : Obligations.CDgramAppendsOrEmits := by
  intro s d
  refine ⟨fun hlt => ?_, fun hle => ?_⟩
  · simp only [exec, execCDgram, if_pos hlt, State.examine, min_eq_left hlt.le]
  · simp only [exec, execCDgram, if_neg hle.not_gt]
    rfl

/-- Settles O33: DEC_I32 by whether all `C` elements were read. -/
theorem elementStepsStoreOneSample : Obligations.ElementStepsStoreOneSample := by
  intro s u c
  refine ⟨rfl, rfl, fun hc hlt => ?_, fun hc hle => ?_⟩
  · simp [exec, execDecI32, deliverI32, State.elementIndex, State.requestedCount, hc, hlt, putI32, State.pushSample]
  · simp [exec, execDecI32, deliverI32, State.elementIndex, State.requestedCount, hc, hle.not_gt]

theorem exec_handoff_missing {s : State} (hs : s.stage = .handoff) (hp : s.phase = .start)
    (hmissing : s.sampValid = false ∨ s.specValid = false ∨ s.peakValid = false) :
    exec .handoff s = .next (s.enterFault .bufferNotValid) := by
  rcases hmissing with h | h | h <;> simp [exec, execHandoff, hs, hp, h, raiseFault]

/-- Settles O34: the check each operation of the pipeline makes first. -/
theorem invalidBuffersFault : Obligations.InvalidBuffersFault := by
  intro s
  refine ⟨fun hs h => ?_, fun hs h => exec_analyze_fault hs (by simp [analyzeCheck, h]), fun hs h => ?_,
    exec_handoff_missing⟩
  · simp [exec, execDecodeF32, hs, h, raiseFault]
  · simp [exec, execExtract, hs, h, raiseFault]

/-- Settles O35, by the order of `analyzeCheck`. -/
theorem analyzePreconditionsInOrder : Obligations.AnalyzePreconditionsInOrder := by
  intro s fs w hs hsamp hfs hw
  refine ⟨fun hlen => ?_, fun hlen hneg => ?_, fun hlen hpos hw1 hpage => ?_⟩
  · exact exec_analyze_fault hs (by simp [analyzeCheck, hsamp, hlen])
  · exact exec_analyze_fault hs (by simp [analyzeCheck, hsamp, hlen, hfs, hw, hneg])
  · exact exec_analyze_fault hs (by simp [analyzeCheck, hsamp, hlen, hfs, hw, hpos, hw1, hpage])

/-- Settles O45: HANDOFF before it blocks and after. -/
theorem handoffDeliversTheBundle : Obligations.HandoffDeliversTheBundle := by
  intro s hs
  refine ⟨exec_handoff_missing hs, fun hp h1 h2 h3 => ?_, fun hp => ?_⟩
  · simp [exec, execHandoff, hs, hp, h1, h2, h3, State.block]
  · simp [exec, execHandoff, hs, hp, State.deliver, State.bundle, State.finishStage, State.enterStage, State.examine]

/-! ### What the host reads -/

theorem State.hostReads_valid {α : Type} {s : State} (hs : s.stage = .idle) (contents : α) :
    s.hostReads true contents = some contents := by
  simp [State.hostReads, hs]

theorem State.hostReads_eq_none {α : Type} {s : State} {valid : Bool} (h : s.stage ≠ .idle ∨ valid = false)
    (contents : α) : s.hostReads valid contents = none := by
  rcases h with h | h <;> simp [State.hostReads, h]

/-- Settles O55: the codes by their tables, the reads by `State.hostReads`. -/
theorem statusMirrorsTheState : Obligations.StatusMirrorsTheState := by
  refine ⟨rfl, rfl, fun s => ⟨rfl, fun hs hv => ?_, fun hv => ?_, fun hv => ?_, fun hs hv => ?_, fun hs hv => ?_,
    fun h => State.hostReads_eq_none h _, fun h => ⟨State.hostReads_eq_none h _, State.hostReads_eq_none h _⟩,
    fun h => State.hostReads_eq_none h _⟩⟩
  · simp [State.readSamp, hv, State.hostReads_valid hs]
  · simp [State.readTrailing, hv]
  · simp [State.readTrailing, hv]
  · simp [State.readMag, State.readBin, hv, State.hostReads_valid hs]
  · simp [State.readPeaks, hv, State.hostReads_valid hs]

end Sys2Proof.Machine
end

section
/-! PROOFS. Runs of several steps: the request phase of ACQUIRE_A (O20), the header search of Variant B with its frame
(O29), and the datagrams of Variant C with theirs (O31). -/

namespace Sys2Proof.Machine

/-! ### The request phase of Variant A -/

section
variable {s : State}

theorem step_acquireA {rest : List Move} (hscript : s.env.script = .core :: rest) (hdue : cancelDue s = false)
    (hs : s.stage = .acquire) (hp : s.phase ≠ .wait) (hv : s.cfg.variant = some 0) :
    step s = exec .acquireA s.popMove := by
  calc step s
      = coreMove s.popMove := step_eq_agentMove hscript (by simp) hdue
    _ = acquisition s.popMove := coreMove_acquire (s := s.popMove) hs hp
    _ = exec .acquireA s.popMove := by simp [acquisition, hv]

theorem step_serialDelivers {bs : List Byte} {rest : List Move} (hscript : s.env.script = .serialDelivers bs :: rest)
    (hdue : cancelDue s = false) :
    step s = .next { s with env := { s.env with serIn := s.env.serIn ++ bs, script := rest } } := by
  rw [step_eq_agentMove hscript (by simp) hdue, popMove_eq hscript]
  rfl

/-- The state when ACQUIRE_A has cleared the valid bits and flushed the receive buffer (R119, R122). -/
def State.afterFlush (rest : List Move) (s : State) : State :=
  { s with
    rawValid := false, sampValid := false, trailingValid := false, specValid := false, peakValid := false,
    nonfinite := false, samp := [], consumed := 0, phase := .write, examined := true,
    env := { s.env with serPos := s.env.serPos + s.env.serBuffered, serBuffered := 0, script := rest } }

/-- The state when the request for `c` samples has been written (R122). -/
def State.afterRequest (c : Word) (rest : List Move) (s : State) : State :=
  { s with
    phase := .wait, examined := true,
    env := { s.env with serOut := s.env.serOut ++ (request c.toNat ++ s.par.reqTerminator), script := rest } }

theorem step_flush {c : Word} {rest : List Move} (hscript : s.env.script = .core :: rest)
    (hpending : s.cancelPending = false) (hs : s.stage = .acquire) (hp : s.phase = .start)
    (hv : s.cfg.variant = some 0) (hc : s.cfg.count = some c) (hcap : c.toNat ≤ s.par.sampCap)
    (hbuffered : s.env.serPos + s.env.serBuffered ≤ s.env.serIn.length) :
    step s = .next (s.afterFlush rest) := by
  have hmin : min s.env.serBuffered (s.env.serIn.length - s.env.serPos) = s.env.serBuffered := by omega
  calc step s
      = exec .acquireA s.popMove := step_acquireA hscript (cancelDue_of_not_pending hpending) hs (by simp [hp]) hv
    _ = _ := exec_acquireA_start (s := s.popMove) hs hp hc hcap
    _ = .next (s.afterFlush rest) := by simp [popMove_eq hscript, State.afterFlush, hmin, hpending]

theorem step_request {c : Word} {rest : List Move} (hscript : s.env.script = .core :: rest)
    (hpending : s.cancelPending = false) (hs : s.stage = .acquire) (hp : s.phase = .write)
    (hv : s.cfg.variant = some 0) (hc : s.cfg.count = some c) : step s = .next (s.afterRequest c rest) := by
  calc step s
      = exec .acquireA s.popMove := step_acquireA hscript (cancelDue_of_not_pending hpending) hs (by simp [hp]) hv
    _ = _ := exec_acquireA_write (s := s.popMove) hs hp hc
    _ = .next (s.afterRequest c rest) := by simp [popMove_eq hscript, State.afterRequest, hpending]

end

/-- Settles O20, step by step: the flush, the delivery of `bs`, the request. -/
theorem acquireAFlushesThenWrites : Obligations.AcquireAFlushesThenWrites := by
  intro s c bs hs hp hv hc hcap hscript hexamined hpending hbuffered
  have hflush := step_flush hscript hpending hs hp hv hc hcap hbuffered
  have hdeliver := step_serialDelivers (s := s.afterFlush [.serialDelivers bs, .core]) rfl
    (cancelDue_of_not_pending hpending)
  have hrequest := step_request (s := { s.afterFlush [.core] with env := { (s.afterFlush [.core]).env with
    serIn := s.env.serIn ++ bs } }) rfl hpending hs rfl hv hc
  rw [run_succ_of_step hflush, run_succ_of_step hdeliver]
  exact run_succ_of_step hrequest 0

/-! ### The header search of Variant B -/

/-- NEXTFRAME_B is blocked in its header search, no interrupt is latched, and `bs` are the next bytes of `ser_in`. -/
structure SearchesHeader (s : State) (m : Byte) (bs : List Byte) : Prop where
  stage : s.stage = .acquire
  phase : s.phase = .wait
  variant : s.cfg.variant = some 1
  marker : s.cfg.headerMarker = some m
  mode : s.mode = .searchingHeader
  consumed : s.consumed = 0
  notPending : s.cancelPending = false
  examined : s.examined = true
  unbuffered : s.env.serBuffered = 0
  stream : s.env.serIn.drop s.env.serPos = bs

/-- The state when `n` bytes have been read that left no trace, the next moves being `rest`. -/
def State.afterBytes (n : Nat) (rest : List Move) (s : State) : State :=
  { s with env := { s.env with serPos := s.env.serPos + n, script := rest } }

/-- The state when a frame has been read after `n` bytes of noise and the marker (R130, R138). -/
def State.afterFrame (n : Nat) (payload : List Byte) (s : State) : State :=
  { s with
    raw := payload, rawValid := true, stage := if s.loop then .decode else .idle, phase := .start,
    env := { s.env with serPos := s.env.serPos + n + 1 + s.par.frameBytes, script := [] } }

theorem exec_bNoise (b : Byte) (s : State) : exec (.bNoise b) s = .next { s with examined := !s.cancelPending } := rfl

section
variable {s : State} {m b : Byte} {bs payload after : List Byte} {rest : List Move}

theorem SearchesHeader.next_byte (h : SearchesHeader s m (b :: bs)) : s.env.serIn[s.env.serPos]? = some b := by
  have hhead : (s.env.serIn.drop s.env.serPos)[0]? = some b := by rw [h.stream]; rfl
  simpa using hhead

/-- A byte other than the marker is consumed and leaves no trace (R129). -/
theorem SearchesHeader.step_noise (h : SearchesHeader s m (b :: bs)) (hb : b ≠ m)
    (hscript : s.env.script = .serialReturns 1 :: rest) : step s = .next (s.afterBytes 1 rest) := by
  have hbytes : s.serBytes 1 = [b] := serBytes_one h.next_byte
  have hstep : step s = exec (.bNoise b) (s.popMove.serAdvance 1) :=
    step_eq_exec_token (cancelDue_of_not_pending h.notPending) hscript
      (serialRequest_searching h.stage h.phase h.variant h.marker h.mode)
      (serMayReturn_of_serBytes_length (by rw [hbytes]; rfl) Nat.one_pos)
      (by rw [hbytes, decode_searching_noise _ hb])
  rw [hstep, popMove_serAdvance_eq hscript, exec_bNoise]
  simp [State.afterBytes, h.notPending, h.examined, h.unbuffered]

theorem SearchesHeader.afterBytes (h : SearchesHeader s m (b :: bs)) : SearchesHeader (s.afterBytes 1 rest) m bs :=
  { h with stream := by simp [State.afterBytes, ← List.drop_drop, h.stream] }

/-- One byte of noise more before the frame. -/
theorem afterFrame_afterBytes (n : Nat) :
    (s.afterBytes 1 rest).afterFrame n payload = s.afterFrame (n + 1) payload := by
  have hpos : s.env.serPos + 1 + n = s.env.serPos + (n + 1) := by omega
  rw [State.afterFrame, State.afterFrame, ← hpos]
  rfl

/-- The marker byte and then the payload read complete the frame (R128, R130). -/
theorem SearchesHeader.run_frame (h : SearchesHeader s m (m :: payload ++ after))
    (hlength : payload.length = s.par.frameBytes)
    (hscript : s.env.script = [.serialReturns 1, .serialReturns s.par.frameBytes]) :
    Host.Core.run core 2 s = .next (s.afterFrame 0 payload) := by
  obtain ⟨t, hstep, ht, hrequest⟩ := headerSearchTokens.2 s m _ h.stage h.phase h.variant h.marker h.mode h.notPending
    hscript h.next_byte
  have hbytes : t.serBytes s.par.frameBytes = payload := by
    simp [ht, State.serBytes, ← List.drop_drop, h.stream, ← hlength]
  have hstep' : step t = exec (.bPayload payload) (t.popMove.serAdvance s.par.frameBytes) :=
    step_eq_exec_token (cancelDue_of_not_pending (by simp [ht, h.notPending])) (by rw [ht]) hrequest
      (serMayReturn_of_serBytes_length (by rw [hbytes, hlength]) (frameBytes_pos s.par))
      (by rw [hbytes, ht]; exact decode_collecting_payload hlength)
  rw [run_succ_of_step hstep, run_succ_of_step (hstep'.trans (bPayloadEmitsFrame _ _)),
    popMove_serAdvance_eq (m := .serialReturns s.par.frameBytes) (rest := []) (by rw [ht]), ht]
  simp [Host.Core.run, State.afterFrame, h.mode, h.consumed, h.notPending, h.examined, h.unbuffered]

/-- Noise first, byte by byte, then the frame (R138). -/
theorem run_search (hlength : payload.length = s.par.frameBytes) (noise : List Byte) (hnoise : m ∉ noise) : ∀ t : State,
    t.par = s.par → SearchesHeader t m (noise ++ m :: payload ++ after) →
    t.env.script = List.replicate (noise.length + 1) (.serialReturns 1) ++ [.serialReturns s.par.frameBytes] →
    Host.Core.run core (noise.length + 2) t = .next (t.afterFrame noise.length payload) := by
  induction noise with
  | nil =>
    intro t hpar h hscript
    exact h.run_frame (by rw [hpar, hlength]) (by rw [hpar]; exact hscript)
  | cons b noise ih =>
    intro t hpar h hscript
    have hb : b ≠ m := fun hb => hnoise (by simp [hb])
    have hscript' : t.env.script = .serialReturns 1 :: (List.replicate (noise.length + 1) (.serialReturns 1) ++
        [.serialReturns s.par.frameBytes]) := hscript
    have hstep := h.step_noise hb hscript'
    have hrun := ih (fun hm => hnoise (List.mem_cons_of_mem b hm)) (t.afterBytes 1 _) hpar h.afterBytes rfl
    exact (run_succ_of_step hstep _).trans (hrun.trans (congrArg Host.Outcome.next (afterFrame_afterBytes _)))

end

/-- Settles O29, by `run_search` from the state given. -/
theorem firstMarkerStartsTheFrame : Obligations.FirstMarkerStartsTheFrame := by
  intro s m before noise payload after hs hp hv hm hmode hconsumed hpending hexamined hbuffered hnoise hlength hstream
    hpos hscript
  have hsearch : SearchesHeader s m (noise ++ m :: payload ++ after) :=
    { stage := hs, phase := hp, variant := hv, marker := hm, mode := hmode, consumed := hconsumed,
      notPending := hpending, examined := hexamined, unbuffered := hbuffered
      stream := by simp [hstream, hpos] }
  exact run_search hlength noise hnoise s rfl hsearch hscript

/-! ### The datagrams of Variant C -/

/-- NEXTFRAME_C is blocked in its receive, no interrupt is latched, and `ds` are the next datagrams, none too long. -/
structure AwaitsDatagrams (s : State) (ds : List (List Byte)) : Prop where
  stage : s.stage = .acquire
  phase : s.phase = .wait
  variant : s.cfg.variant = some 2
  mode : s.mode = .searchingHeader
  notPending : s.cancelPending = false
  examined : s.examined = true
  admitted : ∀ d ∈ ds, d.length ≤ s.par.dgramMax
  stream : ∃ after, s.env.dgramIn.drop s.env.dgramPos = ds ++ after

/-- The state when the datagram `d` has been received and added to the accumulator (R133). -/
def State.afterDatagram (d : List Byte) (rest : List Move) (s : State) : State :=
  { s with
    acc := s.acc ++ d, consumed := (s.acc ++ d).length
    env := { s.env with dgramPos := s.env.dgramPos + 1, script := rest } }

/-- The state when `n` datagrams have filled the accumulator up to `bytes`, and the frame is emitted (R134). -/
def State.afterDatagrams (n : Nat) (bytes : List Byte) (s : State) : State :=
  { s with
    raw := bytes.take s.par.frameBytes, rawValid := true, consumed := 0, acc := [],
    stage := if s.loop then .decode else .idle, phase := .start,
    env := { s.env with dgramPos := s.env.dgramPos + n, script := [] } }

section
variable {s : State} {d : List Byte} {ds : List (List Byte)} {rest : List Move}

/-- The step in which the next datagram is received makes it the token C_DGRAM (R97). -/
theorem AwaitsDatagrams.step_eq (h : AwaitsDatagrams s (d :: ds)) (hscript : s.env.script = .dgramReturns :: rest) :
    step s = exec (.cDgram d) s.popMove.dgramAdvance := by
  obtain ⟨after, hstream⟩ := h.stream
  have hd : s.env.dgramIn[s.env.dgramPos]? = some d := by
    have hhead : (s.env.dgramIn.drop s.env.dgramPos)[0]? = some d := by rw [hstream]; rfl
    simpa using hhead
  exact stepRunsTheToken.2 s d rest (cancelDue_of_not_pending h.notPending) hscript h.stage h.phase h.variant hd
    (h.admitted d (by simp))

theorem AwaitsDatagrams.step_gather (h : AwaitsDatagrams s (d :: ds)) (hscript : s.env.script = .dgramReturns :: rest)
    (hlt : (s.acc ++ d).length < s.par.frameBytes) : step s = .next (s.afterDatagram d rest) := by
  calc step s
      = exec (.cDgram d) s.popMove.dgramAdvance := h.step_eq hscript
    _ = _ := (cDgramAppendsOrEmits s.popMove.dgramAdvance d).1 hlt
    _ = .next (s.afterDatagram d rest) := by
      simp [State.afterDatagram, State.dgramAdvance, popMove_eq hscript, h.notPending, h.examined]

theorem AwaitsDatagrams.afterDatagram (h : AwaitsDatagrams s (d :: ds)) :
    AwaitsDatagrams (s.afterDatagram d rest) ds := by
  obtain ⟨after, hstream⟩ := h.stream
  exact
    { h with
      admitted := fun x hx => h.admitted x (List.mem_cons_of_mem d hx)
      stream := ⟨after, by simp [State.afterDatagram, ← List.drop_drop, hstream]⟩ }

theorem AwaitsDatagrams.step_fill (h : AwaitsDatagrams s [d]) (hscript : s.env.script = [.dgramReturns])
    (hle : s.par.frameBytes ≤ (s.acc ++ d).length) : step s = .next (s.afterDatagrams 1 (s.acc ++ d)) := by
  calc step s
      = exec (.cDgram d) s.popMove.dgramAdvance := h.step_eq hscript
    _ = _ := (cDgramAppendsOrEmits s.popMove.dgramAdvance d).2 hle
    _ = .next (s.afterDatagrams 1 (s.acc ++ d)) := by
      simp [State.afterDatagrams, State.dgramAdvance, popMove_eq hscript, h.mode, h.notPending, h.examined]

/-- One datagram more before the frame. -/
theorem afterDatagrams_afterDatagram (n : Nat) (bytes : List Byte) :
    (s.afterDatagram d rest).afterDatagrams n bytes = s.afterDatagrams (n + 1) bytes := by
  simp [State.afterDatagrams, State.afterDatagram]
  omega

/-- Datagrams below a frame gather in the accumulator, and the one that fills it completes the frame, from whatever
has been gathered before (R93, R133, R134). -/
theorem run_datagrams {last : List Byte} (ds : List (List Byte)) : ∀ s : State, AwaitsDatagrams s (ds ++ [last]) →
    (s.acc ++ ds.flatten).length < s.par.frameBytes → s.par.frameBytes ≤ (s.acc ++ ds.flatten ++ last).length →
    s.env.script = List.replicate (ds.length + 1) .dgramReturns →
    Host.Core.run core (ds.length + 1) s = .next (s.afterDatagrams (ds.length + 1) (s.acc ++ ds.flatten ++ last)) := by
  induction ds with
  | nil =>
    intro s h _ hle hscript
    rw [List.flatten_nil, List.append_nil] at hle ⊢
    exact run_succ_of_step (h.step_fill hscript hle) 0
  | cons d ds ih =>
    intro s h hlt hle hscript
    rw [List.flatten_cons, ← List.append_assoc] at hlt hle ⊢
    have hlt' : (s.acc ++ d).length < s.par.frameBytes := lt_of_le_of_lt (by simp) hlt
    have hstep := h.step_gather (rest := List.replicate (ds.length + 1) .dgramReturns) hscript hlt'
    have hrun := ih _ h.afterDatagram hlt hle rfl
    refine (run_succ_of_step hstep _).trans (hrun.trans (congrArg Host.Outcome.next ?_))
    exact afterDatagrams_afterDatagram _ _

end

/-- Settles O31, by `run_datagrams` from an empty accumulator. -/
theorem frameIsPrefixOfDatagrams : Obligations.FrameIsPrefixOfDatagrams := by
  intro s ds last before after hs hp hv hmode hacc hconsumed hpending hexamined hlt hle hadmitted hstream hpos hscript
  have hawaits : AwaitsDatagrams s (ds ++ [last]) :=
    { stage := hs, phase := hp, variant := hv, mode := hmode, notPending := hpending, examined := hexamined
      admitted := fun d hd => hadmitted d (by simpa [or_comm] using hd)
      stream := ⟨after, by simp [hstream, hpos]⟩ }
  rw [run_datagrams ds s hawaits (by simpa [hacc] using hlt) (by simpa [hacc] using hle) hscript]
  simp [State.afterDatagrams, hacc, hconsumed]

end Sys2Proof.Machine
end

section
/-! PROOFS. ANALYZE against the reference semantics (O36, O37), the Hann window's end samples (O39), and the comparisons
that EXTRACT makes: the threshold (O40, O43) and the capacity (O44). -/

namespace Sys2Proof.Machine

/-! ### What ANALYZE writes -/

section
variable {s : State} {fs : Rat} {w : BitVec 1}

/-- The state that ANALYZE of a finite frame completes with (R165). -/
theorem exec_analyze_finite (hs : s.stage = .analyze) (hcheck : analyzeCheck s = none)
    (hfs : s.cfg.sampleRate = some fs) (hw : s.cfg.windowSel = some w) (hlength : s.samp.length = s.par.N)
    (hfinite : ∀ x ∈ s.samp, sampleNonFinite x = false) : exec .analyze s = .next { s with
      mag := spectrum s.par w s.samp, bin := (List.range (s.par.K + 1)).map (binCentre s.par fs),
      nonfinite := false, specValid := true,
      stage := if s.loop then .extract else .idle, phase := .start, examined := !s.cancelPending } := by
  have hgood : s.samp.any sampleNonFinite = false := by simpa [List.any_eq_false] using hfinite
  rw [exec_analyze_checked hs hcheck hfs hw]
  simp [analyzed, List.take_of_length_le hlength.le, hgood, State.finishStage, State.enterStage, State.examine]

/-- The state that ANALYZE of a frame with a NaN or an infinity completes with (R175). -/
theorem exec_analyze_nonfinite (hs : s.stage = .analyze) (hcheck : analyzeCheck s = none)
    (hfs : s.cfg.sampleRate = some fs) (hw : s.cfg.windowSel = some w) (hlength : s.samp.length = s.par.N)
    (hbad : ∃ x ∈ s.samp, sampleNonFinite x = true) : exec .analyze s = .next { s with
      mag := drawnSpectrum s, bin := (List.range (s.par.K + 1)).map (binCentre s.par fs),
      nonfinite := true, specValid := true, draws := s.draws + (s.par.K + 1),
      stage := if s.loop then .extract else .idle, phase := .start, examined := !s.cancelPending } := by
  have hbad : s.samp.any sampleNonFinite = true := List.any_eq_true.2 hbad
  rw [exec_analyze_checked hs hcheck hfs hw]
  simp [analyzed, List.take_of_length_le hlength.le, hbad, State.finishStage, State.enterStage, State.examine]

end

/-- Settles O36: the spectrum of the machine's `NUM`, and under the exact one its real numbers. -/
theorem analyzeIsTheReferenceSpectrum : Obligations.AnalyzeIsTheReferenceSpectrum := by
  intro s fs w hs hvalid hlen hlength hfs hpos hw hpage hfinite
  refine ⟨spectrum s.par w s.samp, exec_analyze_finite hs (analyzeCheck_eq_none hvalid hlen hfs hpos hw hpage) hfs hw
    hlength hfinite, spectrum_length _ _ _, spectrum_legal _ _ _ hlength, fun hexact => ⟨fun k => ?_, fun k hk => ?_⟩⟩
  · simp [binCentre, hexact]
  · simpa [spectrum] using spectrumAt_toReal hexact w s.samp hlength k

/-- Settles O37: the drawn magnitudes are legal, and every magnitude is a non-negative number. -/
theorem nonFiniteFramesGoOn : Obligations.NonFiniteFramesGoOn := by
  intro s fs w hs hvalid hlen hlength hfs hpos hw hpage hbad
  exact ⟨drawnSpectrum s, exec_analyze_nonfinite hs (analyzeCheck_eq_none hvalid hlen hfs hpos hw hpage) hfs hw hlength
    hbad, drawnSpectrum_length s, fun m hm => ⟨drawnSpectrum_legal s m hm, m.toReal_nonneg⟩⟩

/-! ### The Hann window -/

/-- The Hann window is 0 at both ends of the frame (R167). -/
theorem hann_end {N n : Nat} (hN : 2 ≤ N) (hn : n = 0 ∨ n + 1 = N) : Reference.hann N n = 0 := by
  have hcos : Real.cos (2 * Real.pi * (n : ℝ) / ((N : ℝ) - 1)) = 1 := by
    rcases hn with rfl | rfl
    · simp
    · have hne : (n : ℝ) ≠ 0 := by exact_mod_cast (by omega : n ≠ 0)
      rw [Nat.cast_add_one, add_sub_cancel_right, mul_div_cancel_right₀ _ hne, Real.cos_two_pi]
  rw [Reference.hann, hcos]
  norm_num

theorem windowed_hann_end {N n : Nat} (hN : 2 ≤ N) (hn : n = 0 ∨ n + 1 = N) (x : List Sample) :
    Reference.windowed 0 N x n = 0 := by
  simp [Reference.windowed, Reference.win, hann_end hN hn]

/-- Under the Hann window only the samples between the ends are looked at. -/
theorem windowed_hann_congr {N : Nat} (hN : 2 ≤ N) {x y : List Sample}
    (hxy : ∀ n, 1 ≤ n → n + 1 < N → x[n]? = y[n]?) {n : Nat} (hn : n < N) :
    Reference.windowed 0 N x n = Reference.windowed 0 N y n := by
  by_cases hend : n = 0 ∨ n + 1 = N
  · rw [windowed_hann_end hN hend, windowed_hann_end hN hend]
  · rw [Reference.windowed, Reference.windowed, List.getD_eq_getElem?_getD, List.getD_eq_getElem?_getD,
      hxy n (by omega) (by omega)]

/-- A magnitude depends on the windowed samples of the frame only (R170, R171). -/
theorem magnitude_congr {sel : BitVec 1} {N : Nat} {x y : List Sample}
    (h : ∀ n < N, Reference.windowed sel N x n = Reference.windowed sel N y n) (k : Nat) :
    Reference.magnitude sel N x k = Reference.magnitude sel N y k := by
  have hre : Reference.rePart sel N x k = Reference.rePart sel N y k :=
    Finset.sum_congr rfl fun n hn => by rw [h n (Finset.mem_range.1 hn)]
  have him : Reference.imPart sel N x k = Reference.imPart sel N y k :=
    congrArg Neg.neg (Finset.sum_congr rfl fun n hn => by rw [h n (Finset.mem_range.1 hn)])
  rw [Reference.magnitude, Reference.magnitude, hre, him]

/-- The exact spectrum of a frame, as real numbers. -/
theorem spectrum_map_toReal {p : Config.Params} (hexact : p.num = .exact) (sel : BitVec 1) {x : List Sample}
    (hx : x.length = p.N) :
    (spectrum p sel x).map Mag.toReal = (List.range (p.K + 1)).map (Reference.magnitude sel p.N x) := by
  simp [spectrum, spectrumAt_toReal hexact sel x hx]

/-- Settles O39: the windowed samples agree, and for `N = 2` both samples are ends. -/
theorem hannIgnoresEndSamples : Obligations.HannIgnoresEndSamples := by
  intro s y fs hs hvalid hlen hlength hy hfs hpos hw hexact hfinite hyfinite hxy
  have hN : 2 ≤ s.par.N := N_ge_two s.par
  have hcheck : analyzeCheck s = none := analyzeCheck_eq_none hvalid hlen hfs hpos hw (by simp)
  refine ⟨_, _, exec_analyze_finite hs hcheck hfs hw hlength hfinite,
    exec_analyze_finite (s := { s with samp := y }) hs hcheck hfs hw hy hyfinite, ?_, spectrum_length _ _ _, ?_⟩
  · rw [spectrum_map_toReal hexact 0 hlength]
    refine Eq.trans ?_ (spectrum_map_toReal hexact 0 hy).symm
    exact List.map_congr_left fun k _ => magnitude_congr (fun n hn => windowed_hann_congr hN hxy hn) k
  · intro htwo m hm
    obtain ⟨k, -, rfl⟩ := List.mem_map.1 hm
    rw [spectrumAt_toReal hexact 0 s.samp hlength, magnitude_congr (y := []) fun n hn => ?_]
    · exact magnitude_eq_zero 0 s.par.N (by simp) k
    · rw [windowed_hann_end hN (by omega), windowed_hann_end hN (by omega)]

/-! ### Comparisons under the exact `NUM` -/

section
variable {s : State} {frac : Word} {i j : Nat}

theorem SpectrumHeld.magAt_legal (h : SpectrumHeld s) (hi : i ≤ s.par.K) : (magAt s.mag i).Legal s.par.num := by
  obtain ⟨-, hlength, -, hlegal⟩ := h
  exact hlegal _ (magAt_mem (by omega))

/-- Under the exact `NUM` the place of a magnitude is the number it stands for. -/
theorem SpectrumHeld.magPlace_eq (h : SpectrumHeld s) (hexact : s.par.num = .exact) (hi : i ≤ s.par.K) :
    magPlace s i = magReal s i := by
  obtain ⟨e, he, -⟩ := (hexact ▸ h.magAt_legal hi).cases_exact
  simp [magPlace, magReal, he, Mag.place, Mag.toReal]

/-- The maximum that EXTRACT uses is a magnitude of the spectrum, and no place is above its place (R187). -/
theorem SpectrumHeld.maxMag_spec (h : SpectrumHeld s) :
    ∃ j ≤ s.par.K, maxMag (s.mag.take (s.par.K + 1)) = magAt s.mag j ∧ ∀ i ≤ s.par.K, magPlace s i ≤ magPlace s j := by
  obtain ⟨-, hlength, -, hlegal⟩ := h
  rw [List.take_of_length_le hlength.le]
  obtain ⟨hmem, hmax⟩ := Machine.maxMag_spec s.mag (List.ne_nil_of_length_eq_add_one hlength) hlegal
  obtain ⟨j, hj, hget⟩ := List.mem_iff_getElem.1 hmem
  have hat : maxMag s.mag = magAt s.mag j := by rw [magAt, List.getD_eq_getElem _ _ hj, hget]
  refine ⟨j, by omega, hat, fun i hi => ?_⟩
  rw [magPlace, magPlace, ← hat]
  exact hmax _ (magAt_mem (by omega))

/-- The threshold test of EXTRACT under the exact `NUM` compares real numbers (R187). -/
theorem SpectrumHeld.reaches_iff (h : SpectrumHeld s) (hexact : s.par.num = .exact) (hi : i ≤ s.par.K) :
    reachesThreshold frac (maxMag (s.mag.take (s.par.K + 1))) (magAt s.mag i) = true ↔
      Reference.f32Value frac * (maxMag (s.mag.take (s.par.K + 1))).toReal ≤ magReal s i := by
  obtain ⟨j, hj, hmax, -⟩ := h.maxMag_spec
  obtain ⟨e, he, hlegal⟩ := (hexact ▸ h.magAt_legal hi).cases_exact
  obtain ⟨mx, hmx, hmxlegal⟩ := (hexact ▸ h.magAt_legal hj).cases_exact
  rw [hmax, magReal, he, hmx]
  exact exactReaches_iff hmxlegal.1 hlegal.1 hlegal.square_nonneg hmxlegal.square_nonneg frac

/-- The maximum of the spectrum as a real number is the maximum of the real numbers (R187). -/
theorem SpectrumHeld.maxMag_toReal (h : SpectrumHeld s) (hexact : s.par.num = .exact) {mx : ℝ}
    (hmx : IsSpectrumMax s mx) : (maxMag (s.mag.take (s.par.K + 1))).toReal = mx := by
  obtain ⟨j, hj, hmax, hplace⟩ := h.maxMag_spec
  obtain ⟨⟨k, hk, rfl⟩, hle⟩ := hmx
  refine le_antisymm (hmax ▸ hle j hj) ?_
  have hkj := hplace k hk
  rw [h.magPlace_eq hexact hk, h.magPlace_eq hexact hj] at hkj
  rw [hmax]
  exact hkj

end

/-- Settles O40: legal magnitudes compare as their real numbers do, the maximum among them. -/
theorem exactThresholdIsTheRealOne : Obligations.ExactThresholdIsTheRealOne := by
  intro s frac mx hheld hexact _ hmx
  refine ⟨fun i j hi hj => ?_, fun i hi => ?_⟩
  · rw [hheld.magAt_lt_iff hi hj, hheld.magPlace_eq hexact hi, hheld.magPlace_eq hexact hj]
  · rw [hheld.reaches_iff hexact hi, hheld.maxMag_toReal hexact hmx]

/-! ### The threshold and the survivors -/

section
variable {s : State} {f g : Word} {dist i j : Nat}

/-- A candidate that is not below a qualifying bin qualifies too, and at a smaller fraction as well (R187). -/
theorem SpectrumHeld.qualifies_of_le (h : SpectrumHeld s) (hexact : s.par.num = .exact)
    (hfg : Reference.f32Value f ≤ Reference.f32Value g) (hi : Qualifies s g i) (hj : IsPeakCandidate s j)
    (hij : magPlace s i ≤ magPlace s j) : Qualifies s f j := by
  have hiK := hi.le_K
  obtain ⟨-, hreach⟩ := hi
  have hjK : j ≤ s.par.K := by
    obtain ⟨-, hjK, -⟩ := hj
    omega
  rw [h.reaches_iff hexact hiK] at hreach
  rw [h.magPlace_eq hexact hiK, h.magPlace_eq hexact hjK] at hij
  refine ⟨hj, (h.reaches_iff hexact hjK).2 ?_⟩
  calc _ ≤ _ := mul_le_mul_of_nonneg_right hfg (Mag.toReal_nonneg _)
    _ ≤ magReal s i := hreach
    _ ≤ magReal s j := hij

theorem Outranks.place_le (h : Outranks s j i) : magPlace s i ≤ magPlace s j := by
  rcases h with h | ⟨h, -⟩
  · exact h.le
  · exact h.ge

theorem outranks_isStrictOrder (s : State) : IsStrictOrder Nat (Outranks s) where
  irrefl i h := h.ne rfl
  trans i j k hij hjk := by
    rcases hij with hij | ⟨hij, hlt⟩ <;> rcases hjk with hjk | ⟨hjk, hlt'⟩
    · exact .inl (hjk.trans hij)
    · exact .inl (hjk ▸ hij)
    · exact .inl (hij ▸ hjk)
    · exact .inr ⟨hij.trans hjk, hlt.trans hlt'⟩

/-- A bin that qualifies at the larger fraction survives there exactly when it survives at the smaller one: what
outranks it qualifies at both, so by induction along the ranks the bins that can drop it are the same (R188, R194). -/
theorem SpectrumHeld.mem_survivors_congr (h : SpectrumHeld s) (hexact : s.par.num = .exact)
    (hfg : Reference.f32Value f ≤ Reference.f32Value g) (hi : Qualifies s g i) :
    i ∈ survivors s.par g dist s.mag ↔ i ∈ survivors s.par f dist s.mag := by
  have horder := outranks_isStrictOrder s
  have hwf : {i | i ≤ s.par.K}.WellFoundedOn (Outranks s) := (Set.finite_le_nat s.par.K).wellFoundedOn
  refine hwf.induction (P := fun i => Qualifies s g i →
    (i ∈ survivors s.par g dist s.mag ↔ i ∈ survivors s.par f dist s.mag)) hi.le_K (fun i _ ih hi => ?_) hi
  rw [h.mem_survivors_iff hi, h.mem_survivors_iff (h.qualifies_of_le hexact hfg hi hi.1 le_rfl)]
  have hsame : ∀ j, Outranks s j i → (j ∈ survivors s.par g dist s.mag ↔ j ∈ survivors s.par f dist s.mag) := by
    intro j hrank
    have hiff : Qualifies s g j → (j ∈ survivors s.par g dist s.mag ↔ j ∈ survivors s.par f dist s.mag) :=
      fun hj => ih j hj.le_K hrank hj
    refine ⟨fun hj => (hiff (h.mem_qualifying_iff.1 (survivors_qualify hj))).1 hj, fun hj => ?_⟩
    obtain ⟨hcandidate, -⟩ := h.mem_qualifying_iff.1 (survivors_qualify hj)
    exact (hiff (h.qualifies_of_le hexact le_rfl hi hcandidate hrank.place_le)).2 hj
  exact ⟨fun hfar j hj hrank => hfar j ((hsame j hrank).2 hj) hrank,
    fun hfar j hj hrank => hfar j ((hsame j hrank).1 hj) hrank⟩

end

/-- Settles O43, by `SpectrumHeld.mem_survivors_congr`. -/
theorem raisingTheFractionOnlyRemovesPeaks : Obligations.RaisingTheFractionOnlyRemovesPeaks := by
  intro s f g d hheld hexact _ _ hfg i hi
  exact (hheld.mem_survivors_congr hexact hfg (hheld.mem_qualifying_iff.1 (survivors_qualify hi))).1 hi

/-- Settles O44: of two adjacent bins only one can exceed the other; the capacity is that of the model's lemma. -/
theorem peakCapacityIsNeverExceeded : Obligations.PeakCapacityIsNeverExceeded := by
  intro s frac d hheld
  have ⟨_, hlength, _, hlegal⟩ := hheld
  refine ⟨fun i hi hsucc => ?_, survivors_length_le hlength hlegal, fun hconst => ?_⟩
  · obtain ⟨-, -, -, hdown⟩ := hi
    obtain ⟨-, -, hup, -⟩ := hsucc
    exact lt_asymm hdown hup
  · refine List.eq_nil_iff_forall_not_mem.2 fun i hi => ?_
    obtain ⟨⟨hlow, hhigh, hup, -⟩, -⟩ := hheld.mem_qualifying_iff.1 (survivors_qualify hi)
    exact hup.ne (hconst _ _ (by omega) (by omega))

end Sys2Proof.Machine
end
